-- ==== Sys2Proof/Word.lean ====
section
/-! DEFINITION. The word types of the OD2W block (spec/00_scope.md R9, spec/30_encoding.md R70) and the two
line names and two driver values (spec/10_state.md R21). -/

namespace Sys2Proof

/-- A data byte, a frame-buffer element, the STATUS register or the SHIFT register: 8 bits, unsigned (R9). -/
abbrev Byte := BitVec 8

/-- A command word: 24 bits, `op[23:16] a[15:8] b[7:0]` (R70). -/
abbrev CmdWord := BitVec 24

/-- The two open-drain lines of the bus (R13, R21). -/
inductive Line where
  | clock
  | data
  deriving DecidableEq, Repr

/-- What one agent's driver does to an open-drain line: it pulls the line low, or it releases it and the
pull-up makes the level high unless another agent pulls it low (R21, spec/90_conflicts.md C5). -/
inductive Driver where
  | low
  | rel
  deriving DecidableEq, Repr

end Sys2Proof
end

