-- ==== Sys2Proof/Syntax.lean ====
section
/-! DEFINITION. The commands of the block: one constructor per row of spec/opcode_table.json
(spec/30_encoding.md R71). -/

namespace Sys2Proof

/-- A command. Bytes that go on the wire or into the frame buffer are bit vectors. The index of `FBWR` and the
count of `PUSHF` are numbers, and WellFormed.lean bounds them by their 8-bit fields. -/
inductive Instr where
  /-- `LOWC` (R101). -/
  | lowc
  /-- `RELC` (R102). -/
  | relc
  /-- `LOWD` (R103). -/
  | lowd
  /-- `RELD` (R104). -/
  | reld
  /-- `READD` (R106). -/
  | readd
  /-- `DELAY UNIT` (R109). -/
  | delayUnit
  /-- `DELAY GAP` (R109). -/
  | delayGap
  /-- `DELAY PUSH` (R109). -/
  | delayPush
  /-- `START` (R110). -/
  | start
  /-- `STOP` (R111). -/
  | stop
  /-- `WRBYTE value` (R133). -/
  | wrbyte (value : Byte)
  /-- `WRTXN1 addrByte, data` (R135). -/
  | wrtxn1 (addrByte data : Byte)
  /-- `WRTXNF addrByte` (R136). -/
  | wrtxnf (addrByte : Byte)
  /-- `SENDF` (R160). -/
  | sendf
  /-- `PUSHF n` (R163). -/
  | pushf (n : Nat)
  /-- `FBCLR` (R180). -/
  | fbclr
  /-- `FBWR index, value` (R181). -/
  | fbwr (index : Nat) (value : Byte)
  deriving DecidableEq, Repr

end Sys2Proof
end

