-- ==== Sys2Proof/WellFormed.lean ====
section
/-! DEFINITION. Which terms of `Instr` a command word can spell: an operand lies in 0 to 255, the range of its
8-bit field (spec/00_scope.md R9, spec/30_encoding.md R70 and R74). -/

namespace Sys2Proof

/-- An operand fits its 8-bit field (R74: "An operand outside 0 to 255 is an assembly error"). -/
def operandFits (x : Nat) : Bool := decide (x < 256)

/-- The command is one that a word spells. Operands of type `Byte` fit by their type. -/
def Instr.wellFormed : Instr → Bool
  | .lowc => true
  | .relc => true
  | .lowd => true
  | .reld => true
  | .readd => true
  | .delayUnit => true
  | .delayGap => true
  | .delayPush => true
  | .start => true
  | .stop => true
  | .wrbyte _ => true
  | .wrtxn1 _ _ => true
  | .wrtxnf _ => true
  | .sendf => true
  | .pushf n => operandFits n
  | .fbclr => true
  | .fbwr index _ => operandFits index

end Sys2Proof
end

