-- ==== Sys2Proof/Decode.lean ====
section
/-! DEFINITION. The decoder of the 24-bit command word (spec/30_encoding.md R70 to R73), total on every word and
rejecting by name, then the encoder and the opcode table as data (R71). -/

namespace Sys2Proof

/-- The `op` field, bits 23:16 (R70). -/
def opField (w : CmdWord) : Byte := w.extractLsb' 16 8

/-- The `a` field, bits 15:8 (R70). -/
def aField (w : CmdWord) : Byte := w.extractLsb' 8 8

/-- The `b` field, bits 7:0 (R70). -/
def bField (w : CmdWord) : Byte := w.extractLsb' 0 8

/-- The word with these three fields (R70). -/
def mkWord (op a b : Byte) : CmdWord := op ++ a ++ b

/-- Why a word is illegal (R72). -/
inductive DecodeError where
  /-- `op` is 0x00 or 0x10 to 0xFF. -/
  | reservedOpcode (op : Byte)
  /-- A field that the row fixes to 0 is not 0. -/
  | fixedField (op : Byte)
  /-- `DELAY` with a selector of 3 or more. -/
  | delaySelector (sel : Byte)
  deriving DecidableEq, Repr

/-- The command `i` where a field that its row fixes to 0 is 0, the illegal word otherwise (R72). -/
def withFixed (op : Byte) (zero : Bool) (i : Instr) : Except DecodeError Instr :=
  if zero then .ok i else .error (.fixedField op)

/-- `DELAY` with selector `sel` (R71, R72). -/
def decodeDelay (sel : Byte) : Except DecodeError Instr :=
  match sel.toNat with
  | 0 => .ok .delayUnit
  | 1 => .ok .delayGap
  | 2 => .ok .delayPush
  | _ => .error (.delaySelector sel)

/-- The decode of R73 on the three fields. -/
def decodeFields (op a b : Byte) : Except DecodeError Instr :=
  match op.toNat with
  | 0x01 => withFixed op (a == 0 && b == 0) .lowc
  | 0x02 => withFixed op (a == 0 && b == 0) .relc
  | 0x03 => withFixed op (a == 0 && b == 0) .lowd
  | 0x04 => withFixed op (a == 0 && b == 0) .reld
  | 0x05 => withFixed op (a == 0 && b == 0) .readd
  | 0x06 => if b == 0 then decodeDelay a else .error (.fixedField op)
  | 0x07 => withFixed op (a == 0 && b == 0) .start
  | 0x08 => withFixed op (a == 0 && b == 0) .stop
  | 0x09 => withFixed op (a == 0) (.wrbyte b)
  | 0x0A => .ok (.wrtxn1 a b)
  | 0x0B => withFixed op (b == 0) (.wrtxnf a)
  | 0x0C => withFixed op (a == 0 && b == 0) .sendf
  | 0x0D => withFixed op (a == 0) (.pushf b.toNat)
  | 0x0E => withFixed op (a == 0 && b == 0) .fbclr
  | 0x0F => .ok (.fbwr a.toNat b)
  | _ => .error (.reservedOpcode op)

/-- The decode of R73, total on every 24-bit word. -/
def decode (w : CmdWord) : Except DecodeError Instr := decodeFields (opField w) (aField w) (bField w)

/-- The opcode of a command, the `op` column of R71. -/
def Instr.opcode : Instr → Byte
  | .lowc => 0x01
  | .relc => 0x02
  | .lowd => 0x03
  | .reld => 0x04
  | .readd => 0x05
  | .delayUnit => 0x06
  | .delayGap => 0x06
  | .delayPush => 0x06
  | .start => 0x07
  | .stop => 0x08
  | .wrbyte _ => 0x09
  | .wrtxn1 _ _ => 0x0A
  | .wrtxnf _ => 0x0B
  | .sendf => 0x0C
  | .pushf _ => 0x0D
  | .fbclr => 0x0E
  | .fbwr _ _ => 0x0F

/-- The first operand, the `a` column of R71. -/
def Instr.operandA : Instr → Byte
  | .lowc => 0
  | .relc => 0
  | .lowd => 0
  | .reld => 0
  | .readd => 0
  | .delayUnit => 0
  | .delayGap => 1
  | .delayPush => 2
  | .start => 0
  | .stop => 0
  | .wrbyte _ => 0
  | .wrtxn1 addrByte _ => addrByte
  | .wrtxnf addrByte => addrByte
  | .sendf => 0
  | .pushf _ => 0
  | .fbclr => 0
  | .fbwr index _ => BitVec.ofNat 8 index

/-- The second operand, the `b` column of R71. -/
def Instr.operandB : Instr → Byte
  | .lowc => 0
  | .relc => 0
  | .lowd => 0
  | .reld => 0
  | .readd => 0
  | .delayUnit => 0
  | .delayGap => 0
  | .delayPush => 0
  | .start => 0
  | .stop => 0
  | .wrbyte value => value
  | .wrtxn1 _ data => data
  | .wrtxnf _ => 0
  | .sendf => 0
  | .pushf n => BitVec.ofNat 8 n
  | .fbclr => 0
  | .fbwr _ value => value

/-- The word of a well-formed command (R70, R71). -/
def encode (i : Instr) : CmdWord := mkWord i.opcode i.operandA i.operandB

/-- One row of the opcode table: the bits it fixes and their values. -/
structure OpcodeRow where
  mask : CmdWord
  pattern : CmdWord
  deriving DecidableEq, Repr

/-- The word has the row's fixed bits. -/
def OpcodeRow.covers (r : OpcodeRow) (w : CmdWord) : Bool := w &&& r.mask == r.pattern

/-- The 17 rows of spec/opcode_table.json, in its order. -/
def opcodeTable : List OpcodeRow :=
  [⟨0xFFFFFF, 0x010000⟩, ⟨0xFFFFFF, 0x020000⟩, ⟨0xFFFFFF, 0x030000⟩, ⟨0xFFFFFF, 0x040000⟩,
   ⟨0xFFFFFF, 0x050000⟩, ⟨0xFFFFFF, 0x060000⟩, ⟨0xFFFFFF, 0x060100⟩, ⟨0xFFFFFF, 0x060200⟩,
   ⟨0xFFFFFF, 0x070000⟩, ⟨0xFFFFFF, 0x080000⟩, ⟨0xFFFF00, 0x090000⟩, ⟨0xFF0000, 0x0A0000⟩] ++
  [⟨0xFF00FF, 0x0B0000⟩, ⟨0xFFFFFF, 0x0C0000⟩, ⟨0xFFFF00, 0x0D0000⟩, ⟨0xFFFFFF, 0x0E0000⟩,
   ⟨0xFF0000, 0x0F0000⟩]

/-- Two rows that no word can match together: some bit that both fix has different values. -/
def OpcodeRow.apart (r t : OpcodeRow) : Bool := (r.pattern ^^^ t.pattern) &&& r.mask &&& t.mask != 0

/-- The command that the decoder reads from the bits `w` of an instruction of `nbits` bits, numbered as
spec/opcode_table.json numbers them. A command is one 24-bit word (R70), so the bits above `nbits` are 0. -/
def decodeTableWord (nbits w : Nat) : Option Instr :=
  match decode (BitVec.ofNat 24 (w % 2 ^ nbits)) with
  | .ok i => some i
  | .error _ => none

end Sys2Proof
end

