-- ==== Sys2Proof/Config.lean ====
section
/-! DEFINITION. The implementation parameters `Cfg` of spec/00_scope.md R8, this hardware's values of them, and
the free values: the draws that the spec leaves open (spec/93_implementation_defined.md I5 to I9). -/

namespace Sys2Proof

/-- The configuration record of R8. `PREAMBLE_LEN` is the length of `preamble`, and `ADDR_BYTE` is computed from
`addr7` (Machine/Operands.lean). Nothing in the machine changes it. -/
structure Cfg where
  /-- `T_UNIT`, microseconds. -/
  tUnit : Nat
  /-- `T_GAP`, microseconds. -/
  tGap : Nat
  /-- `T_PUSH`, microseconds. -/
  tPush : Nat
  /-- `REPEAT_DEFAULT`: the count of a `PUSHF` written without an operand (R75). -/
  repeatDefault : Nat
  /-- `ADDR7`: the 7-bit peripheral address. -/
  addr7 : BitVec 7
  /-- `PREAMBLE[0..PREAMBLE_LEN-1]`, in index order. -/
  preamble : List Byte
  /-- `FRAME_LEN`: the number of frame-buffer elements. -/
  frameLen : Nat
  /-- `EXACT_TIMING`: every delay lasts exactly its nominal length and a line operation takes no time. -/
  exactTiming : Bool
  deriving DecidableEq, Repr

/-- This hardware's values, the table of R8. -/
def Cfg.thisHardware : Cfg where
  tUnit := 20
  tGap := 33
  tPush := 2000
  repeatDefault := 8
  addr7 := 0x3C#7
  preamble := [0x3F#8, 0x48#8, 0x53#8, 0x6C#8, 0x87#8, 0x98#8, 0xC0#8, 0xE0#8]
  frameLen := 145
  exactTiming := false

/-- FREE VALUE (R107, I5, notes/assumptions/4): how much longer than its nominal length the delay with this draw
number lasts, in microseconds. Without a body: nothing can evaluate it. -/
opaque Config.extraDelay : Nat → Nat

/-- FREE VALUE (R108, I7, notes/assumptions/4): the time the line operation with this draw number takes. -/
opaque Config.lineLatency : Nat → Nat

/-- FREE VALUE (R105, I6, notes/assumptions/3): whether the peripheral pulls DATA low at the sample with this
number, where the state scripts no answer for it. -/
opaque Config.peripheralPullsData : Nat → Bool

/-- FREE VALUE (R165, I8, notes/assumptions/6): the `STATUS.ACK` that `PUSHF` leaves. -/
opaque Config.ackAfterPush : Nat → Bool

/-- FREE VALUE (R165, I8, notes/assumptions/6): the `STATUS.OK` that `PUSHF` leaves. -/
opaque Config.okAfterPush : Nat → Bool

/-- FREE VALUE (R230 item 5, I9, notes/assumptions/5): the `SHIFT` that a reset input leaves. -/
opaque Config.shiftAfterReset : Nat → Byte

/-- FREE VALUE (R230 item 5, I9, notes/assumptions/5): the `BITCNT` that a reset input leaves. -/
opaque Config.bitcntAfterReset : Nat → Fin 9

end Sys2Proof
end

