-- ==== Sys2Proof/Machine/State.lean ====
section
/-! DEFINITION. The state of the block (spec/10_state.md R20 to R34), plain data, and the state after reset (R33).
The fields after `bitcnt` are the model's own: the configuration, what the host does next, what the peripheral
answers next, and the counters that number the free values (notes/assumptions/1 to 5). -/

namespace Sys2Proof.Machine

/-- The frame buffer as (index, element) pairs in one canonical form: indices strictly rising, below the frame
length, and no element equal to 0, which is what an unlisted index reads as (spec/20_memory.md R50
"zero-initialized"). The operations are in Ops.lean. -/
abbrev Memory := List Host.Cell

/-- The three delays of R109: `T_UNIT`, `T_GAP`, `T_PUSH`. -/
inductive DelaySel where
  | unit
  | gap
  | push
  deriving DecidableEq, Repr

/-- The payload of a transaction (spec/41_byte_transfer.md R134): a list of bytes, or the frame buffer, whose
element `j` is read when byte `j` begins (R136). -/
inductive Payload where
  | bytes (bs : List Byte)
  | frame
  deriving DecidableEq, Repr

/-- One line of the pseudocode of spec/40 to 43 that the sequencer still has to do. The first five are the STEPS:
each drives a line, samples DATA or waits, and appends one event. The rest take no time and append nothing: an
assignment, or a call that stands for the lines of the function it names. The loop counters of R31 are the
arguments `j`, `i`, `k`. What each does is in Ops.lean. -/
inductive Task where
  /-- `drive(l, v)` (R100). -/
  | drive (l : Line) (v : Driver)
  /-- `drive(DATA, SHIFT[7] == 1 ? REL : LOW)` (R130, R132). -/
  | driveBit
  /-- `wait(T)` (R107). -/
  | wait (d : DelaySel)
  /-- `b <- sample(); STATUS.RDATA <- b` (R106). -/
  | sampleRdata
  /-- `b <- sample(); ack <- (b == 0); STATUS.ACK <- ack` (R131). -/
  | sampleAck
  /-- `SHIFT <- v; BITCNT <- 0` (R132). -/
  | load (v : Byte)
  /-- `while BITCNT < 8` and its body (R132). -/
  | bits
  /-- `SHIFT <- (SHIFT << 1)[7:0]; BITCNT <- BITCNT + 1` (R132). -/
  | shiftLeft
  /-- The lines of `START` (R110). -/
  | start
  /-- The lines of `STOP` (R111). -/
  | stop
  /-- `bitCycle(SHIFT[7])` (R130). -/
  | bitCycle
  /-- `ackCycle()` (R131). -/
  | ackCycle
  /-- `writeByte(v)` (R132). -/
  | writeByte (v : Byte)
  /-- `writeTransaction(a, p)` (R134). -/
  | transaction (a : Byte) (p : Payload)
  /-- What follows a byte of a transaction, with `j` the index of the next payload byte (R134). -/
  | nextByte (p : Payload) (j : Nat)
  /-- `return ok` (R134). -/
  | ret (ok : Bool)
  /-- `STATUS.OK <- ok` (R135, R136, R160). -/
  | setOk
  /-- `sendFrame()` (R160). -/
  | sendFrame
  /-- The preamble loop of `sendFrame` at index `i`, and what follows the loop (R160). -/
  | preamble (i : Nat)
  /-- What follows preamble transaction `i` (R160). -/
  | nextPreamble (i : Nat)
  /-- The loop of `PUSHF n` at attempt `k` (R163). -/
  | attempt (k n : Nat)
  /-- What follows attempt `k` of `PUSHF n` (R163). -/
  | nextAttempt (k n : Nat)
  /-- `STATUS.ACK <- draw; STATUS.OK <- draw` (R163, R165). -/
  | drawResults
  /-- `for i in 0..FRAME_LEN-1: FB[i] <- 0x00` (R180). -/
  | clearFb
  /-- `MemWrite(index, 1, value)` (R181). -/
  | writeFb (index : Nat) (value : Byte)
  deriving DecidableEq, Repr

/-- The sequencer's position inside the accepted command, `Running(cmd, k)` of R30. -/
structure Running where
  /-- The accepted command. -/
  cmd : Instr
  /-- The index of the next step of the command: how many steps it has done. -/
  k : Nat
  /-- The result of the last function of the pseudocode that returned one (R131, R134). -/
  ret : Bool
  /-- What the command still has to do, first line first. -/
  todo : List Task
  deriving DecidableEq, Repr

/-- The sequencer (R30): idle, or inside a command. -/
inductive Seq where
  | idle
  | running (r : Running)
  deriving DecidableEq, Repr

/-- An event of the trace (R24). A sampled bit is `true` for 1 (high) and `false` for 0 (low). -/
inductive Event where
  /-- `Drive(t, L, v)`. -/
  | drive (t : Nat) (l : Line) (v : Driver)
  /-- `Sample(t, b)`. -/
  | sample (t : Nat) (b : Bool)
  /-- `Wait(t0, t1, T)`. -/
  | wait (t0 t1 nominal : Nat)
  deriving DecidableEq, Repr

/-- What the outside world does to the block (spec/60_exceptions.md R214, spec/70_reset_and_hazards.md R230). -/
inductive HostAct where
  /-- A write of a word to CMD. -/
  | write (w : CmdWord)
  /-- The reset input. -/
  | reset
  /-- A read of STATUS. -/
  | readStatus
  deriving DecidableEq, Repr

/-- The next thing that happens at the block's inputs. While a command runs it lands before the first step whose
index is `after` or more; while the block is idle it lands at once (notes/assumptions/2). -/
structure HostInput where
  after : Nat
  act : HostAct
  deriving DecidableEq, Repr

/-- The machine stops with a fault: never. The spec gives the block no stop: its two interface faults set a sticky
STATUS bit and the block goes on (spec/60_exceptions.md R200, R202, R207), and that is a next state. So there is no
constructor, and nobody raises one (safe: nothing is left out of a run). -/
inductive Fault where
  deriving DecidableEq, Repr

/-- The model refuses. -/
inductive Refusal where
  /-- Raised by no arm of `exec` and no meaning: every command of the opcode table is modelled. It is the name
  that an arm of Dispatch.lean without a meaning would answer with (safe: a refused run proves nothing). -/
  | notModelled (mnemonic : String)
  deriving DecidableEq, Repr

/-- The state of the block (R20). -/
structure State where
  /-- The parameters of R8, which no step changes (notes/assumptions/1). -/
  cfg : Cfg
  /-- The master driver of CLOCK (R21). -/
  drvC : Driver
  /-- The master driver of DATA (R21). -/
  drvD : Driver
  /-- Time in microseconds (R26). -/
  now : Nat
  /-- The observable wire history, oldest event first (R24). -/
  trace : List Event
  /-- STATUS (R27): its bits are read and written by Flags.lean. -/
  status : Byte
  /-- The frame buffer (R50). -/
  fb : Memory
  /-- The sequencer (R30). -/
  seq : Seq
  /-- The serializer's shift register (R29). -/
  shift : Byte
  /-- The serializer's bit counter, 0 to 8 (R29). -/
  bitcnt : Fin 9
  /-- What the host does next, first thing first (R214). -/
  inputs : List HostInput
  /-- Every value the host has read from STATUS, oldest first (R214). -/
  hostReads : List Byte
  /-- What the peripheral's DATA driver does at the samples to come, where this state scripts it (R23, R105). -/
  peripheral : List Driver
  /-- How many samples have been taken; it numbers the draws of the peripheral oracle. -/
  samples : Nat
  /-- The number of the next free value (notes/assumptions/4 to 6). -/
  draws : Nat
  deriving DecidableEq, Repr

/-- The machine right after reset, the table of R33. `shift` and `bitcnt` are values the model names, since the
spec gives none (notes/assumptions/5), and so are the model's own fields. -/
def State.reset : State where
  cfg := Cfg.thisHardware
  drvC := .rel
  drvD := .rel
  now := 0
  trace := []
  status := 0x00
  fb := []
  seq := .idle
  shift := 0x00
  bitcnt := 0
  inputs := []
  hostReads := []
  peripheral := []
  samples := 0
  draws := 0

end Sys2Proof.Machine
end

