-- ==== Sys2Proof/Machine/Flags.lean ====
section
/-! DEFINITION. The STATUS register's bits (spec/10_state.md R27). -/

namespace Sys2Proof.Machine

/-- The named bits of STATUS. Bits 7:6 are reserved and read as 0: nothing writes them. -/
inductive StatusBit where
  | busy
  | ack
  | ok
  | rdata
  | fIllegal
  | fBusy
  deriving DecidableEq, Repr

/-- Where a bit of STATUS stands (R27). -/
def statusPos : StatusBit → Nat
  | .busy => 0
  | .ack => 1
  | .ok => 2
  | .rdata => 3
  | .fIllegal => 4
  | .fBusy => 5

/-- One bit of a STATUS value. -/
def statusGet (w : Byte) (f : StatusBit) : Bool := w.getLsbD (statusPos f)

/-- A STATUS value with one bit set to `b`, the others unchanged. -/
def statusPut (w : Byte) (f : StatusBit) (b : Bool) : Byte :=
  if b then w ||| (1#8 <<< statusPos f) else w &&& ~~~(1#8 <<< statusPos f)

/-- A bit of the STATUS register. -/
def State.flag (s : State) (f : StatusBit) : Bool := statusGet s.status f

/-- The state with a bit of STATUS set to `b`. -/
def State.setFlag (s : State) (f : StatusBit) (b : Bool) : State :=
  { s with status := statusPut s.status f b }

/-- The host's read of STATUS, bit 7 down to bit 0 (R27, R214). -/
def readStatus (s : State) : Byte := s.status

/-- An acknowledge "is true when the sampled level is low" (R57, spec/41_byte_transfer.md R131). -/
def ackOfSample (b : Bool) : Bool := !b

end Sys2Proof.Machine
end

