-- ==== Sys2Proof/Machine/Operands.lean ====
section
/-! DEFINITION. What the operands of a command stand for: delay lengths, the address byte, payload bytes, and the
driver value that sends a bit. -/

namespace Sys2Proof.Machine

/-- The nominal length of a delay, in microseconds (spec/40_bus_primitives.md R109). -/
def delayLength (c : Cfg) : DelaySel → Nat
  | .unit => c.tUnit
  | .gap => c.tGap
  | .push => c.tPush

/-- `ADDR_BYTE = {ADDR7, 0}`: the 7-bit address shifted left one, with write direction bit 0
(spec/30_encoding.md R76). -/
def addrByte (c : Cfg) : Byte := c.addr7.zeroExtend 8 <<< 1

/-- The driver value that sends a bit: 1 by releasing DATA and 0 by driving it low (spec/20_memory.md R57). -/
def driverOfBit (x : Bool) : Driver := if x then .rel else .low

/-- The level of a line from the drivers of the master and the peripheral: 0 (`false`) if either pulls it low,
else 1 (spec/10_state.md R25). -/
def level (master peripheral : Driver) : Bool := !(master == .low || peripheral == .low)

/-- The element of the frame buffer at an index; an unlisted index reads as 0 (R50, R51). -/
def Memory.read : Memory → Nat → Byte
  | [], _ => 0#8
  | (b, w) :: m, a => if a = b then w else Memory.read m a

/-- How many bytes a payload has (spec/41_byte_transfer.md R134, R136). -/
def payloadLength (c : Cfg) : Payload → Nat
  | .bytes bs => bs.length
  | .frame => c.frameLen

/-- Payload byte `j`, for `j` below the payload's length (R134, R136, spec/20_memory.md R58). -/
def payloadByte (s : State) (p : Payload) (j : Nat) : Byte :=
  match p with
  | .bytes bs => bs.getD j 0#8
  | .frame => Memory.read s.fb j

/-- Preamble byte `i`, for `i` below `PREAMBLE_LEN` (spec/42_frame_protocol.md R167). -/
def preambleByte (c : Cfg) (i : Nat) : Byte := c.preamble.getD i 0#8

end Sys2Proof.Machine
end

