-- ==== Sys2Proof/Machine/Ops.lean ====
section
/-! DEFINITION. The operations that every command shares: the frame buffer, the bus primitives of
spec/40_bus_primitives.md section 1, the interface faults of spec/60_exceptions.md section 2, reset, and the
sequencer that runs a command's pseudocode line by line (R12, R30, R112). -/

namespace Sys2Proof.Machine

/-! ### The frame buffer (spec/20_memory.md R50 to R55) -/

/-- Write one element, keeping the canonical form: a 0 is not listed. -/
def Memory.write : Memory → Nat → Byte → Memory
  | [], a, v => if v = 0#8 then [] else [(a, v)]
  | (b, w) :: m, a, v =>
    if a < b then (if v = 0#8 then (b, w) :: m else (a, v) :: (b, w) :: m)
    else if a = b then (if v = 0#8 then m else (a, v) :: m)
    else (b, w) :: Memory.write m a v

/-- The entries are at rising indices from `lo` on and below `n`, and none is 0. -/
def Memory.wfFrom (lo n : Nat) : Memory → Bool
  | [] => true
  | (b, w) :: m => decide (lo ≤ b) && decide (b < n) && decide (w ≠ 0#8) && Memory.wfFrom (b + 1) n m

/-- The canonical form of a frame buffer of `n` elements. -/
def Memory.wf (n : Nat) (m : Memory) : Bool := Memory.wfFrom 0 n m

/-- `MemWrite(i, 1, v)`: no effect on an index of `FRAME_LEN` or more (R55). -/
def writeFb (index : Nat) (value : Byte) (s : State) : State :=
  if index < s.cfg.frameLen then { s with fb := Memory.write s.fb index value } else s

/-- Every element becomes 0 (spec/43_frame_buffer_port.md R180). -/
def clearFb (s : State) : State := { s with fb := [] }

/-! ### The bus primitives (spec/40_bus_primitives.md section 1) -/

/-- `latency()` (R108): the time a line operation takes, a free value, and 0 under `EXACT_TIMING`. -/
def latency (s : State) : State :=
  { s with now := s.now + (if s.cfg.exactTiming then 0 else Config.lineLatency s.draws), draws := s.draws + 1 }

/-- The driver of a line becomes `v`. -/
def setDriver (l : Line) (v : Driver) (s : State) : State :=
  match l with
  | .clock => { s with drvC := v }
  | .data => { s with drvD := v }

/-- Append an event to the trace (R24). -/
def record (e : Event) (s : State) : State := { s with trace := s.trace ++ [e] }

/-- `drive(L, v)` (R100). -/
def drive (l : Line) (v : Driver) (s : State) : State :=
  record (.drive (latency s).now l v) (setDriver l v (latency s))

/-- The time at which a delay that begins now ends: at least `T` later, and exactly `T` later under
`EXACT_TIMING` (R107). -/
def waitEnd (d : DelaySel) (s : State) : Nat :=
  s.now + delayLength s.cfg d + (if s.cfg.exactTiming then 0 else Config.extraDelay s.draws)

/-- `wait(T)` (R107). -/
def waitFor (d : DelaySel) (s : State) : State :=
  record (.wait s.now (waitEnd d s) (delayLength s.cfg d)) { s with now := waitEnd d s, draws := s.draws + 1 }

/-- What the peripheral's DATA driver does at the sample `i` samples from now: as the state scripts it, else a
draw of the oracle (R23, R105, R213). -/
def peripheralAt (s : State) (i : Nat) : Driver :=
  match s.peripheral[i]? with
  | some d => d
  | none => if Config.peripheralPullsData (s.samples + i) then .low else .rel

/-- The bit that the sample `i` samples from now reads: the level of the released DATA line (R25, R105). -/
def sampledAt (s : State) (i : Nat) : Bool := level .rel (peripheralAt s i)

/-- The peripheral's answer to this sample is used up. -/
def takeAnswer (s : State) : State := { s with peripheral := s.peripheral.tail, samples := s.samples + 1 }

/-- The state that `sample()` leaves (R105): DATA is released, and the sample is recorded. -/
def sample (s : State) : State :=
  takeAnswer (record (.sample (latency s).now (sampledAt s 0)) (setDriver .data .rel (latency s)))

/-! ### The serializer's registers (spec/41_byte_transfer.md R132, R137) -/

/-- `SHIFT <- v; BITCNT <- 0`. -/
def loadByte (v : Byte) (s : State) : State := { s with shift := v, bitcnt := 0 }

/-- `SHIFT <- (SHIFT << 1)[7:0]; BITCNT <- BITCNT + 1`. The counter never wraps (R137). -/
def shiftLeft (s : State) : State :=
  { s with shift := s.shift <<< 1, bitcnt := if h : s.bitcnt.val < 8 then ⟨s.bitcnt.val + 1, by omega⟩ else s.bitcnt }

/-- The bit on its way out, `SHIFT[7]`. -/
def topBit (s : State) : Bool := s.shift.getLsbD 7

/-- `STATUS.ACK <- draw; STATUS.OK <- draw` (spec/42_frame_protocol.md R165): two free values. -/
def drawResults (s : State) : State :=
  { (s.setFlag .ack (Config.ackAfterPush s.draws)).setFlag .ok (Config.okAfterPush s.draws) with draws := s.draws + 1 }

/-! ### Faults and reset -/

/-- The two interface faults of the spec (spec/60_exceptions.md R205). -/
inductive FaultKind where
  | illegal
  | busy
  deriving DecidableEq, Repr

/-- The STATUS bit of a fault (R205). -/
def faultBit : FaultKind → StatusBit
  | .illegal => .fIllegal
  | .busy => .fBusy

/-- The cause code of a fault (R205). No register holds it. -/
def causeCode : FaultKind → Nat
  | .illegal => 1
  | .busy => 2

/-- `raise Fault(kind)` (R202): it sets the sticky STATUS bit and leaves every other piece of state unchanged. There
is no trap entry and no return from one (R207). -/
def raiseFault (kind : FaultKind) (s : State) : State := s.setFlag (faultBit kind) true

/-- The reset input (spec/70_reset_and_hazards.md R230): every element of R33's table takes its value, and `SHIFT`
and `BITCNT` are left unspecified, which are free values. The configuration, the inputs to come, what the host has
read and the peripheral are outside the block and stay. DESIGN CHOICE (notes/assumptions/21): the reset input is one
event that takes no time, so no host input falls inside it; the spec does not say how long it stays asserted, nor what
a CMD write or a STATUS read does meanwhile (R230, R234). -/
def resetBlock (s : State) : State :=
  { s with
    drvC := .rel, drvD := .rel, now := 0, trace := [], status := 0x00, fb := [], seq := .idle
    shift := Config.shiftAfterReset s.draws, bitcnt := Config.bitcntAfterReset s.draws, draws := s.draws + 1 }

/-! ### The sequencer (spec/10_state.md R30, spec/40_bus_primitives.md R112) -/

/-- The task is a step: it drives, samples or waits, and appends one event. -/
def Task.isStep : Task → Bool
  | .drive _ _ => true
  | .driveBit => true
  | .wait _ => true
  | .sampleRdata => true
  | .sampleAck => true
  | _ => false

/-- What a task does to the state, its calls apart, with `ret` the result of the function that returned last. It
never moves the sequencer. -/
def act (t : Task) (ret : Bool) (s : State) : State :=
  match t with
  | .drive l v => drive l v s
  | .driveBit => drive .data (driverOfBit (topBit s)) s
  | .wait d => waitFor d s
  | .sampleRdata => (sample s).setFlag .rdata (sampledAt s 0)
  | .sampleAck => (sample s).setFlag .ack (ackOfSample (sampledAt s 0))
  | .load v => loadByte v s
  | .shiftLeft => shiftLeft s
  | .setOk => s.setFlag .ok ret
  | .drawResults => drawResults s
  | .clearFb => clearFb s
  | .writeFb index value => writeFb index value s
  | _ => s

/-- The lines that a call stands for, with `ret` the result of the function that returned last: the pseudocode of
spec/40 to 43, line for line. -/
def expand (t : Task) (ret : Bool) (s : State) : List Task :=
  match t with
  -- R110
  | .start => [.drive .data .rel, .drive .clock .rel, .wait .unit, .drive .data .low, .wait .unit,
      .drive .clock .low, .wait .unit]
  -- R111
  | .stop => [.drive .data .low, .wait .unit, .drive .clock .rel, .wait .unit, .drive .data .rel, .wait .unit]
  -- R130
  | .bitCycle => [.driveBit, .wait .unit, .drive .clock .rel, .wait .unit, .drive .clock .low, .wait .unit]
  -- R131
  | .ackCycle => [.drive .data .rel, .wait .unit, .drive .clock .rel, .wait .unit, .sampleAck,
      .drive .clock .low, .wait .unit]
  -- R132
  | .bits => if s.bitcnt.val < 8 then [.bitCycle, .shiftLeft, .bits] else []
  | .writeByte v => [.load v, .bits, .ackCycle]
  -- R134
  | .transaction a p => [.start, .writeByte a, .nextByte p 0]
  | .nextByte p j =>
    if ret then
      if j < payloadLength s.cfg p then [.writeByte (payloadByte s p j), .nextByte p (j + 1)]
      else [.stop, .ret true]
    else [.stop, .ret false]
  -- R160
  | .sendFrame => [.preamble 0]
  | .preamble i =>
    if i < s.cfg.preamble.length then
      [.transaction (addrByte s.cfg) (.bytes [preambleByte s.cfg i]), .nextPreamble i]
    else [.wait .gap, .transaction (addrByte s.cfg) .frame]
  | .nextPreamble i => if ret then [.wait .unit, .preamble (i + 1)] else []
  -- R163
  | .attempt k n => if k ≤ n then [.sendFrame, .nextAttempt k n] else []
  | .nextAttempt k n => if k < n then [.wait .push, .attempt (k + 1) n] else [.attempt (k + 1) n]
  | _ => []

/-- The result held after a task: a `return` and an acknowledge cycle set it (R131, R134). -/
def retAfter (t : Task) (ret : Bool) (s : State) : Bool :=
  match t with
  | .sampleAck => ackOfSample (sampledAt s 0)
  | .ret ok => ok
  | _ => ret

/-- The state with the sequencer at `q`. -/
def withSeq (q : Seq) (s : State) : State := { s with seq := q }

/-- Acceptance of a command: `seq <- Running(op, 0)` and `STATUS.BUSY <- 1` (R112 item 3). -/
def accept (i : Instr) (todo : List Task) (s : State) : State :=
  withSeq (.running { cmd := i, k := 0, ret := false, todo := todo }) (s.setFlag .busy true)

/-- The end of a command: `seq <- Idle` and `STATUS.BUSY <- 0` (R112 item 5). DESIGN CHOICE (notes/assumptions/20):
`SHIFT` and `BITCNT` keep the values that the command left (after a byte 0x00 and 8, R132) into the idle state, where
I9 gives them any value. -/
def complete (s : State) : State := withSeq .idle (s.setFlag .busy false)

/-- The sequencer does the next line of the running command (R30). -/
def seqStep (s : State) : State :=
  match s.seq with
  | .idle => s
  | .running r =>
    match r.todo with
    | [] => complete s
    | t :: rest =>
      withSeq
        (.running
          { r with
            k := if t.isStep then r.k + 1 else r.k
            ret := retAfter t r.ret s
            todo := expand t r.ret s ++ rest })
        (act t r.ret s)

/-- The next line of the running command is a step. -/
def stepIsNext (r : Running) : Bool :=
  match r.todo with
  | [] => false
  | t :: _ => t.isStep

/-- A host input lands now: at once while the block is idle, and while a command runs just before a step whose
index is the input's `after` or more (R63, R112, notes/assumptions/2). -/
def lands (s : State) (x : HostInput) : Bool :=
  match s.seq with
  | .idle => true
  | .running r => stepIsNext r && decide (x.after ≤ r.k)

/-- The sequencer stops here: the command has ended, or the next host input lands now. -/
def pauses (s : State) : Bool :=
  match s.seq with
  | .idle => true
  | .running _ =>
    match s.inputs with
    | [] => false
    | x :: _ => lands s x

/-- Up to `n` lines of the running command, stopping where the sequencer stops. -/
def runLines : Nat → State → State
  | 0, s => s
  | n + 1, s => if pauses s then s else runLines n (seqStep s)

/-- How often a command sends the frame sequence, at most. -/
def attempts : Instr → Nat
  | .pushf n => n
  | _ => 1

/-- More lines than a command of this configuration has, calls counted (notes/assumptions/7): 84 for a payload
byte, 188 for a preamble transaction and its delay. -/
def lineBound (c : Cfg) (i : Instr) : Nat :=
  (attempts i + 1) * (188 * c.preamble.length + 84 * c.frameLen + 400)

/-- The running command goes on until it ends or the next host input lands (R112 item 4, R247). Nothing happens
while the block is idle (R231). -/
def resume (s : State) : State :=
  match s.seq with
  | .idle => s
  | .running r => runLines (lineBound s.cfg r.cmd) s

/-- A command that the host issues, with the lines of its pseudocode: refused with `F_BUSY` while a command runs
(R204), else accepted and run (R112). -/
def issue (i : Instr) (todo : List Task) (s : State) : Host.Outcome State Fault Refusal :=
  .next (if s.flag .busy then raiseFault .busy s else resume (accept i todo s))

end Sys2Proof.Machine
end

