-- ==== Sys2Proof/Machine/BusPrimitives.lean ====
section
/-! DEFINITION. The commands of the bus primitive layer (spec/40_bus_primitives.md section 2). Each meaning lists the
lines of its rule's pseudocode; the STATUS bit BUSY, the refusal while busy and the time are `issue`'s (R112). No
command checks the state of the lines (R113). -/

namespace Sys2Proof.Machine

/-- `LOWC` (R101). -/
def execLowc (s : State) : Host.Outcome State Fault Refusal := issue .lowc [.drive .clock .low] s

/-- `RELC` (R102). -/
def execRelc (s : State) : Host.Outcome State Fault Refusal := issue .relc [.drive .clock .rel] s

/-- `LOWD` (R103). -/
def execLowd (s : State) : Host.Outcome State Fault Refusal := issue .lowd [.drive .data .low] s

/-- `RELD` (R104). -/
def execReld (s : State) : Host.Outcome State Fault Refusal := issue .reld [.drive .data .rel] s

/-- `READD` (R106). -/
def execReadd (s : State) : Host.Outcome State Fault Refusal := issue .readd [.sampleRdata] s

/-- `DELAY UNIT` (R109). -/
def execDelayUnit (s : State) : Host.Outcome State Fault Refusal := issue .delayUnit [.wait .unit] s

/-- `DELAY GAP` (R109). -/
def execDelayGap (s : State) : Host.Outcome State Fault Refusal := issue .delayGap [.wait .gap] s

/-- `DELAY PUSH` (R109). -/
def execDelayPush (s : State) : Host.Outcome State Fault Refusal := issue .delayPush [.wait .push] s

/-- `START` (R110). -/
def execStart (s : State) : Host.Outcome State Fault Refusal := issue .start [.start] s

/-- `STOP` (R111). -/
def execStop (s : State) : Host.Outcome State Fault Refusal := issue .stop [.stop] s

end Sys2Proof.Machine
end

