-- ==== Sys2Proof/Machine/ByteTransfer.lean ====
section
/-! DEFINITION. The commands of the byte transfer layer (spec/41_byte_transfer.md section 2). -/

namespace Sys2Proof.Machine

/-- `WRBYTE value` (R133): it does not write `STATUS.OK`. -/
def execWrbyte (value : Byte) (s : State) : Host.Outcome State Fault Refusal :=
  issue (.wrbyte value) [.writeByte value] s

/-- `WRTXN1 addrByte, data` (R135). -/
def execWrtxn1 (addrByte data : Byte) (s : State) : Host.Outcome State Fault Refusal :=
  issue (.wrtxn1 addrByte data) [.transaction addrByte (.bytes [data]), .setOk] s

/-- `WRTXNF addrByte` (R136). -/
def execWrtxnf (addrByte : Byte) (s : State) : Host.Outcome State Fault Refusal :=
  issue (.wrtxnf addrByte) [.transaction addrByte .frame, .setOk] s

end Sys2Proof.Machine
end

