-- ==== Sys2Proof/Machine/FrameBufferPort.lean ====
section
/-! DEFINITION. The commands of the frame buffer port (spec/43_frame_buffer_port.md). They take no time, drive no
line and append no event. -/

namespace Sys2Proof.Machine

/-- `FBCLR` (R180). -/
def execFbclr (s : State) : Host.Outcome State Fault Refusal := issue .fbclr [.clearFb] s

/-- `FBWR index, value` (R181): an index of `FRAME_LEN` or more is silently ignored. -/
def execFbwr (index : Nat) (value : Byte) (s : State) : Host.Outcome State Fault Refusal :=
  issue (.fbwr index value) [.writeFb index value] s

end Sys2Proof.Machine
end

