-- ==== Sys2Proof/Machine/FrameProtocol.lean ====
section
/-! DEFINITION. The commands of the frame protocol layer (spec/42_frame_protocol.md). -/

namespace Sys2Proof.Machine

/-- `SENDF` (R160). -/
def execSendf (s : State) : Host.Outcome State Fault Refusal := issue .sendf [.sendFrame, .setOk] s

/-- `PUSHF n` (R163): the attempts, whose results nobody reads (R164), then the two draws (R165). -/
def execPushf (n : Nat) (s : State) : Host.Outcome State Fault Refusal :=
  issue (.pushf n) [.attempt 1 n, .drawResults] s

end Sys2Proof.Machine
end

