-- ==== Sys2Proof/Machine/Dispatch.lean ====
section
/-! DEFINITION. The command dispatch: one arm per constructor of `Instr`. -/

namespace Sys2Proof.Machine

def exec (i : Instr) (s : State) : Host.Outcome State Fault Refusal :=
  match i with
  | .lowc => Sys2Proof.Machine.execLowc s
  | .relc => Sys2Proof.Machine.execRelc s
  | .lowd => Sys2Proof.Machine.execLowd s
  | .reld => Sys2Proof.Machine.execReld s
  | .readd => Sys2Proof.Machine.execReadd s
  | .delayUnit => Sys2Proof.Machine.execDelayUnit s
  | .delayGap => Sys2Proof.Machine.execDelayGap s
  | .delayPush => Sys2Proof.Machine.execDelayPush s
  | .start => Sys2Proof.Machine.execStart s
  | .stop => Sys2Proof.Machine.execStop s
  | .wrbyte value => Sys2Proof.Machine.execWrbyte value s
  | .wrtxn1 addrByte data => Sys2Proof.Machine.execWrtxn1 addrByte data s
  | .wrtxnf addrByte => Sys2Proof.Machine.execWrtxnf addrByte s
  | .sendf => Sys2Proof.Machine.execSendf s
  | .pushf n => Sys2Proof.Machine.execPushf n s
  | .fbclr => Sys2Proof.Machine.execFbclr s
  | .fbwr index value => Sys2Proof.Machine.execFbwr index value s

end Sys2Proof.Machine
end

