-- ==== Sys2Proof/Machine/HostPort.lean ====
section
/-! DEFINITION. The host interface: CMD writes, STATUS reads and the reset input (spec/60_exceptions.md R214). -/

namespace Sys2Proof.Machine

/-- A host write to CMD (R112, R206): the BUSY check comes first, and only a word written while idle is decoded. -/
def writeCmd (w : CmdWord) (s : State) : Host.Outcome State Fault Refusal :=
  if s.flag .busy then .next (raiseFault .busy s)
  else
    match decode w with
    | .error _ => .next (raiseFault .illegal s)
    | .ok i => exec i s

/-- A host read of STATUS (R214): it changes nothing in the block. -/
def hostReadStatus (s : State) : State := { s with hostReads := s.hostReads ++ [readStatus s] }

/-- What a host action does when it lands. -/
def deliver (a : HostAct) (s : State) : Host.Outcome State Fault Refusal :=
  match a with
  | .write w => writeCmd w s
  | .reset => .next (resetBlock s)
  | .readStatus => .next (hostReadStatus s)

/-- The word at the head of the inputs of an idle block. -/
def presentWord (w : CmdWord) (s : State) : State :=
  { complete s with inputs := { after := 0, act := .write w } :: s.inputs }

end Sys2Proof.Machine
end

