-- ==== Sys2Proof/Machine/Step.lean ====
section
/-! DEFINITION. One step of the machine: the next host input lands, or the running command goes on. -/

namespace Sys2Proof.Machine

/-- One step. A host input that lands is delivered, and a legal command word runs its command at once, up to its
end or to the point where the next input lands (R112). Otherwise the running command goes on from where it stood;
an idle block with nothing at its inputs waits (R231). -/
def step (s : State) : Host.Outcome State Fault Refusal :=
  match s.inputs with
  | [] => .next (resume s)
  | x :: rest => if lands s x then deliver x.act { s with inputs := rest } else .next (resume s)

/-- The state with a command word at the head of the inputs of an idle block, so that the next step reads it from
CMD and runs it (notes/assumptions/8). -/
def State.withFetchWord (s : State) (nbits w : Nat) : State := presentWord (BitVec.ofNat 24 (w % 2 ^ nbits)) s

end Sys2Proof.Machine
end

