-- ==== Sys2Proof/Machine/Assembler.lean ====
section
/-! DEFINITION. The assembler syntax of spec/30_encoding.md R74 and the pseudo-instructions of R75. A line is a list
of characters: a mnemonic, then operands separated by commas. -/

namespace Sys2Proof.Machine

/-- The spelling that a line uses: a mnemonic of R71, or the pseudo-instruction `SETD`. -/
inductive Mnemonic where
  | lowc | relc | lowd | reld | readd | delay | start | stop | wrbyte | wrtxn1 | wrtxnf | sendf | pushf | fbclr
  | fbwr | setd
  deriving DecidableEq, Repr

/-- The spellings of R71 and R75. -/
def mnemonicTable : List (List Char × Mnemonic) :=
  [(['L', 'O', 'W', 'C'], .lowc), (['R', 'E', 'L', 'C'], .relc), (['L', 'O', 'W', 'D'], .lowd),
   (['R', 'E', 'L', 'D'], .reld), (['R', 'E', 'A', 'D', 'D'], .readd), (['D', 'E', 'L', 'A', 'Y'], .delay),
   (['S', 'T', 'A', 'R', 'T'], .start), (['S', 'T', 'O', 'P'], .stop)] ++
  [(['W', 'R', 'B', 'Y', 'T', 'E'], .wrbyte), (['W', 'R', 'T', 'X', 'N', '1'], .wrtxn1),
   (['W', 'R', 'T', 'X', 'N', 'F'], .wrtxnf), (['S', 'E', 'N', 'D', 'F'], .sendf),
   (['P', 'U', 'S', 'H', 'F'], .pushf), (['F', 'B', 'C', 'L', 'R'], .fbclr), (['F', 'B', 'W', 'R'], .fbwr),
   (['S', 'E', 'T', 'D'], .setd)]

/-- The names of `DELAY`'s selectors (R74). -/
def selectorTable : List (List Char × Nat) :=
  [(['U', 'N', 'I', 'T'], 0), (['G', 'A', 'P'], 1), (['P', 'U', 'S', 'H'], 2)]

/-- The value of a key in a table. -/
def lookUp {α : Type} (key : List Char) : List (List Char × α) → Option α
  | [] => none
  | (k, x) :: rest => if k = key then some x else lookUp key rest

/-- A digit of a number in base 10 or 16. -/
def digitValue (base : Nat) (ch : Char) : Option Nat :=
  let n := ch.toNat
  let v := if 48 ≤ n ∧ n ≤ 57 then n - 48 else if 65 ≤ n ∧ n ≤ 70 then n - 55
    else if 97 ≤ n ∧ n ≤ 102 then n - 87 else base
  if v < base then some v else none

/-- The digits of a number, `acc` being the value of those before. -/
def digitsValue (base : Nat) : Nat → List Char → Option Nat
  | acc, [] => some acc
  | acc, ch :: rest =>
    match digitValue base ch with
    | some d => digitsValue base (acc * base + d) rest
    | none => none

/-- A numeric literal, decimal or `0x` hex (R74). -/
def literalValue (cs : List Char) : Option Nat :=
  match cs with
  | [] => none
  | ['0', 'x'] => none
  | '0' :: 'x' :: ds => digitsValue 16 0 ds
  | ds => digitsValue 10 0 ds

/-- The characters without the blanks before and after them. -/
def trimBlanks (cs : List Char) : List Char :=
  ((cs.dropWhile (· == ' ')).reverse.dropWhile (· == ' ')).reverse

/-- The pieces between commas, without the blanks around them; `cur` is the piece so far, reversed. -/
def splitCommas : List Char → List Char → List (List Char)
  | cur, [] => [trimBlanks cur.reverse]
  | cur, ',' :: rest => trimBlanks cur.reverse :: splitCommas [] rest
  | cur, ch :: rest => splitCommas (ch :: cur) rest

/-- The operands of a line, as text. -/
def operandTexts (cs : List Char) : List (List Char) := if trimBlanks cs = [] then [] else splitCommas [] cs

/-- One operand: a name of `DELAY`'s selectors where `named`, else a number in 0 to 255 (R74). -/
def operandValue (named : Bool) (cs : List Char) : Option Nat :=
  match (if named then lookUp cs selectorTable else none) with
  | some v => some v
  | none =>
    match literalValue cs with
    | some v => if v < 256 then some v else none
    | none => none

/-- All operands, or none if one is in error. -/
def operandValues (named : Bool) : List (List Char) → Option (List Nat)
  | [] => some []
  | cs :: rest =>
    match operandValue named cs, operandValues named rest with
    | some v, some vs => some (v :: vs)
    | _, _ => none

/-- The command of a mnemonic with its operands, pseudo-instructions expanded (R74, R75). -/
def assemble (c : Cfg) (m : Mnemonic) (ops : List Nat) : Option Instr :=
  match m, ops with
  | .lowc, [] => some .lowc
  | .relc, [] => some .relc
  | .lowd, [] => some .lowd
  | .reld, [] => some .reld
  | .readd, [] => some .readd
  | .delay, [0] => some .delayUnit
  | .delay, [1] => some .delayGap
  | .delay, [2] => some .delayPush
  | .start, [] => some .start
  | .stop, [] => some .stop
  | .wrbyte, [v] => some (.wrbyte (BitVec.ofNat 8 v))
  | .wrtxn1, [a, d] => some (.wrtxn1 (BitVec.ofNat 8 a) (BitVec.ofNat 8 d))
  | .wrtxn1, [d] => some (.wrtxn1 (addrByte c) (BitVec.ofNat 8 d))
  | .wrtxnf, [a] => some (.wrtxnf (BitVec.ofNat 8 a))
  | .wrtxnf, [] => some (.wrtxnf (addrByte c))
  | .sendf, [] => some .sendf
  | .pushf, [n] => some (.pushf n)
  | .pushf, [] => some (.pushf c.repeatDefault)
  | .fbclr, [] => some .fbclr
  | .fbwr, [i, v] => some (.fbwr i (BitVec.ofNat 8 v))
  | .setd, [1] => some .reld
  | .setd, [0] => some .lowd
  | _, _ => none

/-- The command that a line spells, or none for an assembly error (R74). -/
def assembleLine (c : Cfg) (line : List Char) : Option Instr :=
  match lookUp (line.takeWhile (· != ' ')) mnemonicTable with
  | none => none
  | some m =>
    match operandValues (m == .delay) (operandTexts (line.dropWhile (· != ' '))) with
    | none => none
    | some ops => assemble c m ops

end Sys2Proof.Machine
end

