-- ==== Sys2Proof/Machine/Pseudocode.lean ====
section
/-! DEFINITION. The functions of spec/40 to 43 written directly, each calling the ones it names (spec/00_scope.md
R12): the clear form that statements use. The machine itself runs the same lines one by one (Ops.lean, `expand`),
so that a host input can land between two steps; Laws/Sequencer.lean shows that an undisturbed run of the machine is
the function. They are irreducible, so that no proof unfolds one by accident: `rw` with the
function's name does. -/

namespace Sys2Proof.Machine

/-- `start()` (spec/40_bus_primitives.md R110). -/
@[irreducible] def startCond (s : State) : State :=
  let s := drive .data .rel s
  let s := drive .clock .rel s
  let s := waitFor .unit s
  let s := drive .data .low s
  let s := waitFor .unit s
  let s := drive .clock .low s
  waitFor .unit s

/-- `stop()` (R111). -/
@[irreducible] def stopCond (s : State) : State :=
  let s := drive .data .low s
  let s := waitFor .unit s
  let s := drive .clock .rel s
  let s := waitFor .unit s
  let s := drive .data .rel s
  waitFor .unit s

/-- `bitCycle(x)` (spec/41_byte_transfer.md R130). -/
@[irreducible] def bitCycle (x : Bool) (s : State) : State :=
  let s := drive .data (driverOfBit x) s
  let s := waitFor .unit s
  let s := drive .clock .rel s
  let s := waitFor .unit s
  let s := drive .clock .low s
  waitFor .unit s

/-- `ackCycle()` up to its sample (R131). -/
@[irreducible] def beforeAck (s : State) : State :=
  let s := drive .data .rel s
  let s := waitFor .unit s
  let s := drive .clock .rel s
  waitFor .unit s

/-- `ackCycle()` (R131): the acknowledge and the state after it. -/
@[irreducible] def ackCycle (s : State) : Bool × State :=
  let s := beforeAck s
  let ack := ackOfSample (sampledAt s 0)
  let s := (sample s).setFlag .ack ack
  let s := drive .clock .low s
  (ack, waitFor .unit s)

/-- The loop of `writeByte`, at most `n` times round (R132). -/
@[irreducible] def sendBits : Nat → State → State
  | 0, s => s
  | n + 1, s => if s.bitcnt.val < 8 then sendBits n (shiftLeft (bitCycle (topBit s) s)) else s

/-- `writeByte(v)` (R132). -/
@[irreducible] def writeByte (v : Byte) (s : State) : Bool × State := ackCycle (sendBits 8 (loadByte v s))

/-- The bytes of a transaction, each sent if all before it were acknowledged, and the `STOP` that ends it either
way (R134). -/
@[irreducible] def sendBytes : List Byte → State → Bool × State
  | [], s => (true, stopCond s)
  | v :: vs, s => if (writeByte v s).1 then sendBytes vs (writeByte v s).2 else (false, stopCond (writeByte v s).2)

/-- `writeTransaction(a, p)` (R134): the address byte is the first byte. -/
@[irreducible] def writeTransaction (a : Byte) (p : List Byte) (s : State) : Bool × State := sendBytes (a :: p) (startCond s)

/-- `[FB[0], ..., FB[FRAME_LEN-1]]` (R136, spec/20_memory.md R58). -/
def frameBytes (s : State) : List Byte := (List.range s.cfg.frameLen).map (Memory.read s.fb)

/-- `sendFrame()` with these preamble bytes still to send (spec/42_frame_protocol.md R160). -/
@[irreducible] def sendPreamble : List Byte → State → Bool × State
  | [], s => writeTransaction (addrByte s.cfg) (frameBytes s) (waitFor .gap s)
  | v :: vs, s =>
    if (writeTransaction (addrByte s.cfg) [v] s).1 then
      sendPreamble vs (waitFor .unit (writeTransaction (addrByte s.cfg) [v] s).2)
    else (false, (writeTransaction (addrByte s.cfg) [v] s).2)

/-- `sendFrame()` (R160). -/
@[irreducible] def sendFrame (s : State) : Bool × State := sendPreamble s.cfg.preamble s

/-- `n` attempts, with the inter-repeat delay between two of them (R163). -/
@[irreducible] def pushAttempts : Nat → State → State
  | 0, s => s
  | n + 1, s => pushAttempts n (if n = 0 then (sendFrame s).2 else waitFor .push (sendFrame s).2)

/-- The state with `STATUS.OK` set to the result of a function (R135, R136, R160). -/
def storeOk (r : Bool × State) : State := r.2.setFlag .ok r.1

/-- The whole effect of a command on an idle block that no host input disturbs (R101 to R181). -/
def effect (i : Instr) (s : State) : State :=
  match i with
  | .lowc => drive .clock .low s
  | .relc => drive .clock .rel s
  | .lowd => drive .data .low s
  | .reld => drive .data .rel s
  | .readd => (sample s).setFlag .rdata (sampledAt s 0)
  | .delayUnit => waitFor .unit s
  | .delayGap => waitFor .gap s
  | .delayPush => waitFor .push s
  | .start => startCond s
  | .stop => stopCond s
  | .wrbyte value => (writeByte value s).2
  | .wrtxn1 addrByte data => storeOk (writeTransaction addrByte [data] s)
  | .wrtxnf addrByte => storeOk (writeTransaction addrByte (frameBytes s) s)
  | .sendf => storeOk (sendFrame s)
  | .pushf n => drawResults (pushAttempts n s)
  | .fbclr => clearFb s
  | .fbwr index value => writeFb index value s

end Sys2Proof.Machine
end

