-- ==== Sys2Proof/Machine/Wire.lean ====
section
/-! DEFINITION. What the trace puts on the wire (spec/30_encoding.md R77 to R81): START and STOP conditions, data
slots and acknowledge slots, read off the master's events as an observer of the two lines would. -/

namespace Sys2Proof.Machine

/-- What an observer of the master's drivers knows: the two drivers, and whether the time since CLOCK was last
released already showed a condition or a sample. -/
structure WireState where
  c : Driver
  d : Driver
  shown : Bool
  deriving DecidableEq, Repr

/-- The bus with both lines released and nothing under way. -/
def idleBus : WireState := { c := .rel, d := .rel, shown := true }

/-- What one clock pulse, or a change of DATA while CLOCK is released, means (R77, R78). -/
inductive Symbol where
  /-- DATA falls while CLOCK is released. -/
  | start
  /-- The master releases DATA while CLOCK is released. -/
  | stop
  /-- A clock pulse with DATA held: a data slot that carries this bit (R57). -/
  | bit (b : Bool)
  /-- A clock pulse with a sample in it: an acknowledge slot, in which the master read this bit. -/
  | ack (b : Bool)
  deriving DecidableEq, Repr

/-- The master's DATA driver becomes `v`: a condition if that is an edge while CLOCK is released (R77). -/
def wireData (w : WireState) (t : Nat) (v : Driver) : WireState × List (Nat × Symbol) :=
  match w.c, w.d, v with
  | .rel, .rel, .low => ({ w with d := .low, shown := true }, [(t, .start)])
  | .rel, .low, .rel => ({ w with d := .rel, shown := true }, [(t, .stop)])
  | _, _, v => ({ w with d := v }, [])

/-- The master's CLOCK driver becomes `v`: its fall ends a pulse, which is a data slot unless it showed something
else (R78). -/
def wireClock (w : WireState) (t : Nat) (v : Driver) : WireState × List (Nat × Symbol) :=
  match w.c, v with
  | .low, .rel => ({ w with c := .rel, shown := false }, [])
  | .rel, .low => ({ w with c := .low }, if w.shown then [] else [(t, .bit (w.d == .rel))])
  | _, _ => (w, [])

/-- What one event shows. A sample releases DATA first (spec/40_bus_primitives.md R105). -/
def wireEvent (w : WireState) (e : Event) : WireState × List (Nat × Symbol) :=
  match e with
  | .drive t .data v => wireData w t v
  | .drive t .clock v => wireClock w t v
  | .sample t b =>
    ({ (wireData w t .rel).1 with shown := true }, (wireData w t .rel).2 ++ [(t, .ack b)])
  | .wait _ _ _ => (w, [])

/-- The observer after these events. -/
def wireAfter : WireState → List Event → WireState
  | w, [] => w
  | w, e :: es => wireAfter (wireEvent w e).1 es

/-- What these events show, with the time of each symbol. -/
def wireSymbols : WireState → List Event → List (Nat × Symbol)
  | _, [] => []
  | w, e :: es => (wireEvent w e).2 ++ wireSymbols (wireEvent w e).1 es

/-- The same without the times. -/
def symbols (w : WireState) (es : List Event) : List Symbol := (wireSymbols w es).map Prod.snd

/-- The eight data slots of a byte, most significant bit first (spec/20_memory.md R56). -/
def byteSymbols (v : Byte) : List Symbol :=
  [.bit (v.getLsbD 7), .bit (v.getLsbD 6), .bit (v.getLsbD 5), .bit (v.getLsbD 4),
   .bit (v.getLsbD 3), .bit (v.getLsbD 2), .bit (v.getLsbD 1), .bit (v.getLsbD 0)]

/-- A byte with the bit its acknowledge slot read (R78). -/
def slotSymbols (x : Byte × Bool) : List Symbol := byteSymbols x.1 ++ [.ack x.2]

/-- A transaction on the wire: START, bytes each with its acknowledge slot, STOP (R79). -/
def transactionSymbols (xs : List (Byte × Bool)) : List Symbol :=
  [.start] ++ xs.flatMap slotSymbols ++ [.stop]

/-- The event releases CLOCK. -/
def releasesClock (e : Event) : Bool :=
  match e with
  | .drive _ .clock .rel => true
  | _ => false

/-- The symbol is a clock pulse inside a byte. -/
def isPulse (x : Symbol) : Bool :=
  match x with
  | .bit _ => true
  | .ack _ => true
  | _ => false

/-- The START and STOP conditions among some symbols, with their times. -/
def conditions (ys : List (Nat × Symbol)) : List (Nat × Symbol) := ys.filter (fun y => !isPulse y.2)

/-- The times from each STOP condition to the START condition that follows it (spec/42_frame_protocol.md R168), with
`since` the time of a STOP that no START has followed yet. -/
def busFreeTimes : Option Nat → List (Nat × Symbol) → List Nat
  | _, [] => []
  | _, (t, .stop) :: xs => busFreeTimes (some t) xs
  | some t0, (t, .start) :: xs => (t - t0) :: busFreeTimes none xs
  | since, _ :: xs => busFreeTimes since xs

/-! ### What the rules say is sent, for the peripheral's answers to come -/

/-- The bytes of a transaction that are sent from `s` on, each with the bit that its acknowledge slot reads, the
first of them at sample `i`: up to the first byte that is refused, or all (R79, spec/41_byte_transfer.md R134). -/
def sentBytes (s : State) : Nat → List Byte → List (Byte × Bool)
  | _, [] => []
  | i, v :: vs => (v, sampledAt s i) :: (if sampledAt s i then [] else sentBytes s (i + 1) vs)

/-- Every byte was acknowledged: its slot read low (R57). -/
def allTaken (xs : List (Byte × Bool)) : Bool := xs.all (fun x => !x.2)

/-- The transactions of a frame sequence from sample `i` on, with these preamble bytes still to send: one for each,
then the payload, ending with the first that is refused a byte (spec/42_frame_protocol.md R160, R162). -/
def frameTransactions (s : State) : Nat → List Byte → List (List (Byte × Bool))
  | i, [] => [sentBytes s i (addrByte s.cfg :: frameBytes s)]
  | i, v :: vs =>
    sentBytes s i [addrByte s.cfg, v] ::
      (if allTaken (sentBytes s i [addrByte s.cfg, v]) then frameTransactions s (i + 2) vs else [])

/-- How many bytes these transactions sent, which is how many samples they took. -/
def byteCount (xs : List (List (Byte × Bool))) : Nat := xs.flatten.length

/-- The transactions of `n` attempts of `PUSHF` from sample `i` on: the next attempt comes whatever the one before
it was answered (R163, R164). -/
def pushTransactions (s : State) : Nat → Nat → List (List (Byte × Bool))
  | 0, _ => []
  | n + 1, i =>
    frameTransactions s i s.cfg.preamble ++
      pushTransactions s n (i + byteCount (frameTransactions s i s.cfg.preamble))

/-- The `n` attempts of `PUSHF` from sample `i` on, each with its own transactions (R163, R164). -/
def attemptList (s : State) : Nat → Nat → List (List (List (Byte × Bool)))
  | 0, _ => []
  | n + 1, i =>
    frameTransactions s i s.cfg.preamble ::
      attemptList s n (i + byteCount (frameTransactions s i s.cfg.preamble))

/-- The bus-free times inside a frame sequence of `m` transactions, with `n` preamble bytes configured (R168). -/
def frameFreeTimes (c : Cfg) (n m : Nat) : List Nat :=
  if m ≤ n then List.replicate (m - 1) (3 * c.tUnit)
  else List.replicate (n - 1) (3 * c.tUnit) ++ [3 * c.tUnit + c.tGap]

end Sys2Proof.Machine
end

