-- ==== Sys2Proof/Safety.lean ====
section
/-! DEFINITION. The terms that claims use: a run without interface faults (spec/60_exceptions.md R202), an idle
block, a command that no host input disturbs, the peripheral's acknowledges, and the invariant of the machine. -/

namespace Sys2Proof.Machine

/-- No fault bit is set: the premise that R202 asks of a claim about a run without host misuse. -/
def noFaultBit (s : State) : Bool := !s.flag .fIllegal && !s.flag .fBusy

/-- The block is idle, and STATUS says so (R30). -/
def Idle (s : State) : Prop := s.seq = .idle ∧ s.flag .busy = false

/-- No pending host input lands within the next `n` steps of a command that starts now. -/
def Undisturbed (s : State) (n : Nat) : Prop := ∀ x ∈ s.inputs.head?, n ≤ x.after

/-- The most steps a transaction with `n` payload bytes takes (R139). -/
def transactionSteps (n : Nat) : Nat := 13 + 55 * (1 + n)

/-- The most steps a frame sequence takes (spec/42_frame_protocol.md R161). -/
def frameSteps (c : Cfg) : Nat := c.preamble.length * (transactionSteps 1 + 1) + 1 + transactionSteps c.frameLen

/-- The most steps a command takes: the events of spec/70_reset_and_hazards.md R249, all bytes acknowledged. -/
def maxSteps (c : Cfg) : Instr → Nat
  | .lowc => 1
  | .relc => 1
  | .lowd => 1
  | .reld => 1
  | .readd => 1
  | .delayUnit => 1
  | .delayGap => 1
  | .delayPush => 1
  | .start => 7
  | .stop => 6
  | .wrbyte _ => 55
  | .wrtxn1 _ _ => transactionSteps 1
  | .wrtxnf _ => transactionSteps c.frameLen
  | .sendf => frameSteps c
  | .pushf n => n * frameSteps c + (n - 1)
  | .fbclr => 0
  | .fbwr _ _ => 0

/-- The block is idle and the command `i`, issued now, runs to its end before another host input lands. -/
def ReadyFor (i : Instr) (s : State) : Prop := Idle s ∧ Undisturbed s (maxSteps s.cfg i)

/-- The peripheral acknowledges at each of the next `n` samples: the premise that spec/60_exceptions.md R213 asks
of a claim that needs acknowledges. -/
def AllAck (s : State) (n : Nat) : Prop := ∀ i < n, sampledAt s i = false

/-- The first not-acknowledged sample is the `k`-th from now, counted from 0. -/
def FirstNack (s : State) (k : Nat) : Prop := AllAck s k ∧ sampledAt s k = true

/-- The duration of a frame sequence with `n` preamble bytes, all acknowledged (spec/42_frame_protocol.md R161). -/
def frameTime (c : Cfg) (n : Nat) : Nat := 61 * n * c.tUnit + c.tGap + (33 + 27 * c.frameLen) * c.tUnit

/-- The samples of a frame sequence with `n` preamble bytes, all acknowledged. -/
def frameSamples (c : Cfg) (n : Nat) : Nat := 2 * n + (1 + c.frameLen)

/-- The duration of a frame sequence that sends the transactions `xs`, with `n` preamble bytes configured: six units
for the conditions of each transaction and 27 for each byte, a unit between two transactions, and the gap if it comes
to the payload (spec/42_frame_protocol.md R160, R162). -/
def attemptTime (c : Cfg) (n : Nat) (xs : List (List (Byte × Bool))) : Nat :=
  (6 * xs.length + 27 * byteCount xs + (xs.length - 1)) * c.tUnit + (if n < xs.length then c.tGap else 0)

/-- The events that such a frame sequence appends. -/
def attemptSteps (n : Nat) (xs : List (List (Byte × Bool))) : Nat :=
  13 * xs.length + 55 * byteCount xs + (xs.length - 1) + (if n < xs.length then 1 else 0)

/-- The duration column of spec/70_reset_and_hazards.md R249: exact under `EXACT_TIMING`, a minimum otherwise, all
bytes acknowledged. -/
def nominalTime (c : Cfg) : Instr → Nat
  | .lowc => 0
  | .relc => 0
  | .lowd => 0
  | .reld => 0
  | .readd => 0
  | .delayUnit => c.tUnit
  | .delayGap => c.tGap
  | .delayPush => c.tPush
  | .start => 3 * c.tUnit
  | .stop => 3 * c.tUnit
  | .wrbyte _ => 27 * c.tUnit
  | .wrtxn1 _ _ => 60 * c.tUnit
  | .wrtxnf _ => (33 + 27 * c.frameLen) * c.tUnit
  | .sendf => frameTime c c.preamble.length
  | .pushf n => n * frameTime c c.preamble.length + (n - 1) * c.tPush
  | .fbclr => 0
  | .fbwr _ _ => 0

/-- How many samples a command takes, all bytes acknowledged. -/
def sampleCount (c : Cfg) : Instr → Nat
  | .lowc => 0
  | .relc => 0
  | .lowd => 0
  | .reld => 0
  | .readd => 1
  | .delayUnit => 0
  | .delayGap => 0
  | .delayPush => 0
  | .start => 0
  | .stop => 0
  | .wrbyte _ => 1
  | .wrtxn1 _ _ => 2
  | .wrtxnf _ => 1 + c.frameLen
  | .sendf => frameSamples c c.preamble.length
  | .pushf n => n * frameSamples c c.preamble.length
  | .fbclr => 0
  | .fbwr _ _ => 0

/-- The parts of the state that a command can write. -/
inductive Part where
  | clockDriver
  | dataDriver
  | time
  | history
  | bit (f : StatusBit)
  | buffer
  | shifter
  | bitCounter
  | answers
  deriving DecidableEq, Repr

/-- A part of the state is unchanged; for the frame buffer, every element reads as before. -/
def PartSame (p : Part) (s t : State) : Prop :=
  match p with
  | .clockDriver => t.drvC = s.drvC
  | .dataDriver => t.drvD = s.drvD
  | .time => t.now = s.now
  | .history => t.trace = s.trace
  | .bit f => t.flag f = s.flag f
  | .buffer => ∀ a, Memory.read t.fb a = Memory.read s.fb a
  | .shifter => t.shift = s.shift
  | .bitCounter => t.bitcnt = s.bitcnt
  | .answers => t.peripheral = s.peripheral ∧ t.samples = s.samples

/-- THE FRAME: from `s` to `t` everything is unchanged except the parts `ps`, and except what the model's own fields
say of the sequencer's position and of the draws taken. The reserved bits of STATUS, the configuration and the host's
side are in no part, so they never change. -/
structure OnlyChanges (ps : List Part) (s t : State) : Prop where
  parts : ∀ p, p ∉ ps → PartSame p s t
  reserved : t.status.getLsbD 6 = s.status.getLsbD 6 ∧ t.status.getLsbD 7 = s.status.getLsbD 7
  cfg : t.cfg = s.cfg
  inputs : t.inputs = s.inputs
  hostReads : t.hostReads = s.hostReads

/-- A delay in the trace is one of the three, lasts at least its nominal length, and exactly that under
`EXACT_TIMING` (R24, R107). -/
def delayOk (c : Cfg) (t0 t1 nominal : Nat) : Bool :=
  decide (t0 + nominal ≤ t1) && (!c.exactTiming || decide (t1 = t0 + nominal)) &&
    (decide (nominal = c.tUnit) || decide (nominal = c.tGap) || decide (nominal = c.tPush))

/-- The time after the events of a trace, if each is at or after the end of the one before it (R24, R63 item 3). -/
def timeAfter (c : Cfg) : Nat → List Event → Option Nat
  | lo, [] => some lo
  | lo, .drive t _ _ :: es => if lo ≤ t then timeAfter c t es else none
  | lo, .sample t _ :: es => if lo ≤ t then timeAfter c t es else none
  | lo, .wait t0 t1 nominal :: es => if lo ≤ t0 ∧ delayOk c t0 t1 nominal then timeAfter c t1 es else none

/-- The trace is in order of time and has not run past `now` (R24). -/
def TraceInOrder (s : State) : Prop := ∃ t, timeAfter s.cfg 0 s.trace = some t ∧ t ≤ s.now

/-- The trace is the whole history of the two drivers since reset (R24): replayed, it gives their values. -/
def TraceTellsDrivers (s : State) : Prop :=
  (wireAfter idleBus s.trace).c = s.drvC ∧ (wireAfter idleBus s.trace).d = s.drvD

/-- `STATUS.BUSY = 1` exactly when the sequencer is running (R30). -/
def BusyTellsRunning (s : State) : Prop := s.flag .busy = true ↔ s.seq ≠ .idle

/-- The line writes the frame buffer. -/
def writesBuffer : Task → Bool
  | .clearFb => true
  | .writeFb _ _ => true
  | _ => false

/-- No line that a running command still has to do writes the frame buffer (spec/20_memory.md R52, R64). -/
def RunningLeavesBuffer (s : State) : Prop := ∀ r, s.seq = .running r → r.todo.any writesBuffer = false

/-- The reserved bits 7:6 of STATUS read as 0 (R27). -/
def ReservedBitsZero (s : State) : Prop := s.status.getLsbD 6 = false ∧ s.status.getLsbD 7 = false

/-- The invariant of the machine. -/
structure Inv (s : State) : Prop where
  /-- The frame buffer keeps its canonical form, with no element at `FRAME_LEN` or above. -/
  fbCanonical : Memory.wf s.cfg.frameLen s.fb = true
  busyTellsRunning : BusyTellsRunning s
  reservedBitsZero : ReservedBitsZero s
  traceInOrder : TraceInOrder s
  traceTellsDrivers : TraceTellsDrivers s

end Sys2Proof.Machine
end

