-- ==== Sys2Proof/Certificates/Slice0/Obligations.lean ====
section
/-! DEFINITION. The statements for the provers. Each docstring names the rule of spec/ that it formalises. `Idle`,
`ReadyFor`, `AllAck`, `FirstNack`, `OnlyChanges` and `Inv` are in Safety.lean; `sentBytes`, `frameTransactions` and
the wire's symbols are in Machine/Wire.lean. No statement rests on the value of a free value: where a time or a bit
is open, the statement says that there is one. Three choices of the model stand behind the statements: where a host
input lands (notes/assumptions/2), how a trace is read as symbols on the wire (notes/assumptions/19), and that SHIFT and
BITCNT stay as they are outside a byte, which the frames and every whole next state say (notes/assumptions/20). R77, R78,
R138, R139, R161, R162, R166, R168, R231, R244 and R249 are inferences that the spec marks as its own, "[derived: …]";
what rests on them has basis derived in OBLIGATIONS.json. -/

section Obligations

open Sys2Proof Sys2Proof.Machine

/-! ### The command word (spec/30_encoding.md) -/

/-- Decoding the word of a well-formed command gives the command back, with every operand at every value that its
field admits (R70, R71, R73). -/
def Obligations.DecodeOfEncode : Prop :=
  ∀ i : Instr, i.wellFormed = true → decode (encode i) = .ok i

/-- A legal word spells one command, which is well-formed and whose word it is: no bit of it is dropped (R70, R72,
R73). -/
def Obligations.EncodeOfDecode : Prop :=
  ∀ (w : CmdWord) (i : Instr), decode w = .ok i → i.wellFormed = true ∧ encode i = w

/-- R72 and R203: which words are illegal, in the numbers of their three fields, and that an illegal word written to
an idle block sets F_ILLEGAL (STATUS bit 4, cause code 1) and changes nothing else. -/
def Obligations.IllegalWordsOnlySetFIllegal : Prop :=
  faultBit .illegal = .fIllegal ∧ statusPos .fIllegal = 4 ∧ causeCode .illegal = 1 ∧
  (∀ (w : CmdWord) (op a b : Nat), op = w.toNat / 65536 → a = w.toNat / 256 % 256 → b = w.toNat % 256 →
    ((∃ e, decode w = .error e) ↔
      (op = 0x00 ∨ 0x10 ≤ op ∨
        (op ∈ [0x01, 0x02, 0x03, 0x04, 0x05, 0x07, 0x08, 0x0C, 0x0E] ∧ (a ≠ 0 ∨ b ≠ 0)) ∨
        (op = 0x06 ∧ (3 ≤ a ∨ b ≠ 0)) ∨ (op ∈ [0x09, 0x0D] ∧ a ≠ 0) ∨ (op = 0x0B ∧ b ≠ 0)))) ∧
  (∀ (s : State) (k : Nat) (w : CmdWord) (rest : List HostInput) (e : DecodeError), Idle s →
    s.inputs = ⟨k, .write w⟩ :: rest → decode w = .error e →
      step s = .next (State.setFlag { s with inputs := rest } .fIllegal true))

/-- The legal words are those of the 17 rows of spec/opcode_table.json, and no word matches two rows (R71, R72). -/
def Obligations.OpcodeTableIsExact : Prop :=
  ∀ w : CmdWord,
    ((∃ i, decode w = .ok i) ↔ ∃ r ∈ opcodeTable, r.covers w = true) ∧
    (∀ r ∈ opcodeTable, ∀ t ∈ opcodeTable, r.covers w = true → t.covers w = true → r = t)

/-- Words written out from the encodings of R71, one of each family, decode to the commands they stand for. -/
def Obligations.SampleWordsDecode : Prop :=
  decode 0x010000 = .ok .lowc ∧ decode 0x060100 = .ok .delayGap ∧ decode 0x0900FF = .ok (.wrbyte 0xFF) ∧
  decode 0x0A783F = .ok (.wrtxn1 0x78 0x3F) ∧ decode 0x0B7800 = .ok (.wrtxnf 0x78) ∧
  decode 0x0C0000 = .ok .sendf ∧ decode 0x0D0008 = .ok (.pushf 8) ∧ decode 0x0F9109 = .ok (.fbwr 145 9)

/-- R75: the five pseudo-instructions, each one command. -/
def Obligations.PseudoInstructionsExpand : Prop :=
  ∀ c : Cfg,
    assemble c .setd [1] = some .reld ∧ assemble c .setd [0] = some .lowd ∧
    (∀ data, assemble c .wrtxn1 [data] = some (.wrtxn1 (addrByte c) (BitVec.ofNat 8 data))) ∧
    assemble c .wrtxnf [] = some (.wrtxnf (addrByte c)) ∧
    assemble c .pushf [] = some (.pushf c.repeatDefault) ∧
    (∀ x, x ≠ 0 → x ≠ 1 → assemble c .setd [x] = none) ∧
    Cfg.thisHardware.repeatDefault = 8

/-- R74: an operand outside 0 to 255 is an assembly error, whatever the mnemonic; every other operand of a line that
assembles is the number that it spells or one of the names of `DELAY`, below 256; and the command is well-formed. Which
blanks a line may hold is the model's choice (notes/assumptions/15). -/
def Obligations.AssembledCommandsAreWellFormed : Prop :=
  (∀ (c : Cfg) (line x : List Char) (v : Nat), x ∈ operandTexts (line.dropWhile (· != ' ')) →
    literalValue x = some v → 256 ≤ v → assembleLine c line = none) ∧
  (∀ (c : Cfg) (line : List Char) (i : Instr), assembleLine c line = some i →
    ∃ m vs, lookUp (line.takeWhile (· != ' ')) mnemonicTable = some m ∧
      (operandTexts (line.dropWhile (· != ' '))).map (fun x =>
        if m = .delay then (lookUp x selectorTable).or (literalValue x) else literalValue x) = vs.map some ∧
      (∀ v ∈ vs, v < 256) ∧ assemble c m vs = some i) ∧
  (∀ (c : Cfg) (line : List Char) (i : Instr), c.repeatDefault < 256 → assembleLine c line = some i →
    i.wellFormed = true)

/-! ### A step, the host and reset (spec/60_exceptions.md, spec/70_reset_and_hazards.md) -/

/-- A legal word at the inputs of an idle block is the next thing that runs: the step takes it off the inputs and is
`exec` of its command (R112). -/
def Obligations.StepRunsDecodedCommand : Prop :=
  ∀ (s : State) (k : Nat) (w : CmdWord) (rest : List HostInput) (i : Instr), Idle s →
    s.inputs = ⟨k, .write w⟩ :: rest → decode w = .ok i → step s = exec i { s with inputs := rest }

/-- The word that `withFetchWord` places is the one that the next step runs, on the idle block. That it stands for a
CMD write is the model's choice (notes/assumptions/8). -/
def Obligations.PresentedWordRuns : Prop :=
  ∀ (s : State) (nbits w : Nat) (i : Instr), decodeTableWord nbits w = some i →
    step (s.withFetchWord nbits w) = exec i (complete s)

/-- The block never stops: no exception, no trap (R200, R207). -/
def Obligations.StepNeverStops : Prop :=
  (∀ s, ∃ t, step s = .next t) ∧ ∀ i s, ∃ t, exec i s = .next t

/-- An idle block with nothing at its inputs waits (R231). -/
def Obligations.IdleBlockWaits : Prop := ∀ s : State, s.seq = .idle → s.inputs = [] → step s = .next s

/-- A read of STATUS gives the current bits, each at its place in the byte that the host reads, and changes nothing in
the block (R214, R27). That the reserved bits 7:6 of that byte are 0 is part of the invariant `Inv`. -/
def Obligations.StatusReadChangesNothing : Prop :=
  ∀ (s : State) (k : Nat) (rest : List HostInput), s.inputs = ⟨k, .readStatus⟩ :: rest →
    lands s ⟨k, .readStatus⟩ = true →
      ∃ b : Byte, step s = .next { s with inputs := rest, hostReads := s.hostReads ++ [b] } ∧ b = s.status ∧
        b.getLsbD 0 = s.flag .busy ∧ b.getLsbD 1 = s.flag .ack ∧ b.getLsbD 2 = s.flag .ok ∧
        b.getLsbD 3 = s.flag .rdata ∧ b.getLsbD 4 = s.flag .fIllegal ∧ b.getLsbD 5 = s.flag .fBusy ∧
        (Inv s → b.getLsbD 6 = false ∧ b.getLsbD 7 = false)

/-- A word written while BUSY, legal or not, sets F_BUSY (STATUS bit 5, cause code 2) and changes nothing else:
neither the running command, nor the frame buffer, nor F_ILLEGAL (R204, R206). -/
def Obligations.BusyWriteOnlySetsFBusy : Prop :=
  faultBit .busy = .fBusy ∧ statusPos .fBusy = 5 ∧ causeCode .busy = 2 ∧
  ∀ (s : State) (k : Nat) (w : CmdWord) (rest : List HostInput), s.flag .busy = true →
    s.inputs = ⟨k, .write w⟩ :: rest → lands s ⟨k, .write w⟩ = true →
      step s = .next (State.setFlag { s with inputs := rest } .fBusy true)

/-- Every command issued while BUSY is refused: F_BUSY is set and nothing else changes (R204). -/
def Obligations.CommandRefusedWhileBusy : Prop :=
  ∀ (i : Instr) (s : State), s.flag .busy = true → exec i s = .next (s.setFlag .fBusy true)

/-- R230: what the reset input leaves, from any state and in the middle of any command, and that nothing else clears
a fault bit. `SHIFT` and `BITCNT` are left unspecified: the statement says nothing of them. -/
def Obligations.ResetInputLeaves : Prop :=
  (∀ (s : State) (k : Nat) (rest : List HostInput), s.inputs = ⟨k, .reset⟩ :: rest → lands s ⟨k, .reset⟩ = true →
    ∃ t, step s = .next t ∧ t.drvC = .rel ∧ t.drvD = .rel ∧ t.now = 0 ∧ t.trace = [] ∧ t.status = 0x00 ∧
      (∀ a, Memory.read t.fb a = 0x00) ∧ t.seq = .idle ∧ t.cfg = s.cfg ∧ t.inputs = rest) ∧
  (∀ (s t : State) (kind : FaultKind), step s = .next t → s.flag (faultBit kind) = true →
    t.flag (faultBit kind) = true ∨ ∃ k rest, s.inputs = ⟨k, .reset⟩ :: rest ∧ lands s ⟨k, .reset⟩ = true)

/-- R33: the state after reset, both lines at level 1 unless the peripheral drives them low. `SHIFT` and `BITCNT` are
unspecified there: the statement says nothing of the values that State.reset names (notes/assumptions/5). -/
def Obligations.ResetStateValues : Prop :=
  State.reset.drvC = .rel ∧ State.reset.drvD = .rel ∧
  (∀ p, (level State.reset.drvC p = true ↔ p ≠ .low) ∧ (level State.reset.drvD p = true ↔ p ≠ .low)) ∧
  State.reset.now = 0 ∧ State.reset.trace = [] ∧ State.reset.status = 0x00 ∧
  (∀ a, Memory.read State.reset.fb a = 0x00) ∧ State.reset.seq = .idle

/-- R8 and R76: this hardware's parameters, which State.reset has, and the address byte that they give. -/
def Obligations.HardwareParameters : Prop :=
  State.reset.cfg.tUnit = 20 ∧ State.reset.cfg.tGap = 33 ∧ State.reset.cfg.tPush = 2000 ∧
  State.reset.cfg.repeatDefault = 8 ∧ State.reset.cfg.addr7 = 0x3C ∧ addrByte State.reset.cfg = 0x78 ∧
  State.reset.cfg.preamble = [0x3F, 0x48, 0x53, 0x6C, 0x87, 0x98, 0xC0, 0xE0] ∧
  State.reset.cfg.frameLen = 145 ∧ State.reset.cfg.exactTiming = false ∧
  (∀ c : Cfg, (addrByte c).toNat = 2 * c.addr7.toNat)

/-! ### The bus primitives (spec/40_bus_primitives.md) -/

/-- R101 and R102: `LOWC` and `RELC`. -/
def Obligations.ClockCommandsDriveClock : Prop :=
  ∀ i v w, (i, v, w) ∈ [(Instr.lowc, Driver.low, (0x010000 : CmdWord)), (.relc, .rel, 0x020000)] →
    encode i = w ∧
    (∀ s, ReadyFor i s → ∃ e, (s.cfg.exactTiming = true → e = 0) ∧
      exec i s = .next { s with
        drvC := v, now := s.now + e, trace := s.trace ++ [.drive (s.now + e) .clock v], draws := s.draws + 1 }) ∧
    (∀ s, s.flag .busy = true → exec i s = .next (s.setFlag .fBusy true))

/-- R103 and R104: `LOWD` and `RELD`, which `SETD 0` and `SETD 1` spell too. -/
def Obligations.DataCommandsDriveData : Prop :=
  ∀ i v w x, (i, v, w, x) ∈ [(Instr.lowd, Driver.low, (0x030000 : CmdWord), 0), (.reld, .rel, 0x040000, 1)] →
    encode i = w ∧ (∀ c, assemble c .setd [x] = some i) ∧
    (∀ s, ReadyFor i s → ∃ e, (s.cfg.exactTiming = true → e = 0) ∧
      exec i s = .next { s with
        drvD := v, now := s.now + e, trace := s.trace ++ [.drive (s.now + e) .data v], draws := s.draws + 1 }) ∧
    (∀ s, s.flag .busy = true → exec i s = .next (s.setFlag .fBusy true))

/-- R106 and R105: `READD` releases DATA, and the bit it reads is 0 exactly when the peripheral drives DATA low. -/
def Obligations.ReaddSamplesData : Prop :=
  encode .readd = 0x050000 ∧
  (∀ s, ReadyFor .readd s → ∃ (b : Bool) (e : Nat), (b = false ↔ peripheralAt s 0 = .low) ∧
    (s.cfg.exactTiming = true → e = 0) ∧
    exec .readd s = .next { s with
      drvD := .rel, now := s.now + e, trace := s.trace ++ [.sample (s.now + e) b]
      status := statusPut s.status .rdata b
      peripheral := s.peripheral.tail, samples := s.samples + 1, draws := s.draws + 1 }) ∧
  (∀ s, s.flag .busy = true → exec .readd s = .next (s.setFlag .fBusy true))

/-- R109 and R107: the three delays last at least their nominal length, and exactly that under EXACT_TIMING. -/
def Obligations.DelaysAdvanceTime : Prop :=
  ∀ i d w, (i, d, w) ∈ [(Instr.delayUnit, DelaySel.unit, (0x060000 : CmdWord)), (.delayGap, .gap, 0x060100),
      (.delayPush, .push, 0x060200)] →
    encode i = w ∧
    (∀ s, ReadyFor i s → ∃ u, s.now + delayLength s.cfg d ≤ u ∧
      (s.cfg.exactTiming = true → u = s.now + delayLength s.cfg d) ∧
      exec i s = .next { s with
        now := u, trace := s.trace ++ [.wait s.now u (delayLength s.cfg d)], draws := s.draws + 1 }) ∧
    (∀ s, s.flag .busy = true → exec i s = .next (s.setFlag .fBusy true))

/-- R110: `START` makes these seven events and leaves both lines low. -/
def Obligations.StartMakesStartCondition : Prop :=
  encode .start = 0x070000 ∧
  (∀ s, ReadyFor .start s → ∃ a b c d e f g,
    (s.now ≤ a ∧ a ≤ b ∧ b + s.cfg.tUnit ≤ c ∧ c ≤ d ∧ d + s.cfg.tUnit ≤ e ∧ e ≤ f ∧ f + s.cfg.tUnit ≤ g) ∧
    (s.cfg.exactTiming = true → a = s.now ∧ b = s.now ∧ d = s.now + s.cfg.tUnit ∧
      f = s.now + 2 * s.cfg.tUnit ∧ g = s.now + 3 * s.cfg.tUnit) ∧
    exec .start s = .next { s with
      drvC := .low, drvD := .low, now := g, draws := s.draws + 7
      trace := s.trace ++ [.drive a .data .rel, .drive b .clock .rel, .wait b c s.cfg.tUnit,
        .drive d .data .low, .wait d e s.cfg.tUnit, .drive f .clock .low, .wait f g s.cfg.tUnit] }) ∧
  (∀ s, s.flag .busy = true → exec .start s = .next (s.setFlag .fBusy true))

/-- R111: `STOP` makes these six events and leaves both lines released. -/
def Obligations.StopMakesStopCondition : Prop :=
  encode .stop = 0x080000 ∧
  (∀ s, ReadyFor .stop s → ∃ a b c d e f,
    (s.now ≤ a ∧ a + s.cfg.tUnit ≤ b ∧ b ≤ c ∧ c + s.cfg.tUnit ≤ d ∧ d ≤ e ∧ e + s.cfg.tUnit ≤ f) ∧
    (s.cfg.exactTiming = true → a = s.now ∧ c = s.now + s.cfg.tUnit ∧ e = s.now + 2 * s.cfg.tUnit ∧
      f = s.now + 3 * s.cfg.tUnit) ∧
    exec .stop s = .next { s with
      drvC := .rel, drvD := .rel, now := f, draws := s.draws + 6
      trace := s.trace ++ [.drive a .data .low, .wait a b s.cfg.tUnit, .drive c .clock .rel, .wait c d s.cfg.tUnit,
        .drive e .data .rel, .wait e f s.cfg.tUnit] }) ∧
  (∀ s, s.flag .busy = true → exec .stop s = .next (s.setFlag .fBusy true))

/-- What the bus primitive commands leave unchanged, from any state that is not BUSY, a host input landing or not:
no byte of the frame buffer, no STATUS bit but BUSY (and RDATA for `READD`), no register of the serializer. -/
def Obligations.PrimitiveFrame : Prop :=
  ∀ (i : Instr) (s t : State), s.flag .busy = false → exec i s = .next t →
    (i ∈ [.lowc, .relc] → OnlyChanges [.clockDriver, .time, .history, .bit .busy] s t) ∧
    (i ∈ [.lowd, .reld] → OnlyChanges [.dataDriver, .time, .history, .bit .busy] s t) ∧
    (i = .readd → OnlyChanges [.dataDriver, .time, .history, .bit .busy, .bit .rdata, .answers] s t) ∧
    (i ∈ [.delayUnit, .delayGap, .delayPush] → OnlyChanges [.time, .history, .bit .busy] s t) ∧
    (i ∈ [.start, .stop] → OnlyChanges [.clockDriver, .dataDriver, .time, .history, .bit .busy] s t)

/-- Host-built: the seven commands of spec/95_test_vectors.md P6 leave exactly what `START` leaves (R110, R112). -/
def Obligations.StartFromPrimitives : Prop :=
  ∀ s0 s1 s2 s3 s4 s5 s6 s7 : State, Idle s0 → s0.inputs = [] → s0.cfg.exactTiming = true →
    exec .reld s0 = .next s1 → exec .relc s1 = .next s2 → exec .delayUnit s2 = .next s3 →
    exec .lowd s3 = .next s4 → exec .delayUnit s4 = .next s5 → exec .lowc s5 = .next s6 →
    exec .delayUnit s6 = .next s7 → exec .start s0 = .next s7

/-! ### The byte transfer layer (spec/41_byte_transfer.md) -/

/-- R132 and R133: `WRBYTE` sends the byte and leaves the acknowledge in ACK, CLOCK low, DATA released, SHIFT 0 and
BITCNT 8; 55 events, at least 27 unit delays. That SHIFT and BITCNT keep these values into the idle state is the model's
choice (notes/assumptions/20). -/
def Obligations.WrbyteSendsByte : Prop :=
  (∀ v : Byte, (encode (.wrbyte v)).toNat = 0x090000 + v.toNat) ∧
  (∀ v s, ReadyFor (.wrbyte v) s → ∃ t, exec (.wrbyte v) s = .next t ∧
    (t.flag .ack = true ↔ peripheralAt s 0 = .low) ∧ t.drvC = .low ∧ t.drvD = .rel ∧ t.shift = 0x00 ∧
    t.bitcnt = 8 ∧ t.seq = .idle ∧ t.flag .busy = false ∧ t.trace.length = s.trace.length + 55 ∧
    s.now + 27 * s.cfg.tUnit ≤ t.now ∧ (s.cfg.exactTiming = true → t.now = s.now + 27 * s.cfg.tUnit)) ∧
  (∀ v s, s.flag .busy = true → exec (.wrbyte v) s = .next (s.setFlag .fBusy true))

/-- R130, R131, R132 and R138: the 55 events of `WRBYTE`, bit `j` (0 the most significant) in the `j`-th clock slot,
the acknowledge in the ninth. Its 27 driver changes, each with a unit delay after it, are at `d 0` to `d 26`; the delay
after change `h` ends at `w (h + 1)`, at least `T_UNIT` later, and the next change comes no sooner than that. The sample,
at `m`, comes after the delay of CLOCK's last release. Under EXACT_TIMING every time is exact. -/
def Obligations.WrbyteExactTrace : Prop :=
  ∀ (v : Byte) (s : State) (T : Nat), ReadyFor (.wrbyte v) s → T = s.cfg.tUnit →
    ∃ (t : State) (d w : Nat → Nat) (m : Nat), exec (.wrbyte v) s = .next t ∧
      (w 0 = s.now ∧ (∀ h < 27, w h ≤ d h ∧ d h + T ≤ w (h + 1)) ∧ w 26 ≤ m ∧ m ≤ d 26 ∧ t.now = w 27) ∧
      (s.cfg.exactTiming = true →
        (∀ h < 27, d h = s.now + h * T ∧ w (h + 1) = s.now + (h + 1) * T) ∧ m = s.now + 26 * T) ∧
      t.trace = s.trace ++
        (List.range 8).flatMap (fun j =>
          [.drive (d (3 * j)) .data (if v.getLsbD (7 - j) then .rel else .low), .wait (d (3 * j)) (w (3 * j + 1)) T,
           .drive (d (3 * j + 1)) .clock .rel, .wait (d (3 * j + 1)) (w (3 * j + 2)) T,
           .drive (d (3 * j + 2)) .clock .low, .wait (d (3 * j + 2)) (w (3 * j + 3)) T]) ++
        [.drive (d 24) .data .rel, .wait (d 24) (w 25) T, .drive (d 25) .clock .rel, .wait (d 25) (w 26) T,
         .sample m (sampledAt s 0), .drive (d 26) .clock .low, .wait (d 26) (w 27) T]

/-- R78, R56 and R57: a byte sent with CLOCK low is nine clock pulses: eight data slots, most significant bit first,
a released DATA for 1, and the acknowledge slot; no START and no STOP condition. How a trace is read as symbols on the
wire is the model's choice (notes/assumptions/19). -/
def Obligations.ByteOnTheWire : Prop :=
  ∀ (v : Byte) (s : State) (w : WireState), ReadyFor (.wrbyte v) s → w.c = .low →
    ∃ t es, exec (.wrbyte v) s = .next t ∧ t.trace = s.trace ++ es ∧
      symbols w es = [.bit (v.getLsbD 7), .bit (v.getLsbD 6), .bit (v.getLsbD 5), .bit (v.getLsbD 4),
        .bit (v.getLsbD 3), .bit (v.getLsbD 2), .bit (v.getLsbD 1), .bit (v.getLsbD 0), .ack (sampledAt s 0)]

/-- R134, R135 and R136: a transaction sends its bytes up to the first that is refused; OK says whether all were
acknowledged, ACK is the last acknowledge, and both lines end released. That SHIFT and BITCNT keep their last values
into the idle state is the model's choice (notes/assumptions/20). -/
def Obligations.TransactionResults : Prop :=
  (∀ a d : Byte, (encode (.wrtxn1 a d)).toNat = 0x0A0000 + a.toNat * 256 + d.toNat) ∧
  (∀ a : Byte, (encode (.wrtxnf a)).toNat = 0x0B0000 + a.toNat * 256) ∧
  (∀ i s, s.flag .busy = true → (∃ a d, i = .wrtxn1 a d) ∨ (∃ a, i = .wrtxnf a) →
    exec i s = .next (s.setFlag .fBusy true)) ∧
  ∀ (i : Instr) (s : State) (a : Byte) (p : List Byte),
    (∃ d, i = .wrtxn1 a d ∧ p = [d]) ∨
      (i = .wrtxnf a ∧ p = (List.range s.cfg.frameLen).map (fun j => Memory.read s.fb j)) →
    ReadyFor i s → ∃ t, exec i s = .next t ∧
      t.flag .ok = allTaken (sentBytes s 0 (a :: p)) ∧
      (∀ x ∈ (sentBytes s 0 (a :: p)).getLast?, t.flag .ack = !x.2) ∧
      t.samples = s.samples + (sentBytes s 0 (a :: p)).length ∧
      t.drvC = .rel ∧ t.drvD = .rel ∧ t.shift = 0x00 ∧ t.bitcnt = 8 ∧ t.seq = .idle ∧ t.flag .busy = false

/-- R79, with the conditions and slots of R77 and R78 (the spec's own inferences): a transaction on the wire, from a bus
with both lines released: START, the address byte, the payload bytes up to the first that is refused, each with its
acknowledge slot, and STOP; nothing else. How a trace is read as symbols on the wire is the model's choice
(notes/assumptions/19). -/
def Obligations.TransactionOnTheWire : Prop :=
  ∀ (i : Instr) (s : State) (a : Byte) (p : List Byte),
    (∃ d, i = .wrtxn1 a d ∧ p = [d]) ∨
      (i = .wrtxnf a ∧ p = (List.range s.cfg.frameLen).map (fun j => Memory.read s.fb j)) →
    ReadyFor i s → s.drvC = .rel → s.drvD = .rel →
      ∃ t es, exec i s = .next t ∧ t.trace = s.trace ++ es ∧
        symbols idleBus es = [.start] ++ (sentBytes s 0 (a :: p)).flatMap slotSymbols ++ [.stop]

/-- R139 (the spec's own inference):
how long a transaction lasts and how many events it appends, all acknowledged and with byte `k` the first
that is refused; and the two figures for this hardware. -/
def Obligations.TransactionTiming : Prop :=
  (∀ (i : Instr) (s : State) (n : Nat),
    (∃ a d, i = .wrtxn1 a d ∧ n = 1) ∨ (∃ a, i = .wrtxnf a ∧ n = s.cfg.frameLen) → ReadyFor i s →
    (AllAck s (1 + n) → ∃ t, exec i s = .next t ∧ t.trace.length = s.trace.length + (13 + 55 * (1 + n)) ∧
      s.now + (33 + 27 * n) * s.cfg.tUnit ≤ t.now ∧
      (s.cfg.exactTiming = true → t.now = s.now + (33 + 27 * n) * s.cfg.tUnit)) ∧
    (∀ k, k ≤ n → FirstNack s k → ∃ t, exec i s = .next t ∧
      t.trace.length = s.trace.length + (13 + 55 * (k + 1)) ∧
      s.now + (33 + 27 * k) * s.cfg.tUnit ≤ t.now ∧
      (s.cfg.exactTiming = true → t.now = s.now + (33 + 27 * k) * s.cfg.tUnit))) ∧
  (33 + 27 * 1) * Cfg.thisHardware.tUnit = 1200 ∧
  (33 + 27 * Cfg.thisHardware.frameLen) * Cfg.thisHardware.tUnit = 78960

/-- What `WRBYTE` leaves unchanged, from any state that is not BUSY: no byte of the frame buffer, and no STATUS bit
but ACK and BUSY; OK stays (R133). -/
def Obligations.ByteFrame : Prop :=
  ∀ (v : Byte) (s t : State), s.flag .busy = false → exec (.wrbyte v) s = .next t →
    OnlyChanges [.clockDriver, .dataDriver, .time, .history, .bit .busy, .bit .ack, .shifter, .bitCounter,
      .answers] s t

/-- What the transfers leave unchanged, from any state that is not BUSY: no byte of the frame buffer, and no STATUS
bit but ACK, OK and BUSY (R135, R136, R160, R163). -/
def Obligations.TransferFrame : Prop :=
  ∀ (i : Instr) (s t : State),
    (∃ a d, i = .wrtxn1 a d) ∨ (∃ a, i = .wrtxnf a) ∨ i = .sendf ∨ (∃ n, i = .pushf n) →
    s.flag .busy = false → exec i s = .next t →
    OnlyChanges [.clockDriver, .dataDriver, .time, .history, .bit .busy, .bit .ack, .bit .ok, .shifter, .bitCounter,
      .answers] s t

/-- Host-built: `START`, two `WRBYTE`s and `STOP`, both bytes acknowledged, leave what `WRTXN1` leaves, but that
`WRTXN1` also sets OK (spec/95_test_vectors.md P2, R134, R245). -/
def Obligations.HostBuiltTransaction : Prop :=
  ∀ (a d : Byte) (s0 s1 s2 s3 s4 : State), Idle s0 → s0.inputs = [] → s0.cfg.exactTiming = true → AllAck s0 2 →
    exec .start s0 = .next s1 → exec (.wrbyte a) s1 = .next s2 → exec (.wrbyte d) s2 = .next s3 →
    exec .stop s3 = .next s4 → exec (.wrtxn1 a d) s0 = .next (s4.setFlag .ok true)

/-! ### The frame protocol layer (spec/42_frame_protocol.md) -/

/-- R160 and R162: `SENDF` ends with OK saying whether every transaction succeeded, with ACK the last acknowledge, and
with both lines released, after the time and the events of the transactions that it sends, a minimum that is exact
under EXACT_TIMING. That SHIFT and BITCNT keep their last values into the idle state is the model's choice
(notes/assumptions/20). -/
def Obligations.SendfResults : Prop :=
  encode .sendf = 0x0C0000 ∧
  (∀ s, s.flag .busy = true → exec .sendf s = .next (s.setFlag .fBusy true)) ∧
  (∀ (s : State) (xs : List (List (Byte × Bool))), xs = frameTransactions s 0 s.cfg.preamble → ReadyFor .sendf s →
    ∃ t, exec .sendf s = .next t ∧ t.flag .ok = xs.all allTaken ∧
      (∀ x ∈ xs.flatten.getLast?, t.flag .ack = !x.2) ∧ t.samples = s.samples + byteCount xs ∧
      t.trace.length = s.trace.length + attemptSteps s.cfg.preamble.length xs ∧
      s.now + attemptTime s.cfg s.cfg.preamble.length xs ≤ t.now ∧
      (s.cfg.exactTiming = true → t.now = s.now + attemptTime s.cfg s.cfg.preamble.length xs) ∧
      t.drvC = .rel ∧ t.drvD = .rel ∧ t.shift = 0x00 ∧ t.bitcnt = 8 ∧ t.seq = .idle ∧ t.flag .busy = false)

/-- R80, R160 and R77 to R79: the frame sequence on the wire for every pattern of acknowledges, from a bus with both
lines released: a transaction for each preamble byte in index order, then one with the whole buffer in ascending
index order, ending with the first transaction that is refused a byte. How a trace is read as symbols on the wire is the
model's choice (notes/assumptions/19). -/
def Obligations.FrameOnTheWire : Prop :=
  ∀ s : State, ReadyFor .sendf s → s.drvC = .rel → s.drvD = .rel →
    ∃ t es, exec .sendf s = .next t ∧ t.trace = s.trace ++ es ∧
      symbols idleBus es = (frameTransactions s 0 s.cfg.preamble).flatMap transactionSymbols

/-- R80 with every byte acknowledged: the whole frame sequence, byte by byte. How a trace is read as symbols on the wire
is the model's choice (notes/assumptions/19). -/
def Obligations.AcknowledgedFrameOnTheWire : Prop :=
  ∀ s : State, ReadyFor .sendf s → s.drvC = .rel → s.drvD = .rel →
    AllAck s (frameSamples s.cfg s.cfg.preamble.length) →
    ∃ t es, exec .sendf s = .next t ∧ t.trace = s.trace ++ es ∧ t.flag .ok = true ∧
      symbols idleBus es =
        s.cfg.preamble.flatMap (fun b => transactionSymbols [(addrByte s.cfg, false), (b, false)]) ++
        transactionSymbols ((addrByte s.cfg, false) ::
          (List.range s.cfg.frameLen).map (fun j => (Memory.read s.fb j, false)))

/-- R162 (the spec's own inference):
how `SENDF` fails: its duration and its events when byte `k` of preamble transaction `i`, or byte `k` of
the payload transaction, is the first that is refused; OK and ACK end at 0. -/
def Obligations.SendfFailures : Prop :=
  ∀ (s : State) (P : Nat), ReadyFor .sendf s → P = s.cfg.preamble.length →
    (∀ i k, i < P → k < 2 → FirstNack s (2 * i + k) → ∃ t, exec .sendf s = .next t ∧
      t.flag .ok = false ∧ t.flag .ack = false ∧
      t.trace.length = s.trace.length + (124 * i + 13 + 55 * (k + 1)) ∧
      s.now + (61 * i + 33 + 27 * k) * s.cfg.tUnit ≤ t.now ∧
      (s.cfg.exactTiming = true → t.now = s.now + (61 * i + 33 + 27 * k) * s.cfg.tUnit)) ∧
    (∀ k, k ≤ s.cfg.frameLen → FirstNack s (2 * P + k) → ∃ t, exec .sendf s = .next t ∧
      t.flag .ok = false ∧ t.flag .ack = false ∧
      t.trace.length = s.trace.length + (124 * P + 1 + 13 + 55 * (k + 1)) ∧
      s.now + ((61 * P + 33 + 27 * k) * s.cfg.tUnit + s.cfg.tGap) ≤ t.now ∧
      (s.cfg.exactTiming = true → t.now = s.now + ((61 * P + 33 + 27 * k) * s.cfg.tUnit + s.cfg.tGap)))

/-- R163, R164, R165 and R166: `PUSHF n` runs to its end whatever is acknowledged: `n` attempts, whose samples, events
and times add up with `n - 1` push delays between them, unchanged by failures; both lines are released after the last;
with `n = 0` it sends nothing and waits for nothing. ACK and OK are free values: the statement says nothing of them.
That SHIFT and BITCNT keep their last values into the idle state is the model's choice (notes/assumptions/20). -/
def Obligations.PushfResults : Prop :=
  (∀ n, n < 256 → (encode (.pushf n)).toNat = 0x0D0000 + n) ∧
  (∀ n s, s.flag .busy = true → exec (.pushf n) s = .next (s.setFlag .fBusy true)) ∧
  (∀ n s, ReadyFor (.pushf n) s → ∃ t, exec (.pushf n) s = .next t ∧ t.seq = .idle ∧ t.flag .busy = false ∧
    t.samples = s.samples + byteCount (pushTransactions s n 0) ∧ (attemptList s n 0).length = n ∧
    t.trace.length = s.trace.length +
      (((attemptList s n 0).map (attemptSteps s.cfg.preamble.length)).sum + (n - 1)) ∧
    s.now + (((attemptList s n 0).map (attemptTime s.cfg s.cfg.preamble.length)).sum + (n - 1) * s.cfg.tPush) ≤ t.now ∧
    (s.cfg.exactTiming = true → t.now = s.now +
      (((attemptList s n 0).map (attemptTime s.cfg s.cfg.preamble.length)).sum + (n - 1) * s.cfg.tPush)) ∧
    (n = 0 → OnlyChanges [.bit .ack, .bit .ok] s t) ∧
    (n ≠ 0 → t.drvC = .rel ∧ t.drvD = .rel ∧ t.shift = 0x00 ∧ t.bitcnt = 8))

/-- R163 and R164: what `PUSHF n` puts on the wire: exactly `n` frame sequences, each as far as its own acknowledges
let it go. How a trace is read as symbols on the wire is the model's choice (notes/assumptions/19). -/
def Obligations.PushOnTheWire : Prop :=
  ∀ (n : Nat) (s : State), ReadyFor (.pushf n) s → s.drvC = .rel → s.drvD = .rel →
    ∃ t es, exec (.pushf n) s = .next t ∧ t.trace = s.trace ++ es ∧
      symbols idleBus es = (pushTransactions s n 0).flatMap transactionSymbols

/-- R168 (the spec's own inference):
under EXACT_TIMING, the bus-free times of `SENDF`, for every pattern of acknowledges: three units between
preamble transactions, three units and the gap before the payload. How a trace is read as symbols on the wire is the
model's choice (notes/assumptions/19). -/
def Obligations.SendfBusFreeTimes : Prop :=
  ∀ s : State, ReadyFor .sendf s → s.drvC = .rel → s.drvD = .rel → s.cfg.exactTiming = true →
    s.cfg.preamble ≠ [] →
    ∃ t es, exec .sendf s = .next t ∧ t.trace = s.trace ++ es ∧
      busFreeTimes none (wireSymbols idleBus es) =
        frameFreeTimes s.cfg s.cfg.preamble.length (frameTransactions s 0 s.cfg.preamble).length

/-- R168 (the spec's own inference): under EXACT_TIMING, the bus-free times of `PUSHF n`, for every `n` and every pattern
of acknowledges: between each attempt and the next two units and the push delay, whether the attempt failed or not, and
inside each attempt those of `SENDF`. How a trace is read as symbols on the wire is the model's choice
(notes/assumptions/19). -/
def Obligations.PushBusFreeTimes : Prop :=
  ∀ (n : Nat) (s : State), ReadyFor (.pushf n) s → s.drvC = .rel → s.drvD = .rel → s.cfg.exactTiming = true →
    s.cfg.preamble ≠ [] →
    ∃ t es, exec (.pushf n) s = .next t ∧ t.trace = s.trace ++ es ∧ (attemptList s n 0).length = n ∧
      busFreeTimes none (wireSymbols idleBus es) =
        List.intercalate [2 * s.cfg.tUnit + s.cfg.tPush] ((attemptList s n 0).map (fun xs =>
          frameFreeTimes s.cfg s.cfg.preamble.length xs.length))

/-- R244 (the spec's own inference):
with DATA stuck low at every sample that it takes, every transaction reports success. -/
def Obligations.StuckLowLineReportsSuccess : Prop :=
  ∀ (i : Instr) (s : State), (∃ a d, i = .wrtxn1 a d) ∨ (∃ a, i = .wrtxnf a) ∨ i = .sendf →
    ReadyFor i s → (∀ j, j < sampleCount s.cfg i → peripheralAt s j = .low) →
      ∃ t, exec i s = .next t ∧ t.flag .ok = true ∧ t.flag .ack = true

/-- R244 and R166 (the spec's own inferences): with no peripheral to drive DATA, `SENDF` fails in its first transaction,
and `PUSHF n` sends `n` address bytes and nothing else: 68 events and 33 units each, with the push delay between two
unchanged. How a trace is read as symbols on the wire is the model's choice (notes/assumptions/19). -/
def Obligations.AbsentPeripheral : Prop :=
  ∀ s : State, s.cfg.preamble ≠ [] → s.drvC = .rel → s.drvD = .rel →
    (ReadyFor .sendf s → peripheralAt s 0 = .rel →
      ∃ t es, exec .sendf s = .next t ∧ t.trace = s.trace ++ es ∧ t.flag .ok = false ∧
        symbols idleBus es = transactionSymbols [(addrByte s.cfg, true)] ∧ es.length = 68 ∧
        s.now + 33 * s.cfg.tUnit ≤ t.now ∧ (s.cfg.exactTiming = true → t.now = s.now + 33 * s.cfg.tUnit)) ∧
    (∀ n, ReadyFor (.pushf n) s → (∀ j, j < n → peripheralAt s j = .rel) →
      ∃ t es, exec (.pushf n) s = .next t ∧ t.trace = s.trace ++ es ∧
        symbols idleBus es = (List.replicate n [(addrByte s.cfg, true)]).flatMap transactionSymbols ∧
        es.length = 68 * n + (n - 1) ∧
        s.now + (33 * n * s.cfg.tUnit + (n - 1) * s.cfg.tPush) ≤ t.now ∧
        (s.cfg.exactTiming = true → t.now = s.now + (33 * n * s.cfg.tUnit + (n - 1) * s.cfg.tPush)))

/-! ### The frame buffer port (spec/43_frame_buffer_port.md) -/

/-- R180: `FBCLR` makes every element 0 and changes nothing else. -/
def Obligations.FbclrClearsBuffer : Prop :=
  encode .fbclr = 0x0E0000 ∧
  (∀ s, ReadyFor .fbclr s → ∃ m, exec .fbclr s = .next { s with fb := m } ∧ ∀ a, Memory.read m a = 0x00) ∧
  (∀ s, s.flag .busy = true → exec .fbclr s = .next (s.setFlag .fBusy true))

/-- R181 and R55: `FBWR` writes one element, and at an index of FRAME_LEN or above it changes nothing at all. The
premise on the buffer's form is part of the invariant `Inv`. -/
def Obligations.FbwrWritesElement : Prop :=
  (∀ (index : Nat) (v : Byte), index < 256 → (encode (.fbwr index v)).toNat = 0x0F0000 + index * 256 + v.toNat) ∧
  (∀ index v s, ReadyFor (.fbwr index v) s → s.cfg.frameLen ≤ index → exec (.fbwr index v) s = .next s) ∧
  (∀ index v s, ReadyFor (.fbwr index v) s → Memory.wf s.cfg.frameLen s.fb = true → index < s.cfg.frameLen →
    ∃ m, exec (.fbwr index v) s = .next { s with fb := m } ∧
      ∀ a, Memory.read m a = if a = index then v else Memory.read s.fb a) ∧
  (∀ index v s, s.flag .busy = true → exec (.fbwr index v) s = .next (s.setFlag .fBusy true))

/-- What the port's commands leave unchanged, from any state that is not BUSY: they take no time, drive no line and
append no event, and `FBWR` stores to its index only, where that is below FRAME_LEN. -/
def Obligations.PortFrame : Prop :=
  ∀ (i : Instr) (s t : State), s.flag .busy = false → exec i s = .next t →
    (i = .fbclr → OnlyChanges [.buffer, .bit .busy] s t) ∧
    (∀ index v, i = .fbwr index v → OnlyChanges [.buffer, .bit .busy] s t ∧
      (Memory.wf s.cfg.frameLen s.fb = true → ∀ a, ¬(a = index ∧ index < s.cfg.frameLen) →
        Memory.read t.fb a = Memory.read s.fb a))

/-- R62: a repeated `FBWR` of the same value, and a repeated `FBCLR`, change nothing. -/
def Obligations.PortCommandsAreIdempotent : Prop :=
  ∀ (i : Instr) (s t : State), i = .fbclr ∨ (∃ index v, i = .fbwr index v) → Idle s → s.inputs = [] →
    Memory.wf s.cfg.frameLen s.fb = true → exec i s = .next t → exec i t = .next t

/-! ### The machine as a whole -/

/-- THE INVARIANT: the frame buffer keeps its canonical form within FRAME_LEN (R50), BUSY tells whether a command
runs (R30), the reserved STATUS bits read as 0 (R27), and the trace is in order of time and tells the two drivers
(R24). Every step keeps it. The canonical form is the model's (notes/assumptions/14). -/
def Obligations.StepKeepsInvariant : Prop :=
  ∀ s t : State, Inv s → step s = .next t → Inv t

/-- The state after reset meets the invariant, and the one of `BufferFrozenWhileBusy`. -/
def Obligations.ResetMeetsInvariant : Prop := Inv State.reset ∧ RunningLeavesBuffer State.reset

/-- R20, R24 and R26: no step changes the configuration, and none but a reset removes an event or turns the time
back. -/
def Obligations.StepKeepsHistory : Prop :=
  ∀ s t : State, step s = .next t →
    t.cfg = s.cfg ∧
    (((∃ es, t.trace = s.trace ++ es) ∧ s.now ≤ t.now) ∨
      ∃ k rest, s.inputs = ⟨k, .reset⟩ :: rest ∧ lands s ⟨k, .reset⟩ = true)

/-- R64 and R52: while BUSY no step but a reset changes the frame buffer, since no command that is still running
writes it; every step keeps that so. -/
def Obligations.BufferFrozenWhileBusy : Prop :=
  ∀ s t : State, RunningLeavesBuffer s → step s = .next t →
    RunningLeavesBuffer t ∧
    (s.flag .busy = true →
      (∀ a, Memory.read t.fb a = Memory.read s.fb a) ∨
        ∃ k rest, s.inputs = ⟨k, .reset⟩ :: rest ∧ lands s ⟨k, .reset⟩ = true)

/-- R249 (the spec's own inference):
every command with every byte acknowledged completes; the events it appends and the time it takes, a
minimum that is exact under EXACT_TIMING; and the figures for this hardware, in microseconds and events. -/
def Obligations.CommandDurations : Prop :=
  (∀ (i : Instr) (s : State), ReadyFor i s → AllAck s (sampleCount s.cfg i) →
    ∃ t, exec i s = .next t ∧ t.seq = .idle ∧ t.flag .busy = false ∧
      t.trace.length = s.trace.length + maxSteps s.cfg i ∧ s.now + nominalTime s.cfg i ≤ t.now ∧
      (s.cfg.exactTiming = true → t.now = s.now + nominalTime s.cfg i)) ∧
  (∀ a d : Byte, nominalTime Cfg.thisHardware (.wrtxn1 a d) = 1200 ∧ maxSteps Cfg.thisHardware (.wrtxn1 a d) = 123 ∧
    nominalTime Cfg.thisHardware (.wrtxnf a) = 78960 ∧ maxSteps Cfg.thisHardware (.wrtxnf a) = 8043) ∧
  nominalTime Cfg.thisHardware .sendf = 88753 ∧ maxSteps Cfg.thisHardware .sendf = 9036 ∧
  (∀ n, 1 ≤ n → nominalTime Cfg.thisHardware (.pushf n) = n * 88753 + (n - 1) * 2000 ∧
    maxSteps Cfg.thisHardware (.pushf n) = 9036 * n + (n - 1)) ∧
  nominalTime Cfg.thisHardware (.pushf 8) = 724024 ∧ nominalTime Cfg.thisHardware (.pushf 255) = 23140015

/-- R213 and R247: no answer of the peripheral stops a command or lengthens it. Whatever it answers, a command ends,
with no more events than it has when every byte is acknowledged, and under EXACT_TIMING no later. -/
def Obligations.NoAnswerLengthensCommand : Prop :=
  ∀ (i : Instr) (s : State), ReadyFor i s →
    ∃ t, exec i s = .next t ∧ t.seq = .idle ∧ t.flag .busy = false ∧
      t.trace.length ≤ s.trace.length + maxSteps s.cfg i ∧ s.now ≤ t.now ∧
      (s.cfg.exactTiming = true → t.now ≤ s.now + nominalTime s.cfg i)

/-- R204 and R247: a command is not disturbed by a write that lands while it runs. Let the write land before the
command's step `k`. If the command has no step `k`, it ends first. Else it stops there, BUSY, with `k` events appended;
the next step refuses the write, whatever word it is; and the step after it takes the command to the very end that it
has without the write, but for F_BUSY. Where the write lands is the model's choice (notes/assumptions/2). -/
def Obligations.InterruptedCommandRunsOn : Prop :=
  ∀ (i : Instr) (s : State) (k : Nat) (w : CmdWord), Idle s → s.inputs = [] →
    ∃ t u, exec i s = .next t ∧ exec i { s with inputs := [⟨k, .write w⟩] } = .next u ∧ t.seq = .idle ∧
      (t.trace.length ≤ s.trace.length + k → u = { t with inputs := [⟨k, .write w⟩] }) ∧
      (s.trace.length + k < t.trace.length →
        (∃ r, u.seq = .running r ∧ r.cmd = i ∧ r.k = k) ∧ u.flag .busy = true ∧
          u.trace = t.trace.take (s.trace.length + k) ∧
          step u = .next (State.setFlag { u with inputs := [] } .fBusy true) ∧
          step (State.setFlag { u with inputs := [] } .fBusy true) = .next (t.setFlag .fBusy true))

/-- R214 and R208: the host may read STATUS while a command runs, here before its step `k`. It reads BUSY as 1, and the
command goes on to the very end that it has without the read. Where the read lands is the model's choice
(notes/assumptions/2). -/
def Obligations.PolledCommandRunsOn : Prop :=
  ∀ (i : Instr) (s : State) (k : Nat), Idle s → s.inputs = [] →
    ∃ t u, exec i s = .next t ∧ exec i { s with inputs := [⟨k, .readStatus⟩] } = .next u ∧ t.seq = .idle ∧
      (t.trace.length ≤ s.trace.length + k → u = { t with inputs := [⟨k, .readStatus⟩] }) ∧
      (s.trace.length + k < t.trace.length →
        (∃ r, u.seq = .running r ∧ r.cmd = i ∧ r.k = k) ∧ u.flag .busy = true ∧
          u.trace = t.trace.take (s.trace.length + k) ∧
          step u = .next { u with inputs := [], hostReads := s.hostReads ++ [u.status] } ∧
          step { u with inputs := [], hostReads := s.hostReads ++ [u.status] } =
            .next { t with hostReads := s.hostReads ++ [u.status] })

end Obligations
end

