-- ==== Sys2Proof/Laws/Encoding.lean ====
section
/-! SUPPORT. The fields of a command word, and the decoder on a word of given fields. -/

namespace Sys2Proof

theorem toNat_mkWord (op a b : Byte) : (mkWord op a b).toNat = op.toNat * 65536 + a.toNat * 256 + b.toNat := by
  have h1 := op.isLt
  have h2 := a.isLt
  have h3 := b.isLt
  simp only [mkWord, BitVec.toNat_append, Nat.shiftLeft_eq]
  rw [Nat.mul_comm (_ : ℕ) (2 ^ 8), ← Nat.two_pow_add_eq_or_of_lt h3, Nat.mul_comm (_ : ℕ) (2 ^ 8),
    ← Nat.two_pow_add_eq_or_of_lt h2]
  omega

theorem toNat_opField (w : CmdWord) : (opField w).toNat = w.toNat / 65536 := by
  have := w.isLt
  simp only [opField, BitVec.extractLsb'_toNat, Nat.shiftRight_eq_div_pow]
  exact Nat.mod_eq_of_lt (by omega)

theorem toNat_aField (w : CmdWord) : (aField w).toNat = w.toNat / 256 % 256 := by
  simp only [aField, BitVec.extractLsb'_toNat, Nat.shiftRight_eq_div_pow]

theorem toNat_bField (w : CmdWord) : (bField w).toNat = w.toNat % 256 := by
  simp [bField, BitVec.extractLsb'_toNat]

@[simp] theorem opField_mkWord (op a b : Byte) : opField (mkWord op a b) = op := by
  apply BitVec.eq_of_toNat_eq
  have h1 := op.isLt
  have h2 := a.isLt
  have h3 := b.isLt
  rw [toNat_opField, toNat_mkWord]; omega

@[simp] theorem aField_mkWord (op a b : Byte) : aField (mkWord op a b) = a := by
  apply BitVec.eq_of_toNat_eq
  have h2 := a.isLt
  have h3 := b.isLt
  rw [toNat_aField, toNat_mkWord]; omega

@[simp] theorem bField_mkWord (op a b : Byte) : bField (mkWord op a b) = b := by
  apply BitVec.eq_of_toNat_eq
  have h3 := b.isLt
  rw [toNat_bField, toNat_mkWord]; omega

/-- A word is its three fields. -/
theorem mkWord_fields (w : CmdWord) : mkWord (opField w) (aField w) (bField w) = w := by
  apply BitVec.eq_of_toNat_eq
  rw [toNat_mkWord, toNat_opField, toNat_aField, toNat_bField]
  omega

/-- Two words are equal if their fields are. -/
theorem word_ext {v w : CmdWord} (h1 : opField v = opField w) (h2 : aField v = aField w)
    (h3 : bField v = bField w) : v = w := by
  rw [← mkWord_fields v, ← mkWord_fields w, h1, h2, h3]

theorem opField_and (v w : CmdWord) : opField (v &&& w) = opField v &&& opField w := by
  ext i hi; simp [opField]

theorem aField_and (v w : CmdWord) : aField (v &&& w) = aField v &&& aField w := by
  ext i hi; simp [aField]

theorem bField_and (v w : CmdWord) : bField (v &&& w) = bField v &&& bField w := by
  ext i hi; simp [bField]

@[simp] theorem byte_and_ff (x : Byte) : x &&& 255#8 = x := BitVec.and_allOnes

/-- A row of the opcode table, field by field. -/
theorem covers_iff (r : OpcodeRow) (w : CmdWord) :
    r.covers w = true ↔ opField w &&& opField r.mask = opField r.pattern ∧
      aField w &&& aField r.mask = aField r.pattern ∧ bField w &&& bField r.mask = bField r.pattern := by
  rw [OpcodeRow.covers, beq_iff_eq]
  constructor
  · intro h
    rw [← h]
    exact ⟨(opField_and _ _).symm, (aField_and _ _).symm, (bField_and _ _).symm⟩
  · rintro ⟨h1, h2, h3⟩
    exact word_ext (by rw [opField_and, h1]) (by rw [aField_and, h2]) (by rw [bField_and, h3])

/-- Rows that are apart cover no word together. -/
theorem not_covers_of_apart {r t : OpcodeRow} (h : r.apart t = true) {w : CmdWord} (hr : r.covers w = true)
    (ht : t.covers w = true) : False := by
  simp only [OpcodeRow.covers, beq_iff_eq] at hr ht
  simp only [OpcodeRow.apart, bne_iff_ne] at h
  apply h
  rw [← hr, ← ht]
  ext i hi
  simp only [BitVec.getElem_and, BitVec.getElem_xor]
  cases w[i] <;> cases r.mask[i] <;> cases t.mask[i] <;> simp

theorem decode_mkWord (op a b : Byte) : decode (mkWord op a b) = decodeFields op a b := by simp [decode]

theorem toNat_encode (i : Instr) :
    (encode i).toNat = i.opcode.toNat * 65536 + i.operandA.toNat * 256 + i.operandB.toNat := toNat_mkWord _ _ _

/-- An operand that fits its field is read back from it. -/
theorem toNat_operand {n : Nat} (h : operandFits n = true) : (BitVec.ofNat 8 n).toNat = n := by
  rw [BitVec.toNat_ofNat]
  exact Nat.mod_eq_of_lt (by simpa [operandFits] using h)

theorem withFixed_ok {op : Byte} {zero : Bool} {i j : Instr} (h : withFixed op zero i = .ok j) :
    zero = true ∧ j = i := by
  unfold withFixed at h
  split at h
  · injection h with h; exact ⟨‹_›, h.symm⟩
  · cases h

/-- A fixed field that is not 0 is the only error of its row. -/
theorem withFixed_error {op : Byte} {zero : Bool} {i : Instr} :
    (∃ e, withFixed op zero i = .error e) ↔ zero = false := by
  unfold withFixed
  cases zero <;> simp

theorem decodeDelay_error {sel : Byte} : (∃ e, decodeDelay sel = .error e) ↔ 3 ≤ sel.toNat := by
  unfold decodeDelay
  rcases sel.toNat with _ | _ | _ | n <;> simp

theorem byte_eq_zero {x : Byte} : x = 0#8 ↔ x.toNat = 0 := by
  constructor
  · rintro rfl; rfl
  · intro h; exact BitVec.eq_of_toNat_eq h

theorem decodeDelay_ok {sel : Byte} {i : Instr} (h : decodeDelay sel = .ok i) :
    (sel = 0 ∧ i = .delayUnit) ∨ (sel = 1 ∧ i = .delayGap) ∨ (sel = 2 ∧ i = .delayPush) := by
  unfold decodeDelay at h
  split at h
  · rename_i hs; injection h with h; exact .inl ⟨BitVec.eq_of_toNat_eq hs, h.symm⟩
  · rename_i hs; injection h with h; exact .inr (.inl ⟨BitVec.eq_of_toNat_eq hs, h.symm⟩)
  · rename_i hs; injection h with h; exact .inr (.inr ⟨BitVec.eq_of_toNat_eq hs, h.symm⟩)
  · cases h

/-- WHAT A LEGAL WORD CAN BE: the rows of R71, with the fields that each fixes. -/
theorem decodeFields_ok {op a b : Byte} {i : Instr} (h : decodeFields op a b = .ok i) :
    op = i.opcode ∧ a = i.operandA ∧ b = i.operandB ∧ i.wellFormed = true := by
  have hop : ∀ n, n < 256 → op.toNat = n → op = BitVec.ofNat 8 n := fun n hn h => by
    apply BitVec.eq_of_toNat_eq; rw [h, BitVec.toNat_ofNat, Nat.mod_eq_of_lt hn]
  unfold decodeFields at h
  split at h <;> first
    | (rename_i hn
       obtain ⟨hz, rfl⟩ := withFixed_ok h
       have := hop _ (by decide) hn
       simp only [Bool.and_eq_true, beq_iff_eq] at hz
       simp [Instr.opcode, Instr.operandA, Instr.operandB, Instr.wellFormed, operandFits, this, hz, b.isLt])
    | (rename_i hn
       injection h with h
       subst h
       have := hop _ (by decide) hn
       simp [Instr.opcode, Instr.operandA, Instr.operandB, Instr.wellFormed, operandFits, this, a.isLt])
    | cases h
    | skip
  rename_i hn
  have := hop _ (by decide) hn
  split at h
  · rename_i hb
    obtain ⟨rfl, rfl⟩ | ⟨rfl, rfl⟩ | ⟨rfl, rfl⟩ := decodeDelay_ok h <;>
      simp_all [Instr.opcode, Instr.operandA, Instr.operandB, Instr.wellFormed]
  · cases h

namespace Machine

/-! ### The assembler -/

theorem lookUp_selector {cs : List Char} {v : Nat} (h : lookUp cs selectorTable = some v) : v ≤ 2 := by
  simp only [selectorTable, lookUp] at h
  split_ifs at h <;> simp_all
  all_goals omega

theorem operandValue_lt {named : Bool} {cs : List Char} {v : Nat} (h : operandValue named cs = some v) :
    v < 256 := by
  unfold operandValue at h
  split at h
  · rename_i hv
    injection h with h
    subst h
    cases named with
    | false => cases hv
    | true => have := lookUp_selector hv; omega
  · split at h
    · split at h
      · injection h with h; omega
      · cases h
    · cases h

/-- R74: every operand that assembles is in 0 to 255. -/
theorem operandValues_lt {named : Bool} {l : List (List Char)} {vs : List Nat}
    (h : operandValues named l = some vs) : ∀ v ∈ vs, v < 256 := by
  induction l generalizing vs with
  | nil => rw [operandValues] at h; injection h with h; subst h; simp
  | cons x l ih =>
    rw [operandValues] at h
    split at h
    · rename_i v vs' h1 h2
      injection h with h
      subst h
      intro u hu
      rcases List.mem_cons.1 hu with rfl | hu
      · exact operandValue_lt h1
      · exact ih h2 u hu
    · cases h

end Machine

end Sys2Proof
end

