-- ==== Sys2Proof/Laws/State.lean ====
section
/-! SUPPORT. The fields of the state after each update: one lemma per field per update, so that no proof unfolds a
record update. -/

namespace Sys2Proof.Machine

variable (s : State)

section

variable (f : StatusBit) (b : Bool)

@[simp] theorem setFlag_cfg : (s.setFlag f b).cfg = s.cfg := rfl
@[simp] theorem setFlag_drvC : (s.setFlag f b).drvC = s.drvC := rfl
@[simp] theorem setFlag_drvD : (s.setFlag f b).drvD = s.drvD := rfl
@[simp] theorem setFlag_now : (s.setFlag f b).now = s.now := rfl
@[simp] theorem setFlag_trace : (s.setFlag f b).trace = s.trace := rfl
@[simp] theorem setFlag_status : (s.setFlag f b).status = statusPut s.status f b := rfl
@[simp] theorem setFlag_fb : (s.setFlag f b).fb = s.fb := rfl
@[simp] theorem setFlag_seq : (s.setFlag f b).seq = s.seq := rfl
@[simp] theorem setFlag_shift : (s.setFlag f b).shift = s.shift := rfl
@[simp] theorem setFlag_bitcnt : (s.setFlag f b).bitcnt = s.bitcnt := rfl
@[simp] theorem setFlag_inputs : (s.setFlag f b).inputs = s.inputs := rfl
@[simp] theorem setFlag_hostReads : (s.setFlag f b).hostReads = s.hostReads := rfl
@[simp] theorem setFlag_peripheral : (s.setFlag f b).peripheral = s.peripheral := rfl
@[simp] theorem setFlag_samples : (s.setFlag f b).samples = s.samples := rfl
@[simp] theorem setFlag_draws : (s.setFlag f b).draws = s.draws := rfl

end

section

variable (q : Seq)

@[simp] theorem withSeq_cfg : (withSeq q s).cfg = s.cfg := rfl
@[simp] theorem withSeq_drvC : (withSeq q s).drvC = s.drvC := rfl
@[simp] theorem withSeq_drvD : (withSeq q s).drvD = s.drvD := rfl
@[simp] theorem withSeq_now : (withSeq q s).now = s.now := rfl
@[simp] theorem withSeq_trace : (withSeq q s).trace = s.trace := rfl
@[simp] theorem withSeq_status : (withSeq q s).status = s.status := rfl
@[simp] theorem withSeq_fb : (withSeq q s).fb = s.fb := rfl
@[simp] theorem withSeq_seq : (withSeq q s).seq = q := rfl
@[simp] theorem withSeq_shift : (withSeq q s).shift = s.shift := rfl
@[simp] theorem withSeq_bitcnt : (withSeq q s).bitcnt = s.bitcnt := rfl
@[simp] theorem withSeq_inputs : (withSeq q s).inputs = s.inputs := rfl
@[simp] theorem withSeq_hostReads : (withSeq q s).hostReads = s.hostReads := rfl
@[simp] theorem withSeq_peripheral : (withSeq q s).peripheral = s.peripheral := rfl
@[simp] theorem withSeq_samples : (withSeq q s).samples = s.samples := rfl
@[simp] theorem withSeq_draws : (withSeq q s).draws = s.draws := rfl

end

section

@[simp] theorem latency_cfg : (latency s).cfg = s.cfg := rfl
@[simp] theorem latency_drvC : (latency s).drvC = s.drvC := rfl
@[simp] theorem latency_drvD : (latency s).drvD = s.drvD := rfl
theorem latency_now : (latency s).now = s.now + (if s.cfg.exactTiming then 0 else Config.lineLatency s.draws) := rfl
@[simp] theorem latency_trace : (latency s).trace = s.trace := rfl
@[simp] theorem latency_status : (latency s).status = s.status := rfl
@[simp] theorem latency_fb : (latency s).fb = s.fb := rfl
@[simp] theorem latency_seq : (latency s).seq = s.seq := rfl
@[simp] theorem latency_shift : (latency s).shift = s.shift := rfl
@[simp] theorem latency_bitcnt : (latency s).bitcnt = s.bitcnt := rfl
@[simp] theorem latency_inputs : (latency s).inputs = s.inputs := rfl
@[simp] theorem latency_hostReads : (latency s).hostReads = s.hostReads := rfl
@[simp] theorem latency_peripheral : (latency s).peripheral = s.peripheral := rfl
@[simp] theorem latency_samples : (latency s).samples = s.samples := rfl
@[simp] theorem latency_draws : (latency s).draws = s.draws + 1 := rfl

end

section

variable (l : Line) (v : Driver)

@[simp] theorem setDriver_cfg : (setDriver l v s).cfg = s.cfg := by cases l <;> rfl
@[simp] theorem setDriver_drvC : (setDriver l v s).drvC = if l = .clock then v else s.drvC := by cases l <;> rfl
@[simp] theorem setDriver_drvD : (setDriver l v s).drvD = if l = .data then v else s.drvD := by cases l <;> rfl
@[simp] theorem setDriver_now : (setDriver l v s).now = s.now := by cases l <;> rfl
@[simp] theorem setDriver_trace : (setDriver l v s).trace = s.trace := by cases l <;> rfl
@[simp] theorem setDriver_status : (setDriver l v s).status = s.status := by cases l <;> rfl
@[simp] theorem setDriver_fb : (setDriver l v s).fb = s.fb := by cases l <;> rfl
@[simp] theorem setDriver_seq : (setDriver l v s).seq = s.seq := by cases l <;> rfl
@[simp] theorem setDriver_shift : (setDriver l v s).shift = s.shift := by cases l <;> rfl
@[simp] theorem setDriver_bitcnt : (setDriver l v s).bitcnt = s.bitcnt := by cases l <;> rfl
@[simp] theorem setDriver_inputs : (setDriver l v s).inputs = s.inputs := by cases l <;> rfl
@[simp] theorem setDriver_hostReads : (setDriver l v s).hostReads = s.hostReads := by cases l <;> rfl
@[simp] theorem setDriver_peripheral : (setDriver l v s).peripheral = s.peripheral := by cases l <;> rfl
@[simp] theorem setDriver_samples : (setDriver l v s).samples = s.samples := by cases l <;> rfl
@[simp] theorem setDriver_draws : (setDriver l v s).draws = s.draws := by cases l <;> rfl

end

section

variable (e : Event)

@[simp] theorem record_cfg : (record e s).cfg = s.cfg := rfl
@[simp] theorem record_drvC : (record e s).drvC = s.drvC := rfl
@[simp] theorem record_drvD : (record e s).drvD = s.drvD := rfl
@[simp] theorem record_now : (record e s).now = s.now := rfl
@[simp] theorem record_trace : (record e s).trace = s.trace ++ [e] := rfl
@[simp] theorem record_status : (record e s).status = s.status := rfl
@[simp] theorem record_fb : (record e s).fb = s.fb := rfl
@[simp] theorem record_seq : (record e s).seq = s.seq := rfl
@[simp] theorem record_shift : (record e s).shift = s.shift := rfl
@[simp] theorem record_bitcnt : (record e s).bitcnt = s.bitcnt := rfl
@[simp] theorem record_inputs : (record e s).inputs = s.inputs := rfl
@[simp] theorem record_hostReads : (record e s).hostReads = s.hostReads := rfl
@[simp] theorem record_peripheral : (record e s).peripheral = s.peripheral := rfl
@[simp] theorem record_samples : (record e s).samples = s.samples := rfl
@[simp] theorem record_draws : (record e s).draws = s.draws := rfl

end

section

variable (l : Line) (v : Driver)

@[simp] theorem drive_cfg : (drive l v s).cfg = s.cfg := by cases l <;> rfl
@[simp] theorem drive_drvC : (drive l v s).drvC = if l = .clock then v else s.drvC := by cases l <;> rfl
@[simp] theorem drive_drvD : (drive l v s).drvD = if l = .data then v else s.drvD := by cases l <;> rfl
@[simp] theorem drive_now : (drive l v s).now = (latency s).now := by cases l <;> rfl
@[simp] theorem drive_trace : (drive l v s).trace = s.trace ++ [.drive (latency s).now l v] := by cases l <;> rfl
@[simp] theorem drive_status : (drive l v s).status = s.status := by cases l <;> rfl
@[simp] theorem drive_fb : (drive l v s).fb = s.fb := by cases l <;> rfl
@[simp] theorem drive_seq : (drive l v s).seq = s.seq := by cases l <;> rfl
@[simp] theorem drive_shift : (drive l v s).shift = s.shift := by cases l <;> rfl
@[simp] theorem drive_bitcnt : (drive l v s).bitcnt = s.bitcnt := by cases l <;> rfl
@[simp] theorem drive_inputs : (drive l v s).inputs = s.inputs := by cases l <;> rfl
@[simp] theorem drive_hostReads : (drive l v s).hostReads = s.hostReads := by cases l <;> rfl
@[simp] theorem drive_peripheral : (drive l v s).peripheral = s.peripheral := by cases l <;> rfl
@[simp] theorem drive_samples : (drive l v s).samples = s.samples := by cases l <;> rfl
@[simp] theorem drive_draws : (drive l v s).draws = s.draws + 1 := by cases l <;> rfl

end

section

variable (d : DelaySel)

@[simp] theorem waitFor_cfg : (waitFor d s).cfg = s.cfg := rfl
@[simp] theorem waitFor_drvC : (waitFor d s).drvC = s.drvC := rfl
@[simp] theorem waitFor_drvD : (waitFor d s).drvD = s.drvD := rfl
@[simp] theorem waitFor_now : (waitFor d s).now = waitEnd d s := rfl
@[simp] theorem waitFor_trace :
    (waitFor d s).trace = s.trace ++ [.wait s.now (waitEnd d s) (delayLength s.cfg d)] :=
  rfl
@[simp] theorem waitFor_status : (waitFor d s).status = s.status := rfl
@[simp] theorem waitFor_fb : (waitFor d s).fb = s.fb := rfl
@[simp] theorem waitFor_seq : (waitFor d s).seq = s.seq := rfl
@[simp] theorem waitFor_shift : (waitFor d s).shift = s.shift := rfl
@[simp] theorem waitFor_bitcnt : (waitFor d s).bitcnt = s.bitcnt := rfl
@[simp] theorem waitFor_inputs : (waitFor d s).inputs = s.inputs := rfl
@[simp] theorem waitFor_hostReads : (waitFor d s).hostReads = s.hostReads := rfl
@[simp] theorem waitFor_peripheral : (waitFor d s).peripheral = s.peripheral := rfl
@[simp] theorem waitFor_samples : (waitFor d s).samples = s.samples := rfl
@[simp] theorem waitFor_draws : (waitFor d s).draws = s.draws + 1 := rfl

end

section

@[simp] theorem takeAnswer_cfg : (takeAnswer s).cfg = s.cfg := rfl
@[simp] theorem takeAnswer_drvC : (takeAnswer s).drvC = s.drvC := rfl
@[simp] theorem takeAnswer_drvD : (takeAnswer s).drvD = s.drvD := rfl
@[simp] theorem takeAnswer_now : (takeAnswer s).now = s.now := rfl
@[simp] theorem takeAnswer_trace : (takeAnswer s).trace = s.trace := rfl
@[simp] theorem takeAnswer_status : (takeAnswer s).status = s.status := rfl
@[simp] theorem takeAnswer_fb : (takeAnswer s).fb = s.fb := rfl
@[simp] theorem takeAnswer_seq : (takeAnswer s).seq = s.seq := rfl
@[simp] theorem takeAnswer_shift : (takeAnswer s).shift = s.shift := rfl
@[simp] theorem takeAnswer_bitcnt : (takeAnswer s).bitcnt = s.bitcnt := rfl
@[simp] theorem takeAnswer_inputs : (takeAnswer s).inputs = s.inputs := rfl
@[simp] theorem takeAnswer_hostReads : (takeAnswer s).hostReads = s.hostReads := rfl
@[simp] theorem takeAnswer_peripheral : (takeAnswer s).peripheral = s.peripheral.tail := rfl
@[simp] theorem takeAnswer_samples : (takeAnswer s).samples = s.samples + 1 := rfl
@[simp] theorem takeAnswer_draws : (takeAnswer s).draws = s.draws := rfl

end

section

@[simp] theorem sample_cfg : (sample s).cfg = s.cfg := rfl
@[simp] theorem sample_drvC : (sample s).drvC = s.drvC := rfl
@[simp] theorem sample_drvD : (sample s).drvD = .rel := rfl
@[simp] theorem sample_now : (sample s).now = (latency s).now := rfl
@[simp] theorem sample_trace : (sample s).trace = s.trace ++ [.sample (latency s).now (sampledAt s 0)] := rfl
@[simp] theorem sample_status : (sample s).status = s.status := rfl
@[simp] theorem sample_fb : (sample s).fb = s.fb := rfl
@[simp] theorem sample_seq : (sample s).seq = s.seq := rfl
@[simp] theorem sample_shift : (sample s).shift = s.shift := rfl
@[simp] theorem sample_bitcnt : (sample s).bitcnt = s.bitcnt := rfl
@[simp] theorem sample_inputs : (sample s).inputs = s.inputs := rfl
@[simp] theorem sample_hostReads : (sample s).hostReads = s.hostReads := rfl
@[simp] theorem sample_peripheral : (sample s).peripheral = s.peripheral.tail := rfl
@[simp] theorem sample_samples : (sample s).samples = s.samples + 1 := rfl
@[simp] theorem sample_draws : (sample s).draws = s.draws + 1 := rfl

end

section

variable (v : Byte)

@[simp] theorem loadByte_cfg : (loadByte v s).cfg = s.cfg := rfl
@[simp] theorem loadByte_drvC : (loadByte v s).drvC = s.drvC := rfl
@[simp] theorem loadByte_drvD : (loadByte v s).drvD = s.drvD := rfl
@[simp] theorem loadByte_now : (loadByte v s).now = s.now := rfl
@[simp] theorem loadByte_trace : (loadByte v s).trace = s.trace := rfl
@[simp] theorem loadByte_status : (loadByte v s).status = s.status := rfl
@[simp] theorem loadByte_fb : (loadByte v s).fb = s.fb := rfl
@[simp] theorem loadByte_seq : (loadByte v s).seq = s.seq := rfl
@[simp] theorem loadByte_shift : (loadByte v s).shift = v := rfl
@[simp] theorem loadByte_bitcnt : (loadByte v s).bitcnt = 0 := rfl
@[simp] theorem loadByte_inputs : (loadByte v s).inputs = s.inputs := rfl
@[simp] theorem loadByte_hostReads : (loadByte v s).hostReads = s.hostReads := rfl
@[simp] theorem loadByte_peripheral : (loadByte v s).peripheral = s.peripheral := rfl
@[simp] theorem loadByte_samples : (loadByte v s).samples = s.samples := rfl
@[simp] theorem loadByte_draws : (loadByte v s).draws = s.draws := rfl

end

section

@[simp] theorem shiftLeft_cfg : (shiftLeft s).cfg = s.cfg := rfl
@[simp] theorem shiftLeft_drvC : (shiftLeft s).drvC = s.drvC := rfl
@[simp] theorem shiftLeft_drvD : (shiftLeft s).drvD = s.drvD := rfl
@[simp] theorem shiftLeft_now : (shiftLeft s).now = s.now := rfl
@[simp] theorem shiftLeft_trace : (shiftLeft s).trace = s.trace := rfl
@[simp] theorem shiftLeft_status : (shiftLeft s).status = s.status := rfl
@[simp] theorem shiftLeft_fb : (shiftLeft s).fb = s.fb := rfl
@[simp] theorem shiftLeft_seq : (shiftLeft s).seq = s.seq := rfl
@[simp] theorem shiftLeft_shift : (shiftLeft s).shift = s.shift <<< 1 := rfl
@[simp] theorem shiftLeft_bitcnt :
    (shiftLeft s).bitcnt = if h : s.bitcnt.val < 8 then ⟨s.bitcnt.val + 1, by omega⟩ else s.bitcnt :=
  rfl
@[simp] theorem shiftLeft_inputs : (shiftLeft s).inputs = s.inputs := rfl
@[simp] theorem shiftLeft_hostReads : (shiftLeft s).hostReads = s.hostReads := rfl
@[simp] theorem shiftLeft_peripheral : (shiftLeft s).peripheral = s.peripheral := rfl
@[simp] theorem shiftLeft_samples : (shiftLeft s).samples = s.samples := rfl
@[simp] theorem shiftLeft_draws : (shiftLeft s).draws = s.draws := rfl

end

section

@[simp] theorem drawResults_cfg : (drawResults s).cfg = s.cfg := rfl
@[simp] theorem drawResults_drvC : (drawResults s).drvC = s.drvC := rfl
@[simp] theorem drawResults_drvD : (drawResults s).drvD = s.drvD := rfl
@[simp] theorem drawResults_now : (drawResults s).now = s.now := rfl
@[simp] theorem drawResults_trace : (drawResults s).trace = s.trace := rfl
@[simp] theorem drawResults_status :
    (drawResults s).status = statusPut (statusPut s.status .ack (Config.ackAfterPush s.draws)) .ok (Config.okAfterPush s.draws) :=
  rfl
@[simp] theorem drawResults_fb : (drawResults s).fb = s.fb := rfl
@[simp] theorem drawResults_seq : (drawResults s).seq = s.seq := rfl
@[simp] theorem drawResults_shift : (drawResults s).shift = s.shift := rfl
@[simp] theorem drawResults_bitcnt : (drawResults s).bitcnt = s.bitcnt := rfl
@[simp] theorem drawResults_inputs : (drawResults s).inputs = s.inputs := rfl
@[simp] theorem drawResults_hostReads : (drawResults s).hostReads = s.hostReads := rfl
@[simp] theorem drawResults_peripheral : (drawResults s).peripheral = s.peripheral := rfl
@[simp] theorem drawResults_samples : (drawResults s).samples = s.samples := rfl
@[simp] theorem drawResults_draws : (drawResults s).draws = s.draws + 1 := rfl

end

section

@[simp] theorem clearFb_cfg : (clearFb s).cfg = s.cfg := rfl
@[simp] theorem clearFb_drvC : (clearFb s).drvC = s.drvC := rfl
@[simp] theorem clearFb_drvD : (clearFb s).drvD = s.drvD := rfl
@[simp] theorem clearFb_now : (clearFb s).now = s.now := rfl
@[simp] theorem clearFb_trace : (clearFb s).trace = s.trace := rfl
@[simp] theorem clearFb_status : (clearFb s).status = s.status := rfl
@[simp] theorem clearFb_fb : (clearFb s).fb = [] := rfl
@[simp] theorem clearFb_seq : (clearFb s).seq = s.seq := rfl
@[simp] theorem clearFb_shift : (clearFb s).shift = s.shift := rfl
@[simp] theorem clearFb_bitcnt : (clearFb s).bitcnt = s.bitcnt := rfl
@[simp] theorem clearFb_inputs : (clearFb s).inputs = s.inputs := rfl
@[simp] theorem clearFb_hostReads : (clearFb s).hostReads = s.hostReads := rfl
@[simp] theorem clearFb_peripheral : (clearFb s).peripheral = s.peripheral := rfl
@[simp] theorem clearFb_samples : (clearFb s).samples = s.samples := rfl
@[simp] theorem clearFb_draws : (clearFb s).draws = s.draws := rfl

end

section

variable (a : Nat) (v : Byte)

@[simp] theorem writeFb_cfg : (writeFb a v s).cfg = s.cfg := by unfold writeFb; split <;> rfl
@[simp] theorem writeFb_drvC : (writeFb a v s).drvC = s.drvC := by unfold writeFb; split <;> rfl
@[simp] theorem writeFb_drvD : (writeFb a v s).drvD = s.drvD := by unfold writeFb; split <;> rfl
@[simp] theorem writeFb_now : (writeFb a v s).now = s.now := by unfold writeFb; split <;> rfl
@[simp] theorem writeFb_trace : (writeFb a v s).trace = s.trace := by unfold writeFb; split <;> rfl
@[simp] theorem writeFb_status : (writeFb a v s).status = s.status := by unfold writeFb; split <;> rfl
@[simp] theorem writeFb_fb :
    (writeFb a v s).fb = if a < s.cfg.frameLen then Memory.write s.fb a v else s.fb :=
  by unfold writeFb; split <;> rfl
@[simp] theorem writeFb_seq : (writeFb a v s).seq = s.seq := by unfold writeFb; split <;> rfl
@[simp] theorem writeFb_shift : (writeFb a v s).shift = s.shift := by unfold writeFb; split <;> rfl
@[simp] theorem writeFb_bitcnt : (writeFb a v s).bitcnt = s.bitcnt := by unfold writeFb; split <;> rfl
@[simp] theorem writeFb_inputs : (writeFb a v s).inputs = s.inputs := by unfold writeFb; split <;> rfl
@[simp] theorem writeFb_hostReads : (writeFb a v s).hostReads = s.hostReads := by unfold writeFb; split <;> rfl
@[simp] theorem writeFb_peripheral : (writeFb a v s).peripheral = s.peripheral := by unfold writeFb; split <;> rfl
@[simp] theorem writeFb_samples : (writeFb a v s).samples = s.samples := by unfold writeFb; split <;> rfl
@[simp] theorem writeFb_draws : (writeFb a v s).draws = s.draws := by unfold writeFb; split <;> rfl

end

section

variable (kind : FaultKind)

@[simp] theorem raiseFault_cfg : (raiseFault kind s).cfg = s.cfg := rfl
@[simp] theorem raiseFault_drvC : (raiseFault kind s).drvC = s.drvC := rfl
@[simp] theorem raiseFault_drvD : (raiseFault kind s).drvD = s.drvD := rfl
@[simp] theorem raiseFault_now : (raiseFault kind s).now = s.now := rfl
@[simp] theorem raiseFault_trace : (raiseFault kind s).trace = s.trace := rfl
@[simp] theorem raiseFault_status : (raiseFault kind s).status = statusPut s.status (faultBit kind) true := rfl
@[simp] theorem raiseFault_fb : (raiseFault kind s).fb = s.fb := rfl
@[simp] theorem raiseFault_seq : (raiseFault kind s).seq = s.seq := rfl
@[simp] theorem raiseFault_shift : (raiseFault kind s).shift = s.shift := rfl
@[simp] theorem raiseFault_bitcnt : (raiseFault kind s).bitcnt = s.bitcnt := rfl
@[simp] theorem raiseFault_inputs : (raiseFault kind s).inputs = s.inputs := rfl
@[simp] theorem raiseFault_hostReads : (raiseFault kind s).hostReads = s.hostReads := rfl
@[simp] theorem raiseFault_peripheral : (raiseFault kind s).peripheral = s.peripheral := rfl
@[simp] theorem raiseFault_samples : (raiseFault kind s).samples = s.samples := rfl
@[simp] theorem raiseFault_draws : (raiseFault kind s).draws = s.draws := rfl

end

section

@[simp] theorem resetBlock_cfg : (resetBlock s).cfg = s.cfg := rfl
@[simp] theorem resetBlock_drvC : (resetBlock s).drvC = .rel := rfl
@[simp] theorem resetBlock_drvD : (resetBlock s).drvD = .rel := rfl
@[simp] theorem resetBlock_now : (resetBlock s).now = 0 := rfl
@[simp] theorem resetBlock_trace : (resetBlock s).trace = [] := rfl
@[simp] theorem resetBlock_status : (resetBlock s).status = 0x00 := rfl
@[simp] theorem resetBlock_fb : (resetBlock s).fb = [] := rfl
@[simp] theorem resetBlock_seq : (resetBlock s).seq = .idle := rfl
@[simp] theorem resetBlock_shift : (resetBlock s).shift = Config.shiftAfterReset s.draws := rfl
@[simp] theorem resetBlock_bitcnt : (resetBlock s).bitcnt = Config.bitcntAfterReset s.draws := rfl
@[simp] theorem resetBlock_inputs : (resetBlock s).inputs = s.inputs := rfl
@[simp] theorem resetBlock_hostReads : (resetBlock s).hostReads = s.hostReads := rfl
@[simp] theorem resetBlock_peripheral : (resetBlock s).peripheral = s.peripheral := rfl
@[simp] theorem resetBlock_samples : (resetBlock s).samples = s.samples := rfl
@[simp] theorem resetBlock_draws : (resetBlock s).draws = s.draws + 1 := rfl

end

section

variable (i : Instr) (todo : List Task)

@[simp] theorem accept_cfg : (accept i todo s).cfg = s.cfg := rfl
@[simp] theorem accept_drvC : (accept i todo s).drvC = s.drvC := rfl
@[simp] theorem accept_drvD : (accept i todo s).drvD = s.drvD := rfl
@[simp] theorem accept_now : (accept i todo s).now = s.now := rfl
@[simp] theorem accept_trace : (accept i todo s).trace = s.trace := rfl
@[simp] theorem accept_status : (accept i todo s).status = statusPut s.status .busy true := rfl
@[simp] theorem accept_fb : (accept i todo s).fb = s.fb := rfl
@[simp] theorem accept_seq : (accept i todo s).seq = .running { cmd := i, k := 0, ret := false, todo := todo } := rfl
@[simp] theorem accept_shift : (accept i todo s).shift = s.shift := rfl
@[simp] theorem accept_bitcnt : (accept i todo s).bitcnt = s.bitcnt := rfl
@[simp] theorem accept_inputs : (accept i todo s).inputs = s.inputs := rfl
@[simp] theorem accept_hostReads : (accept i todo s).hostReads = s.hostReads := rfl
@[simp] theorem accept_peripheral : (accept i todo s).peripheral = s.peripheral := rfl
@[simp] theorem accept_samples : (accept i todo s).samples = s.samples := rfl
@[simp] theorem accept_draws : (accept i todo s).draws = s.draws := rfl

end

section

@[simp] theorem complete_cfg : (complete s).cfg = s.cfg := rfl
@[simp] theorem complete_drvC : (complete s).drvC = s.drvC := rfl
@[simp] theorem complete_drvD : (complete s).drvD = s.drvD := rfl
@[simp] theorem complete_now : (complete s).now = s.now := rfl
@[simp] theorem complete_trace : (complete s).trace = s.trace := rfl
@[simp] theorem complete_status : (complete s).status = statusPut s.status .busy false := rfl
@[simp] theorem complete_fb : (complete s).fb = s.fb := rfl
@[simp] theorem complete_seq : (complete s).seq = .idle := rfl
@[simp] theorem complete_shift : (complete s).shift = s.shift := rfl
@[simp] theorem complete_bitcnt : (complete s).bitcnt = s.bitcnt := rfl
@[simp] theorem complete_inputs : (complete s).inputs = s.inputs := rfl
@[simp] theorem complete_hostReads : (complete s).hostReads = s.hostReads := rfl
@[simp] theorem complete_peripheral : (complete s).peripheral = s.peripheral := rfl
@[simp] theorem complete_samples : (complete s).samples = s.samples := rfl
@[simp] theorem complete_draws : (complete s).draws = s.draws := rfl

end

section

@[simp] theorem hostReadStatus_cfg : (hostReadStatus s).cfg = s.cfg := rfl
@[simp] theorem hostReadStatus_drvC : (hostReadStatus s).drvC = s.drvC := rfl
@[simp] theorem hostReadStatus_drvD : (hostReadStatus s).drvD = s.drvD := rfl
@[simp] theorem hostReadStatus_now : (hostReadStatus s).now = s.now := rfl
@[simp] theorem hostReadStatus_trace : (hostReadStatus s).trace = s.trace := rfl
@[simp] theorem hostReadStatus_status : (hostReadStatus s).status = s.status := rfl
@[simp] theorem hostReadStatus_fb : (hostReadStatus s).fb = s.fb := rfl
@[simp] theorem hostReadStatus_seq : (hostReadStatus s).seq = s.seq := rfl
@[simp] theorem hostReadStatus_shift : (hostReadStatus s).shift = s.shift := rfl
@[simp] theorem hostReadStatus_bitcnt : (hostReadStatus s).bitcnt = s.bitcnt := rfl
@[simp] theorem hostReadStatus_inputs : (hostReadStatus s).inputs = s.inputs := rfl
@[simp] theorem hostReadStatus_hostReads : (hostReadStatus s).hostReads = s.hostReads ++ [s.status] := rfl
@[simp] theorem hostReadStatus_peripheral : (hostReadStatus s).peripheral = s.peripheral := rfl
@[simp] theorem hostReadStatus_samples : (hostReadStatus s).samples = s.samples := rfl
@[simp] theorem hostReadStatus_draws : (hostReadStatus s).draws = s.draws := rfl

end

section

variable (w : CmdWord)

@[simp] theorem presentWord_cfg : (presentWord w s).cfg = s.cfg := rfl
@[simp] theorem presentWord_drvC : (presentWord w s).drvC = s.drvC := rfl
@[simp] theorem presentWord_drvD : (presentWord w s).drvD = s.drvD := rfl
@[simp] theorem presentWord_now : (presentWord w s).now = s.now := rfl
@[simp] theorem presentWord_trace : (presentWord w s).trace = s.trace := rfl
@[simp] theorem presentWord_status : (presentWord w s).status = statusPut s.status .busy false := rfl
@[simp] theorem presentWord_fb : (presentWord w s).fb = s.fb := rfl
@[simp] theorem presentWord_seq : (presentWord w s).seq = .idle := rfl
@[simp] theorem presentWord_shift : (presentWord w s).shift = s.shift := rfl
@[simp] theorem presentWord_bitcnt : (presentWord w s).bitcnt = s.bitcnt := rfl
@[simp] theorem presentWord_inputs : (presentWord w s).inputs = { after := 0, act := .write w } :: s.inputs := rfl
@[simp] theorem presentWord_hostReads : (presentWord w s).hostReads = s.hostReads := rfl
@[simp] theorem presentWord_peripheral : (presentWord w s).peripheral = s.peripheral := rfl
@[simp] theorem presentWord_samples : (presentWord w s).samples = s.samples := rfl
@[simp] theorem presentWord_draws : (presentWord w s).draws = s.draws := rfl

end

end Sys2Proof.Machine
end

