-- ==== Sys2Proof/Laws/Flags.lean ====
section
/-! SUPPORT. Reading and writing the bits of STATUS. -/

namespace Sys2Proof.Machine

theorem statusPos_inj {f g : StatusBit} (h : statusPos f = statusPos g) : f = g := by
  cases f <;> cases g <;> first | rfl | (simp [statusPos] at h)

theorem statusPos_lt (f : StatusBit) : statusPos f < 6 := by cases f <;> decide

/-- A bit written reads back, and every other bit of the register is unchanged, the reserved ones too. -/
theorem getLsbD_statusPut (w : Byte) (f : StatusBit) (b : Bool) (i : Nat) (hi : i < 8) :
    (statusPut w f b).getLsbD i = if i = statusPos f then b else w.getLsbD i := by
  have hf := statusPos_lt f
  have hone : (1#8 <<< statusPos f).getLsbD i = decide (i = statusPos f) := by
    rw [BitVec.getLsbD_shiftLeft]
    by_cases h : i = statusPos f
    · simp [h]; omega
    · by_cases h2 : i < statusPos f
      · simp [h, h2]
      · have : i - statusPos f ≠ 0 := by omega
        simp [h, h2, this]
  cases b
  · simp only [statusPut, Bool.false_eq_true, if_false, BitVec.getLsbD_and, BitVec.getLsbD_not, hone, hi]
    by_cases h : i = statusPos f <;> simp [h]
  · simp only [statusPut, if_true, BitVec.getLsbD_or, hone]
    by_cases h : i = statusPos f <;> simp [h]

@[simp] theorem statusGet_put (w : Byte) (f g : StatusBit) (b : Bool) :
    statusGet (statusPut w f b) g = if g = f then b else statusGet w g := by
  have hg := statusPos_lt g
  unfold statusGet
  rw [getLsbD_statusPut w f b _ (by omega)]
  by_cases h : g = f
  · simp [h]
  · have : statusPos g ≠ statusPos f := fun e => h (statusPos_inj e)
    simp [h, this]

/-- Two STATUS values with the same bits are the same. -/
theorem status_ext {v w : Byte} (h : ∀ f, statusGet v f = statusGet w f)
    (h6 : v.getLsbD 6 = w.getLsbD 6) (h7 : v.getLsbD 7 = w.getLsbD 7) : v = w := by
  apply BitVec.eq_of_getLsbD_eq
  intro i hi
  have h0 := h .busy; have h1 := h .ack; have h2 := h .ok
  have h3 := h .rdata; have h4 := h .fIllegal; have h5 := h .fBusy
  simp only [statusGet, statusPos] at h0 h1 h2 h3 h4 h5
  interval_cases i <;> assumption

/-- Writes of different bits commute. -/
theorem statusPut_comm (w : Byte) (f g : StatusBit) (b c : Bool) (h : f ≠ g) :
    statusPut (statusPut w f b) g c = statusPut (statusPut w g c) f b := by
  have hp : statusPos f ≠ statusPos g := fun e => h (statusPos_inj e)
  apply BitVec.eq_of_getLsbD_eq
  intro i hi
  simp only [getLsbD_statusPut _ _ _ _ hi]
  by_cases h1 : i = statusPos f <;> by_cases h2 : i = statusPos g <;> simp_all

/-- The later write of a bit wins. -/
@[simp] theorem statusPut_put (w : Byte) (f : StatusBit) (b c : Bool) :
    statusPut (statusPut w f b) f c = statusPut w f c := by
  apply BitVec.eq_of_getLsbD_eq
  intro i hi
  simp only [getLsbD_statusPut _ _ _ _ hi]
  split <;> rfl

/-- Writing the value that a bit has changes nothing. -/
theorem statusPut_same (w : Byte) (f : StatusBit) (b : Bool) (h : statusGet w f = b) : statusPut w f b = w := by
  apply BitVec.eq_of_getLsbD_eq
  intro i hi
  rw [getLsbD_statusPut _ _ _ _ hi]
  by_cases h1 : i = statusPos f
  · rw [if_pos h1, ← h, h1]; rfl
  · rw [if_neg h1]

@[simp] theorem flag_setFlag (s : State) (f g : StatusBit) (b : Bool) :
    (s.setFlag f b).flag g = if g = f then b else s.flag g := statusGet_put _ _ _ _

theorem flag_eq (s t : State) (f : StatusBit) (h : s.status = t.status) : s.flag f = t.flag f := by
  simp [State.flag, h]

section
variable (s : State) (f : StatusBit)

@[simp] theorem withSeq_flag (q : Seq) : (withSeq q s).flag f = s.flag f := rfl
@[simp] theorem latency_flag : (latency s).flag f = s.flag f := rfl
@[simp] theorem drive_flag (l : Line) (v : Driver) : (drive l v s).flag f = s.flag f := by cases l <;> rfl
@[simp] theorem waitFor_flag (d : DelaySel) : (waitFor d s).flag f = s.flag f := rfl
@[simp] theorem sample_flag : (sample s).flag f = s.flag f := rfl
@[simp] theorem loadByte_flag (v : Byte) : (loadByte v s).flag f = s.flag f := rfl
@[simp] theorem shiftLeft_flag : (shiftLeft s).flag f = s.flag f := rfl
@[simp] theorem clearFb_flag : (clearFb s).flag f = s.flag f := rfl
@[simp] theorem writeFb_flag (a : Nat) (v : Byte) : (writeFb a v s).flag f = s.flag f := by
  unfold writeFb; split <;> rfl
@[simp] theorem hostReadStatus_flag : (hostReadStatus s).flag f = s.flag f := rfl
@[simp] theorem raiseFault_flag (kind : FaultKind) :
    (raiseFault kind s).flag f = if f = faultBit kind then true else s.flag f := flag_setFlag _ _ _ _
@[simp] theorem accept_flag (i : Instr) (todo : List Task) :
    (accept i todo s).flag f = if f = .busy then true else s.flag f := flag_setFlag _ _ _ _
@[simp] theorem complete_flag : (complete s).flag f = if f = .busy then false else s.flag f :=
  flag_setFlag _ _ _ _
@[simp] theorem resetBlock_flag : (resetBlock s).flag f = false := by
  rw [State.flag, resetBlock_status]
  cases f <;> decide
@[simp] theorem drawResults_flag : (drawResults s).flag f =
    if f = .ok then Config.okAfterPush s.draws else if f = .ack then Config.ackAfterPush s.draws else s.flag f := by
  simp only [State.flag, drawResults_status, statusGet_put]

end

end Sys2Proof.Machine
end

