-- ==== Sys2Proof/Laws/Memory.lean ====
section
/-! SUPPORT. The frame buffer: reads after writes, and that every operation keeps the canonical form. -/

namespace Sys2Proof.Machine

theorem Memory.wfFrom_cons {lo n b : Nat} {w : Byte} {m : Memory} :
    Memory.wfFrom lo n ((b, w) :: m) = true ↔ lo ≤ b ∧ b < n ∧ w ≠ 0#8 ∧ Memory.wfFrom (b + 1) n m = true := by
  simp [Memory.wfFrom, and_assoc]

theorem Memory.wfFrom_mono {lo lo' n : Nat} {m : Memory} (h : lo' ≤ lo) (hm : Memory.wfFrom lo n m = true) :
    Memory.wfFrom lo' n m = true := by
  cases m with
  | nil => rfl
  | cons e m =>
    obtain ⟨b, w⟩ := e
    rw [Memory.wfFrom_cons] at hm ⊢
    exact ⟨by omega, hm.2⟩

/-- Below the first index that may be listed, every element reads 0. -/
theorem Memory.read_below {lo n a : Nat} {m : Memory} (hm : Memory.wfFrom lo n m = true) (ha : a < lo) :
    Memory.read m a = 0#8 := by
  induction m generalizing lo with
  | nil => rfl
  | cons e m ih =>
    obtain ⟨b, w⟩ := e
    rw [Memory.wfFrom_cons] at hm
    rw [Memory.read, if_neg (by omega), ih hm.2.2.2 (by omega)]

/-- A read after a write: the value written at its index, the old value everywhere else. -/
theorem Memory.read_write {lo n : Nat} {m : Memory} (hm : Memory.wfFrom lo n m = true) (a x : Nat) (v : Byte) :
    Memory.read (Memory.write m a v) x = if x = a then v else Memory.read m x := by
  induction m generalizing lo with
  | nil =>
    by_cases hv : v = 0#8 <;> by_cases hx : x = a <;> simp [Memory.write, Memory.read, hv, hx]
  | cons e m ih =>
    obtain ⟨b, w⟩ := e
    rw [Memory.wfFrom_cons] at hm
    obtain ⟨hlo, hb, hw, hm⟩ := hm
    rw [Memory.write]
    by_cases h1 : a < b
    · rw [if_pos h1]
      by_cases hv : v = 0#8
      · rw [if_pos hv]
        by_cases hx : x = a
        · have h0 : Memory.read m a = 0#8 := Memory.read_below hm (by omega)
          have hne : a ≠ b := by omega
          simp [Memory.read, hx, hne, h0, hv]
        · rw [if_neg hx]
      · rw [if_neg hv, Memory.read]
    · rw [if_neg h1]
      by_cases h2 : a = b
      · subst h2
        rw [if_pos rfl]
        by_cases hv : v = 0#8
        · rw [if_pos hv]
          by_cases hx : x = a
          · have h0 : Memory.read m a = 0#8 := Memory.read_below hm (by omega)
            simp [hx, h0, hv]
          · simp [Memory.read, hx]
        · rw [if_neg hv]
          by_cases hx : x = a <;> simp [Memory.read, hx]
      · rw [if_neg h2, Memory.read, Memory.read, ih hm]
        by_cases hx : x = b
        · have : x ≠ a := fun e => h2 (by omega)
          simp [hx, Ne.symm h2]
        · simp [hx]

/-- A write below the frame length keeps the canonical form. -/
theorem Memory.wfFrom_write {lo n a : Nat} {m : Memory} (hm : Memory.wfFrom lo n m = true) (ha : lo ≤ a)
    (hn : a < n) (v : Byte) : Memory.wfFrom lo n (Memory.write m a v) = true := by
  induction m generalizing lo with
  | nil =>
    by_cases hv : v = 0#8
    · simp [Memory.write, hv, Memory.wfFrom]
    · simp [Memory.write, hv, Memory.wfFrom, ha, hn]
  | cons e m ih =>
    obtain ⟨b, w⟩ := e
    have hm' := hm
    rw [Memory.wfFrom_cons] at hm
    obtain ⟨hlo, hb, hw, hrest⟩ := hm
    rw [Memory.write]
    by_cases h1 : a < b
    · rw [if_pos h1]
      by_cases hv : v = 0#8
      · rw [if_pos hv]; exact hm'
      · rw [if_neg hv, Memory.wfFrom_cons, Memory.wfFrom_cons]
        exact ⟨ha, hn, hv, by omega, hb, hw, hrest⟩
    · rw [if_neg h1]
      by_cases h2 : a = b
      · rw [if_pos h2]
        by_cases hv : v = 0#8
        · rw [if_pos hv]; exact Memory.wfFrom_mono (by omega) hrest
        · rw [if_neg hv, Memory.wfFrom_cons]
          exact ⟨ha, hn, hv, h2 ▸ hrest⟩
      · rw [if_neg h2, Memory.wfFrom_cons]
        exact ⟨hlo, hb, hw, ih hrest (by omega)⟩

theorem Memory.wf_write {n a : Nat} {m : Memory} (hm : Memory.wf n m = true) (hn : a < n) (v : Byte) :
    Memory.wf n (Memory.write m a v) = true := Memory.wfFrom_write hm (Nat.zero_le a) hn v

theorem Memory.wf_empty (n : Nat) : Memory.wf n [] = true := rfl

/-- In canonical form, equal contents are equal data. -/
theorem Memory.ext_of_wf {lo n : Nat} {m m' : Memory} (hm : Memory.wfFrom lo n m = true)
    (hm' : Memory.wfFrom lo n m' = true) (h : ∀ a, Memory.read m a = Memory.read m' a) : m = m' := by
  induction m generalizing lo m' with
  | nil =>
    cases m' with
    | nil => rfl
    | cons e m' =>
      obtain ⟨b, w⟩ := e
      rw [Memory.wfFrom_cons] at hm'
      exact absurd (by simpa [Memory.read] using (h b).symm) hm'.2.2.1
  | cons e m ih =>
    obtain ⟨b, w⟩ := e
    have hc := hm
    rw [Memory.wfFrom_cons] at hm
    cases m' with
    | nil => exact absurd (by simpa [Memory.read] using h b) hm.2.2.1
    | cons e' m' =>
      obtain ⟨b', w'⟩ := e'
      have hc' := hm'
      rw [Memory.wfFrom_cons] at hm'
      have hbb : b = b' := by
        rcases Nat.lt_trichotomy b b' with hlt | heq | hgt
        · have h0 : Memory.read ((b', w') :: m') b = 0#8 :=
            Memory.read_below (lo := b') (Memory.wfFrom_cons.2 ⟨by omega, hm'.2⟩) hlt
          have := h b
          rw [h0] at this
          exact absurd (by simpa [Memory.read] using this) hm.2.2.1
        · exact heq
        · have h0 : Memory.read ((b, w) :: m) b' = 0#8 :=
            Memory.read_below (lo := b) (Memory.wfFrom_cons.2 ⟨by omega, hm.2⟩) hgt
          have := h b'
          rw [h0] at this
          exact absurd (by simpa [Memory.read] using this.symm) hm'.2.2.1
      subst hbb
      have hww : w = w' := by simpa [Memory.read] using h b
      subst hww
      have hmm : m = m' := by
        apply ih hm.2.2.2 hm'.2.2.2
        intro a
        by_cases ha : a = b
        · rw [ha, Memory.read_below hm.2.2.2 (by omega), Memory.read_below hm'.2.2.2 (by omega)]
        · simpa [Memory.read, ha] using h a
      rw [hmm]

/-- A repeated write of the same value changes nothing (R62). -/
theorem Memory.write_write {n a : Nat} {m : Memory} (hm : Memory.wf n m = true) (ha : a < n) (v : Byte) :
    Memory.write (Memory.write m a v) a v = Memory.write m a v := by
  have h := Memory.wf_write hm ha v
  refine Memory.ext_of_wf (lo := 0) (n := n) (Memory.wf_write h ha v) h (fun x => ?_)
  rw [Memory.read_write h, Memory.read_write hm]
  split <;> rfl

end Sys2Proof.Machine
end

