-- ==== Sys2Proof/Laws/Pseudocode.lean ====
section
/-! SUPPORT. What the functions of Machine/Pseudocode.lean leave alone, and that they do not depend on the sequencer
or on STATUS.BUSY. -/

namespace Sys2Proof.Machine

/-- What no line of a transfer changes: the configuration, the frame buffer, the sequencer and the host's side. -/
structure Kept (s t : State) : Prop where
  cfg : t.cfg = s.cfg
  fb : t.fb = s.fb
  seq : t.seq = s.seq
  inputs : t.inputs = s.inputs
  hostReads : t.hostReads = s.hostReads

theorem Kept.refl (s : State) : Kept s s := ⟨rfl, rfl, rfl, rfl, rfl⟩

theorem Kept.trans {s t u : State} (h : Kept s t) (g : Kept t u) : Kept s u :=
  ⟨g.cfg.trans h.cfg, g.fb.trans h.fb, g.seq.trans h.seq, g.inputs.trans h.inputs, g.hostReads.trans h.hostReads⟩

theorem kept_drive (l : Line) (v : Driver) (s : State) : Kept s (drive l v s) := by constructor <;> simp
theorem kept_waitFor (d : DelaySel) (s : State) : Kept s (waitFor d s) := by constructor <;> simp
theorem kept_sample (s : State) : Kept s (sample s) := by constructor <;> simp
theorem kept_setFlag (f : StatusBit) (b : Bool) (s : State) : Kept s (s.setFlag f b) := by constructor <;> simp
theorem kept_loadByte (v : Byte) (s : State) : Kept s (loadByte v s) := by constructor <;> simp
theorem kept_shiftLeft (s : State) : Kept s (shiftLeft s) := by constructor <;> simp
theorem kept_drawResults (s : State) : Kept s (drawResults s) := by constructor <;> simp

theorem kept_startCond (s : State) : Kept s (startCond s) := by constructor <;> simp [startCond]
theorem kept_stopCond (s : State) : Kept s (stopCond s) := by constructor <;> simp [stopCond]
theorem kept_bitCycle (x : Bool) (s : State) : Kept s (bitCycle x s) := by constructor <;> simp [bitCycle]
theorem kept_beforeAck (s : State) : Kept s (beforeAck s) := by constructor <;> simp [beforeAck]
theorem kept_ackCycle (s : State) : Kept s (ackCycle s).2 := by constructor <;> simp [ackCycle, beforeAck]

theorem kept_sendBits (n : Nat) (s : State) : Kept s (sendBits n s) := by
  induction n generalizing s with
  | zero => rw [sendBits]; exact .refl s
  | succ n ih =>
    rw [sendBits]
    split
    · exact ((kept_bitCycle _ s).trans (kept_shiftLeft _)).trans (ih _)
    · exact .refl s

theorem kept_writeByte (v : Byte) (s : State) : Kept s (writeByte v s).2 := by
  have h1 := (kept_loadByte v s).trans (kept_sendBits 8 (loadByte v s))
  rw [writeByte]
  exact h1.trans (kept_ackCycle _)

theorem kept_sendBytes (vs : List Byte) (s : State) : Kept s (sendBytes vs s).2 := by
  induction vs generalizing s with
  | nil => rw [sendBytes]; exact kept_stopCond s
  | cons v vs ih =>
    rw [sendBytes]
    split
    · exact (kept_writeByte v s).trans (ih _)
    · exact (kept_writeByte v s).trans (kept_stopCond _)

theorem kept_writeTransaction (a : Byte) (p : List Byte) (s : State) : Kept s (writeTransaction a p s).2 := by
  rw [writeTransaction]
  exact (kept_startCond s).trans (kept_sendBytes _ _)

theorem kept_sendPreamble (vs : List Byte) (s : State) : Kept s (sendPreamble vs s).2 := by
  induction vs generalizing s with
  | nil => rw [sendPreamble]; exact (kept_waitFor .gap s).trans (kept_writeTransaction _ _ _)
  | cons v vs ih =>
    rw [sendPreamble]
    split
    · exact ((kept_writeTransaction _ _ s).trans (kept_waitFor .unit _)).trans (ih _)
    · exact kept_writeTransaction _ _ s

theorem kept_sendFrame (s : State) : Kept s (sendFrame s).2 := by rw [sendFrame]; exact kept_sendPreamble _ s

theorem kept_pushAttempts (n : Nat) (s : State) : Kept s (pushAttempts n s) := by
  induction n generalizing s with
  | zero => rw [pushAttempts]; exact .refl s
  | succ n ih =>
    rw [pushAttempts]
    split
    · exact (kept_sendFrame s).trans (ih _)
    · exact ((kept_sendFrame s).trans (kept_waitFor .push _)).trans (ih _)

/-- A function that neither looks at the sequencer or at STATUS.BUSY nor changes them. -/
structure Oblivious (f : State → State) : Prop where
  seq : ∀ s q, f (withSeq q s) = withSeq q (f s)
  busy : ∀ s b, f (s.setFlag .busy b) = (f s).setFlag .busy b

/-- The same for a function that also returns a result. -/
structure ObliviousR (f : State → Bool × State) : Prop where
  seq : ∀ s q, f (withSeq q s) = ((f s).1, withSeq q (f s).2)
  busy : ∀ s b, f (s.setFlag .busy b) = ((f s).1, (f s).2.setFlag .busy b)

theorem Oblivious.comp {f g : State → State} (hf : Oblivious f) (hg : Oblivious g) :
    Oblivious (fun s => g (f s)) :=
  ⟨fun s q => by rw [hf.seq, hg.seq], fun s b => by rw [hf.busy, hg.busy]⟩

theorem Oblivious.id : Oblivious (fun s => s) := ⟨fun _ _ => rfl, fun _ _ => rfl⟩

theorem oblivious_drive (l : Line) (v : Driver) : Oblivious (drive l v) := by
  constructor <;> intros <;> cases l <;> rfl
theorem oblivious_waitFor (d : DelaySel) : Oblivious (waitFor d) := by constructor <;> intros <;> rfl
theorem oblivious_sample : Oblivious sample := by constructor <;> intros <;> rfl
theorem oblivious_loadByte (v : Byte) : Oblivious (loadByte v) := by constructor <;> intros <;> rfl
theorem oblivious_shiftLeft : Oblivious shiftLeft := by constructor <;> intros <;> rfl
theorem oblivious_clearFb : Oblivious clearFb := by constructor <;> intros <;> rfl
theorem oblivious_writeFb (a : Nat) (v : Byte) : Oblivious (writeFb a v) := by
  constructor <;> intro s _ <;> by_cases h : a < s.cfg.frameLen <;> simp [writeFb, h] <;> rfl

theorem setFlag_comm (s : State) (f g : StatusBit) (b c : Bool) (h : f ≠ g) :
    (s.setFlag f b).setFlag g c = (s.setFlag g c).setFlag f b := by
  unfold State.setFlag
  simp only [statusPut_comm s.status f g b c h]

theorem oblivious_setFlag (f : StatusBit) (b : Bool) (h : f ≠ .busy) : Oblivious (fun s => s.setFlag f b) :=
  ⟨fun _ _ => rfl, fun s c => setFlag_comm s .busy f c b (Ne.symm h)⟩

theorem sampledAt_seq (s : State) (q : Seq) (i : Nat) : sampledAt (withSeq q s) i = sampledAt s i := rfl
theorem sampledAt_setFlag (s : State) (f : StatusBit) (b : Bool) (i : Nat) :
    sampledAt (s.setFlag f b) i = sampledAt s i := rfl

theorem oblivious_drawResults : Oblivious drawResults := by
  constructor
  · intros; rfl
  · intro s b
    unfold drawResults
    have h1 : (((s.setFlag .busy b).setFlag .ack (Config.ackAfterPush s.draws)).setFlag .ok
        (Config.okAfterPush s.draws)) = (((s.setFlag .ack (Config.ackAfterPush s.draws)).setFlag .ok
        (Config.okAfterPush s.draws)).setFlag .busy b) := by
      rw [setFlag_comm s .busy .ack _ _ (by decide), setFlag_comm _ .busy .ok _ _ (by decide)]
    simp only [setFlag_draws]
    rw [h1]
    rfl

theorem oblivious_startCond : Oblivious startCond := by
  unfold startCond
  exact (((((((oblivious_drive _ _).comp (oblivious_drive _ _)).comp (oblivious_waitFor _)).comp
    (oblivious_drive _ _)).comp (oblivious_waitFor _)).comp (oblivious_drive _ _)).comp (oblivious_waitFor _))

theorem oblivious_stopCond : Oblivious stopCond := by
  unfold stopCond
  exact ((((((oblivious_drive _ _).comp (oblivious_waitFor _)).comp (oblivious_drive _ _)).comp
    (oblivious_waitFor _)).comp (oblivious_drive _ _)).comp (oblivious_waitFor _))

theorem oblivious_bitCycle (x : Bool) : Oblivious (bitCycle x) := by
  unfold bitCycle
  exact ((((((oblivious_drive _ _).comp (oblivious_waitFor _)).comp (oblivious_drive _ _)).comp
    (oblivious_waitFor _)).comp (oblivious_drive _ _)).comp (oblivious_waitFor _))

theorem oblivious_beforeAck : Oblivious beforeAck := by
  unfold beforeAck
  exact ((((oblivious_drive _ _).comp (oblivious_waitFor _)).comp (oblivious_drive _ _)).comp (oblivious_waitFor _))

theorem oblivious_afterAck (b : Bool) :
    Oblivious (fun s => waitFor .unit (drive .clock .low ((sample s).setFlag .ack b))) :=
  ((oblivious_sample.comp (oblivious_setFlag .ack b (by decide))).comp (oblivious_drive _ _)).comp
    (oblivious_waitFor _)

theorem ackCycle_eq (s : State) : ackCycle s = (ackOfSample (sampledAt (beforeAck s) 0),
    waitFor .unit (drive .clock .low ((sample (beforeAck s)).setFlag .ack
      (ackOfSample (sampledAt (beforeAck s) 0))))) := by
  rw [ackCycle]

theorem obliviousR_ackCycle : ObliviousR ackCycle := by
  constructor
  · intro s q
    simp only [ackCycle_eq, oblivious_beforeAck.seq, sampledAt_seq]
    exact Prod.ext rfl ((oblivious_afterAck _).seq _ _)
  · intro s b
    simp only [ackCycle_eq, oblivious_beforeAck.busy, sampledAt_setFlag]
    exact Prod.ext rfl ((oblivious_afterAck _).busy _ _)

theorem oblivious_sendBits (n : Nat) : Oblivious (sendBits n) := by
  induction n with
  | zero => exact ⟨fun s q => by simp only [sendBits], fun s b => by simp only [sendBits]⟩
  | succ n ih =>
    constructor
    · intro s q
      have ht : topBit (withSeq q s) = topBit s := rfl
      simp only [sendBits, ht, (oblivious_bitCycle _).seq, oblivious_shiftLeft.seq, ih.seq, withSeq_bitcnt]
      split <;> rfl
    · intro s b
      have ht : topBit (s.setFlag .busy b) = topBit s := rfl
      simp only [sendBits, ht, (oblivious_bitCycle _).busy, oblivious_shiftLeft.busy, ih.busy, setFlag_bitcnt]
      split <;> rfl

theorem obliviousR_writeByte (v : Byte) : ObliviousR (writeByte v) := by
  constructor <;> intro s _ <;> unfold writeByte
  · rw [(oblivious_loadByte v).seq, (oblivious_sendBits 8).seq, obliviousR_ackCycle.seq]
  · rw [(oblivious_loadByte v).busy, (oblivious_sendBits 8).busy, obliviousR_ackCycle.busy]

theorem obliviousR_sendBytes (vs : List Byte) : ObliviousR (sendBytes vs) := by
  induction vs with
  | nil =>
    exact ⟨fun s q => by simp only [sendBytes, oblivious_stopCond.seq],
      fun s b => by simp only [sendBytes, oblivious_stopCond.busy]⟩
  | cons v vs ih =>
    constructor
    · intro s q
      simp only [sendBytes, (obliviousR_writeByte v).seq, ih.seq, oblivious_stopCond.seq]
      split <;> rfl
    · intro s b
      simp only [sendBytes, (obliviousR_writeByte v).busy, ih.busy, oblivious_stopCond.busy]
      split <;> rfl

theorem obliviousR_writeTransaction (a : Byte) (p : List Byte) : ObliviousR (writeTransaction a p) := by
  constructor <;> intro s _ <;> unfold writeTransaction
  · rw [oblivious_startCond.seq, (obliviousR_sendBytes _).seq]
  · rw [oblivious_startCond.busy, (obliviousR_sendBytes _).busy]

theorem frameBytes_seq (s : State) (q : Seq) : frameBytes (withSeq q s) = frameBytes s := rfl
theorem frameBytes_setFlag (s : State) (f : StatusBit) (b : Bool) : frameBytes (s.setFlag f b) = frameBytes s := rfl

theorem obliviousR_sendPreamble (vs : List Byte) : ObliviousR (sendPreamble vs) := by
  induction vs with
  | nil =>
    constructor <;> intro s _ <;> unfold sendPreamble
    · rw [frameBytes_seq, (oblivious_waitFor _).seq, withSeq_cfg, (obliviousR_writeTransaction _ _).seq]
    · rw [frameBytes_setFlag, (oblivious_waitFor _).busy, setFlag_cfg, (obliviousR_writeTransaction _ _).busy]
  | cons v vs ih =>
    constructor
    · intro s q
      simp only [sendPreamble, withSeq_cfg, (obliviousR_writeTransaction _ _).seq, (oblivious_waitFor _).seq, ih.seq]
      split <;> rfl
    · intro s b
      simp only [sendPreamble, setFlag_cfg, (obliviousR_writeTransaction _ _).busy, (oblivious_waitFor _).busy, ih.busy]
      split <;> rfl

theorem obliviousR_sendFrame : ObliviousR sendFrame := by
  constructor <;> intro s _ <;> simp only [sendFrame, withSeq_cfg, setFlag_cfg]
  · exact (obliviousR_sendPreamble _).seq s _
  · exact (obliviousR_sendPreamble _).busy s _

theorem oblivious_pushAttempts (n : Nat) : Oblivious (pushAttempts n) := by
  induction n with
  | zero => exact ⟨fun s q => by simp only [pushAttempts], fun s b => by simp only [pushAttempts]⟩
  | succ n ih =>
    constructor
    · intro s q
      simp only [pushAttempts, obliviousR_sendFrame.seq, (oblivious_waitFor _).seq]
      split <;> rw [ih.seq]
    · intro s b
      simp only [pushAttempts, obliviousR_sendFrame.busy, (oblivious_waitFor _).busy]
      split <;> rw [ih.busy]

theorem oblivious_storeOk {f : State → Bool × State} (hf : ObliviousR f) : Oblivious (fun s => storeOk (f s)) := by
  constructor
  · intro s q; simp only [storeOk, hf.seq]; rfl
  · intro s b; simp only [storeOk, hf.busy]; exact setFlag_comm _ _ _ _ _ (by decide)

/-- No command's effect looks at the sequencer or at STATUS.BUSY, or changes them. -/
theorem oblivious_effect (i : Instr) : Oblivious (effect i) := by
  cases i with
  | lowc => exact oblivious_drive _ _
  | relc => exact oblivious_drive _ _
  | lowd => exact oblivious_drive _ _
  | reld => exact oblivious_drive _ _
  | readd =>
    constructor
    · intros; rfl
    · intro s b
      simp only [effect, oblivious_sample.busy, sampledAt_setFlag]
      exact setFlag_comm _ _ _ _ _ (by decide)
  | delayUnit => exact oblivious_waitFor _
  | delayGap => exact oblivious_waitFor _
  | delayPush => exact oblivious_waitFor _
  | start => exact oblivious_startCond
  | stop => exact oblivious_stopCond
  | wrbyte v =>
    constructor <;> intro s _ <;> simp only [effect]
    · rw [(obliviousR_writeByte v).seq]
    · rw [(obliviousR_writeByte v).busy]
  | wrtxn1 a d => exact oblivious_storeOk (obliviousR_writeTransaction a [d])
  | wrtxnf a =>
    constructor
    · intro s q
      simp only [effect, frameBytes_seq]
      exact (oblivious_storeOk (obliviousR_writeTransaction a (frameBytes s))).seq s q
    · intro s b
      simp only [effect, frameBytes_setFlag]
      exact (oblivious_storeOk (obliviousR_writeTransaction a (frameBytes s))).busy s b
  | sendf => exact oblivious_storeOk obliviousR_sendFrame
  | pushf n => exact (oblivious_pushAttempts n).comp oblivious_drawResults
  | fbclr => exact oblivious_clearFb
  | fbwr a v => exact oblivious_writeFb a v

end Sys2Proof.Machine
end

