-- ==== Sys2Proof/Laws/Sequencer.lean ====
section
/-! SUPPORT. An undisturbed run of the sequencer is the function of Machine/Pseudocode.lean: one lemma for each call
of the pseudocode, then `exec_ready` for every command. -/

namespace Sys2Proof.Machine

/-! ### Runs of lines -/

/-- From `s`, `n` lines lead to `t`, and the sequencer stops at none of them before `t`. -/
def Runs : Nat → State → State → Prop
  | 0, s, t => s = t
  | n + 1, s, t => pauses s = false ∧ Runs n (seqStep s) t

theorem Runs.trans {m n : Nat} {s t u : State} (h : Runs m s t) (g : Runs n t u) : Runs (m + n) s u := by
  induction m generalizing s with
  | zero => rw [Nat.zero_add]; exact (h : s = t) ▸ g
  | succ m ih => rw [Nat.succ_add]; exact ⟨h.1, ih h.2⟩

theorem runLines_of_runs {n : Nat} {s t : State} (h : Runs n s t) (m : Nat) :
    runLines (n + m) s = runLines m t := by
  induction n generalizing s with
  | zero => rw [Nat.zero_add]; exact congrArg _ h
  | succ n ih =>
    rw [Nat.succ_add, runLines, if_neg (by simp [h.1])]
    exact ih h.2

theorem runLines_pauses {s : State} (h : pauses s = true) (n : Nat) : runLines n s = s := by
  cases n with
  | zero => rfl
  | succ n => rw [runLines, if_pos h]

/-- The running command at `q` on the state `s` gets to `q'` on `t` in at most `n` lines, without a stop. -/
def Reach (n : Nat) (q : Running) (s : State) (q' : Running) (t : State) : Prop :=
  ∃ m ≤ n, Runs m (withSeq (.running q) s) (withSeq (.running q') t)

theorem Reach.refl (q : Running) (s : State) : Reach 0 q s q s := ⟨0, Nat.le_refl 0, rfl⟩

theorem Reach.trans {m n : Nat} {q q' q'' : Running} {s t u : State} (h : Reach m q s q' t)
    (g : Reach n q' t q'' u) : Reach (m + n) q s q'' u := by
  obtain ⟨a, ha, ra⟩ := h
  obtain ⟨b, hb, rb⟩ := g
  exact ⟨a + b, by omega, ra.trans rb⟩

theorem Reach.mono {m n : Nat} {q q' : Running} {s t : State} (h : Reach m q s q' t) (hmn : m ≤ n) :
    Reach n q s q' t := by
  obtain ⟨a, ha, ra⟩ := h
  exact ⟨a, by omega, ra⟩

theorem Undisturbed.of_inputs {s t : State} {n : Nat} (h : Undisturbed s n) (e : t.inputs = s.inputs) :
    Undisturbed t n := by
  unfold Undisturbed at *; rwa [e]

theorem Undisturbed.mono {s : State} {m n : Nat} (h : Undisturbed s n) (hmn : m ≤ n) : Undisturbed s m :=
  fun x hx => Nat.le_trans hmn (h x hx)

/-- What a task does never touches the sequencer, and does not depend on it. -/
theorem act_withSeq (t : Task) (ret : Bool) (q : Seq) (s : State) :
    act t ret (withSeq q s) = withSeq q (act t ret s) := by
  cases t <;> simp only [act] <;> first
    | exact (oblivious_drive _ _).seq s q
    | exact (oblivious_writeFb _ _).seq s q
    | rfl

theorem expand_withSeq (t : Task) (ret : Bool) (q : Seq) (s : State) :
    expand t ret (withSeq q s) = expand t ret s := by
  cases t <;> rfl

theorem retAfter_withSeq (t : Task) (ret : Bool) (q : Seq) (s : State) :
    retAfter t ret (withSeq q s) = retAfter t ret s := by
  cases t <;> rfl

/-- The sequencer does one task of the running command. -/
theorem seqStep_cons (cmd : Instr) (k : Nat) (ret : Bool) (t : Task) (rest : List Task) (s : State) :
    seqStep (withSeq (.running ⟨cmd, k, ret, t :: rest⟩) s) =
      withSeq (.running ⟨cmd, if t.isStep then k + 1 else k, retAfter t ret s, expand t ret s ++ rest⟩)
        (act t ret s) := by
  simp only [seqStep, withSeq_seq, act_withSeq, expand_withSeq, retAfter_withSeq]
  rfl

theorem pauses_running (q : Running) (s : State) :
    pauses (withSeq (.running q) s) = match s.inputs with
      | [] => false
      | x :: _ => stepIsNext q && decide (x.after ≤ q.k) := by
  simp only [pauses, withSeq_seq, withSeq_inputs]
  rcases s.inputs with _ | ⟨x, xs⟩ <;> simp [lands]

/-- A step of a command that nothing disturbs yet. -/
theorem reach_step {cmd : Instr} {k K : Nat} {ret : Bool} {t : Task} {rest : List Task} {s : State}
    (ht : t.isStep = true) (hK : k + 1 ≤ K) (hu : Undisturbed s K) :
    Reach 1 ⟨cmd, k, ret, t :: rest⟩ s ⟨cmd, k + 1, retAfter t ret s, rest⟩ (act t ret s) := by
  refine ⟨1, Nat.le_refl 1, ?_, ?_⟩
  · rw [pauses_running]
    unfold Undisturbed at hu
    rcases h : s.inputs with _ | ⟨x, xs⟩
    · rfl
    · have := hu x (by simp [h])
      simp only [Bool.and_eq_false_iff, decide_eq_false_iff_not]
      right; omega
  · rw [seqStep_cons, if_pos ht]
    have he : expand t ret s = [] := by cases t <;> first | rfl | simp [Task.isStep] at ht
    rw [he]
    rfl

/-- A line that is no step: an assignment or a call. -/
theorem reach_line {cmd : Instr} {k : Nat} {ret : Bool} {t : Task} {rest : List Task} {s : State}
    (ht : t.isStep = false) :
    Reach 1 ⟨cmd, k, ret, t :: rest⟩ s ⟨cmd, k, retAfter t ret s, expand t ret s ++ rest⟩ (act t ret s) := by
  refine ⟨1, Nat.le_refl 1, ?_, ?_⟩
  · rw [pauses_running]
    rcases s.inputs with _ | ⟨x, xs⟩ <;> simp [stepIsNext, ht]
  · rw [seqStep_cons, ht]
    rfl

/-! ### The primitives -/

section
variable {cmd : Instr} {K : Nat} {ret : Bool} {rest : List Task} {s : State} (k : Nat)

theorem reach_drive {l : Line} {v : Driver} (hK : k + 1 ≤ K) (hu : Undisturbed s K) :
    Reach 1 ⟨cmd, k, ret, .drive l v :: rest⟩ s ⟨cmd, k + 1, ret, rest⟩ (drive l v s) := reach_step rfl hK hu

theorem reach_driveBit (hK : k + 1 ≤ K) (hu : Undisturbed s K) :
    Reach 1 ⟨cmd, k, ret, .driveBit :: rest⟩ s ⟨cmd, k + 1, ret, rest⟩
      (drive .data (driverOfBit (topBit s)) s) := reach_step rfl hK hu

theorem reach_wait {d : DelaySel} (hK : k + 1 ≤ K) (hu : Undisturbed s K) :
    Reach 1 ⟨cmd, k, ret, .wait d :: rest⟩ s ⟨cmd, k + 1, ret, rest⟩ (waitFor d s) := reach_step rfl hK hu

theorem reach_sampleAck (hK : k + 1 ≤ K) (hu : Undisturbed s K) :
    Reach 1 ⟨cmd, k, ret, .sampleAck :: rest⟩ s ⟨cmd, k + 1, ackOfSample (sampledAt s 0), rest⟩
      ((sample s).setFlag .ack (ackOfSample (sampledAt s 0))) := reach_step rfl hK hu

/-- A driver change and the unit delay after it, the shape of every line of R110, R111, R130 and R131. -/
theorem reach_driveWait {l : Line} {v : Driver} (hK : k + 2 ≤ K) (hu : Undisturbed s K) :
    Reach 2 ⟨cmd, k, ret, .drive l v :: .wait .unit :: rest⟩ s ⟨cmd, k + 2, ret, rest⟩
      (waitFor .unit (drive l v s)) :=
  (reach_drive k (by omega) hu).trans (reach_wait (k + 1) (by omega) (hu.of_inputs (by simp)))

/-! ### START, STOP and the cycles of a byte -/

theorem reach_start (hK : k + 7 ≤ K) (hu : Undisturbed s K) :
    Reach 8 ⟨cmd, k, ret, .start :: rest⟩ s ⟨cmd, k + 7, ret, rest⟩ (startCond s) := by
  rw [startCond]
  have h0 : Reach 1 ⟨cmd, k, ret, .start :: rest⟩ s ⟨cmd, k, ret, expand .start ret s ++ rest⟩ s := reach_line rfl
  exact h0.trans ((reach_drive k (by omega) hu).trans
    ((reach_driveWait (k + 1) (by omega) (hu.of_inputs (by simp))).trans
    ((reach_driveWait (k + 3) (by omega) (hu.of_inputs (by simp))).trans
    (reach_driveWait (k + 5) (by omega) (hu.of_inputs (by simp))))))

theorem reach_stop (hK : k + 6 ≤ K) (hu : Undisturbed s K) :
    Reach 7 ⟨cmd, k, ret, .stop :: rest⟩ s ⟨cmd, k + 6, ret, rest⟩ (stopCond s) := by
  rw [stopCond]
  have h0 : Reach 1 ⟨cmd, k, ret, .stop :: rest⟩ s ⟨cmd, k, ret, expand .stop ret s ++ rest⟩ s := reach_line rfl
  exact h0.trans ((reach_driveWait k (by omega) hu).trans
    ((reach_driveWait (k + 2) (by omega) (hu.of_inputs (by simp))).trans
    (reach_driveWait (k + 4) (by omega) (hu.of_inputs (by simp)))))

theorem reach_bitCycle (hK : k + 6 ≤ K) (hu : Undisturbed s K) :
    Reach 7 ⟨cmd, k, ret, .bitCycle :: rest⟩ s ⟨cmd, k + 6, ret, rest⟩ (bitCycle (topBit s) s) := by
  rw [bitCycle]
  have h0 : Reach 1 ⟨cmd, k, ret, .bitCycle :: rest⟩ s ⟨cmd, k, ret, expand .bitCycle ret s ++ rest⟩ s := reach_line rfl
  exact h0.trans ((reach_driveBit k (by omega) hu).trans
    ((reach_wait (k + 1) (by omega) (hu.of_inputs (by simp))).trans
    ((reach_driveWait (k + 2) (by omega) (hu.of_inputs (by simp))).trans
    (reach_driveWait (k + 4) (by omega) (hu.of_inputs (by simp))))))

theorem reach_ackCycle (hK : k + 7 ≤ K) (hu : Undisturbed s K) :
    Reach 8 ⟨cmd, k, ret, .ackCycle :: rest⟩ s ⟨cmd, k + 7, (ackCycle s).1, rest⟩ (ackCycle s).2 := by
  rw [ackCycle, beforeAck]
  have h0 : Reach 1 ⟨cmd, k, ret, .ackCycle :: rest⟩ s ⟨cmd, k, ret, expand .ackCycle ret s ++ rest⟩ s := reach_line rfl
  exact h0.trans ((reach_driveWait k (by omega) hu).trans
    ((reach_driveWait (k + 2) (by omega) (hu.of_inputs (by simp))).trans
    ((reach_sampleAck (k + 4) (by omega) (hu.of_inputs (by simp))).trans
    (reach_driveWait (k + 5) (by omega) (hu.of_inputs (by simp))))))

end

theorem bitcnt_bitCycle (x : Bool) (s : State) : (bitCycle x s).bitcnt = s.bitcnt := by simp [bitCycle]

theorem val_bitcnt_shiftLeft {s : State} (h : s.bitcnt.val < 8) :
    (shiftLeft s).bitcnt.val = s.bitcnt.val + 1 := by simp [shiftLeft_bitcnt, h]

/-- The loop of R132 with `n` bits still to send. -/
theorem reach_bits {cmd : Instr} {ret : Bool} {rest : List Task} {K : Nat} (n : Nat) {k : Nat} {s : State}
    (hn : s.bitcnt.val + n = 8) (hK : k + 6 * n ≤ K) (hu : Undisturbed s K) :
    Reach (9 * n + 1) ⟨cmd, k, ret, .bits :: rest⟩ s ⟨cmd, k + 6 * n, ret, rest⟩ (sendBits n s) := by
  induction n generalizing k s with
  | zero =>
    have h1 := reach_line (cmd := cmd) (k := k) (ret := ret) (t := .bits) (rest := rest) (s := s) rfl
    rw [show expand .bits ret s = [] from if_neg (by omega)] at h1
    rw [sendBits]
    exact h1
  | succ n ih =>
    have hlt : s.bitcnt.val < 8 := by omega
    have h1 := reach_line (cmd := cmd) (k := k) (ret := ret) (t := .bits) (rest := rest) (s := s) rfl
    rw [show expand .bits ret s = [.bitCycle, .shiftLeft, .bits] from if_pos hlt] at h1
    have h2 := reach_bitCycle (cmd := cmd) (k := k) (K := K) (ret := ret) (rest := .shiftLeft :: .bits :: rest)
      (s := s) (by omega) hu
    have h3 := reach_line (cmd := cmd) (k := k + 6) (ret := ret) (t := .shiftLeft) (rest := .bits :: rest)
      (s := bitCycle (topBit s) s) rfl
    have hb : (shiftLeft (bitCycle (topBit s) s)).bitcnt.val = s.bitcnt.val + 1 := by
      rw [val_bitcnt_shiftLeft (by rw [bitcnt_bitCycle]; exact hlt), bitcnt_bitCycle]
    have h4 := ih (k := k + 6) (s := shiftLeft (bitCycle (topBit s) s)) (by omega) (by omega)
      (hu.of_inputs (by rw [shiftLeft_inputs, (kept_bitCycle _ s).inputs]))
    rw [sendBits, if_pos hlt]
    have h := h1.trans (h2.trans (h3.trans h4))
    rw [show k + 6 * (n + 1) = k + 6 + 6 * n by omega]
    exact h.mono (by omega)

theorem reach_writeByte {cmd : Instr} {ret : Bool} {rest : List Task} {k K : Nat} {v : Byte} {s : State}
    (hK : k + 55 ≤ K) (hu : Undisturbed s K) :
    Reach 83 ⟨cmd, k, ret, .writeByte v :: rest⟩ s ⟨cmd, k + 55, (writeByte v s).1, rest⟩ (writeByte v s).2 := by
  have h1 := reach_line (cmd := cmd) (k := k) (ret := ret) (t := .writeByte v) (rest := rest) (s := s) rfl
  have h2 := reach_line (cmd := cmd) (k := k) (ret := ret) (t := .load v) (rest := .bits :: .ackCycle :: rest)
    (s := s) rfl
  have h3 := reach_bits (cmd := cmd) (ret := ret) (rest := .ackCycle :: rest) (K := K) 8 (k := k)
    (s := loadByte v s) rfl (by omega) (hu.of_inputs (by simp))
  have h4 := reach_ackCycle (cmd := cmd) (k := k + 6 * 8) (K := K) (ret := ret) (rest := rest)
    (s := sendBits 8 (loadByte v s)) (by omega)
    (hu.of_inputs (by rw [(kept_sendBits _ _).inputs, loadByte_inputs]))
  rw [writeByte]
  exact (h1.trans (h2.trans (h3.trans h4))).mono (by omega)

/-! ### Transactions -/

/-- What is left of a transaction once a byte was sent with result `ret`, with the payload bytes `vs` from index
`j` on still to send. -/
theorem reach_nextByte {cmd : Instr} {rest : List Task} {K : Nat} (p : Payload) (vs : List Byte) :
    ∀ {ret : Bool} {j k : Nat} {s : State}, (hlen : j + vs.length = payloadLength s.cfg p) →
      (hget : ∀ i, (hi : i < vs.length) → payloadByte s p (j + i) = vs[i]) →
      (hK : k + 6 + 55 * vs.length ≤ K) → (hu : Undisturbed s K) →
      ∃ k', k' ≤ k + 6 + 55 * vs.length ∧
        Reach (84 * vs.length + 9) ⟨cmd, k, ret, .nextByte p j :: rest⟩ s
          ⟨cmd, k', (if ret then sendBytes vs s else (false, stopCond s)).1, rest⟩
          (if ret then sendBytes vs s else (false, stopCond s)).2 := by
  induction vs with
  | nil =>
    intro ret j k s hlen hget hK hu
    have hj : ¬ j < payloadLength s.cfg p := by simp at hlen; omega
    have h1 := reach_line (cmd := cmd) (k := k) (ret := ret) (t := .nextByte p j) (rest := rest) (s := s) rfl
    have h2 := reach_stop (cmd := cmd) (k := k) (K := K) (ret := ret) (rest := .ret ret :: rest) (s := s)
      (by simp at hK; omega) hu
    have h3 := reach_line (cmd := cmd) (k := k + 6) (ret := ret) (t := .ret ret) (rest := rest)
      (s := stopCond s) rfl
    have he : expand (.nextByte p j) ret s = [.stop, .ret ret] := by
      cases ret <;> simp [expand, hj]
    rw [he] at h1
    refine ⟨k + 6, by simp, ?_⟩
    have h := (h1.trans (h2.trans h3)).mono (n := 84 * ([] : List Byte).length + 9) (by simp)
    have hr : (if ret = true then sendBytes [] s else (false, stopCond s)) = (ret, stopCond s) := by
      cases ret <;> simp [sendBytes]
    rw [hr]
    exact h
  | cons v vs ih =>
    intro ret j k s hlen hget hK hu
    simp only [List.length_cons] at hlen hK ⊢
    have h1 := reach_line (cmd := cmd) (k := k) (ret := ret) (t := .nextByte p j) (rest := rest) (s := s) rfl
    cases ret with
    | false =>
      have h2 := reach_stop (cmd := cmd) (k := k) (K := K) (ret := false) (rest := .ret false :: rest) (s := s)
        (by omega) hu
      have h3 := reach_line (cmd := cmd) (k := k + 6) (ret := false) (t := .ret false) (rest := rest)
        (s := stopCond s) rfl
      exact ⟨k + 6, by omega, (h1.trans (h2.trans h3)).mono (by omega)⟩
    | true =>
      have hj : j < payloadLength s.cfg p := by omega
      have hv : payloadByte s p j = v := hget 0 (by simp)
      have he : expand (.nextByte p j) true s = [.writeByte v, .nextByte p (j + 1)] := by
        simp [expand, hj, hv]
      rw [he] at h1
      have h2 := reach_writeByte (cmd := cmd) (k := k) (K := K) (ret := true) (v := v)
        (rest := .nextByte p (j + 1) :: rest) (s := s) (by omega) hu
      have hk := kept_writeByte v s
      obtain ⟨k', hk', h3⟩ := ih (ret := (writeByte v s).1) (j := j + 1) (k := k + 55) (s := (writeByte v s).2)
        (by rw [hk.cfg]; omega)
        (by
          intro i hi
          have := hget (i + 1) (by simpa using hi)
          rw [List.getElem_cons_succ] at this
          rw [← this, show j + 1 + i = j + (i + 1) by omega]
          cases p <;> simp only [payloadByte, hk.fb])
        (by omega) (hu.of_inputs hk.inputs)
      refine ⟨k', by omega, ?_⟩
      have h := h1.trans (h2.trans h3)
      have hr : (if true = true then sendBytes (v :: vs) s else (false, stopCond s)) =
          (if (writeByte v s).1 = true then sendBytes vs (writeByte v s).2
            else (false, stopCond (writeByte v s).2)) := by
        rw [if_pos rfl, sendBytes]
      rw [hr]
      exact h.mono (by omega)

/-- The bytes of a payload, in order (R134, R136). -/
def payloadBytes (s : State) : Payload → List Byte
  | .bytes bs => bs
  | .frame => frameBytes s

theorem reach_transaction {cmd : Instr} {rest : List Task} {k K : Nat} {ret : Bool} {s : State} (a : Byte)
    (p : Payload) (hK : k + transactionSteps (payloadLength s.cfg p) ≤ K) (hu : Undisturbed s K) :
    ∃ k', k' ≤ k + transactionSteps (payloadLength s.cfg p) ∧
      Reach (84 * payloadLength s.cfg p + 101) ⟨cmd, k, ret, .transaction a p :: rest⟩ s
        ⟨cmd, k', (writeTransaction a (payloadBytes s p) s).1, rest⟩
        (writeTransaction a (payloadBytes s p) s).2 := by
  have hlen : (payloadBytes s p).length = payloadLength s.cfg p := by
    cases p <;> simp [payloadBytes, payloadLength, frameBytes]
  unfold transactionSteps at hK ⊢
  have hs := kept_startCond s
  have hw := kept_writeByte a (startCond s)
  have h1 := reach_line (cmd := cmd) (k := k) (ret := ret) (t := .transaction a p) (rest := rest) (s := s) rfl
  have h2 := reach_start (cmd := cmd) (k := k) (K := K) (ret := ret)
    (rest := .writeByte a :: .nextByte p 0 :: rest) (s := s) (by omega) hu
  have h3 := reach_writeByte (cmd := cmd) (k := k + 7) (K := K) (ret := ret) (v := a)
    (rest := .nextByte p 0 :: rest) (s := startCond s) (by omega) (hu.of_inputs hs.inputs)
  obtain ⟨k', hk', h4⟩ := reach_nextByte (cmd := cmd) (rest := rest) (K := K) p (payloadBytes s p)
    (ret := (writeByte a (startCond s)).1) (j := 0) (k := k + 7 + 55) (s := (writeByte a (startCond s)).2)
    (by rw [hw.cfg, hs.cfg]; omega)
    (by
      intro i hi
      rw [Nat.zero_add]
      cases p with
      | bytes bs =>
        simp only [payloadBytes, payloadByte] at hi ⊢
        rw [List.getD_eq_getElem?_getD, List.getElem?_eq_getElem hi, Option.getD_some]
      | frame => simp [payloadBytes, payloadByte, frameBytes, hw.fb, hs.fb])
    (by omega) (hu.of_inputs (hw.inputs.trans hs.inputs))
  refine ⟨k', by omega, ?_⟩
  rw [writeTransaction, sendBytes]
  exact (h1.trans (h2.trans (h3.trans h4))).mono (by omega)

/-! ### The frame protocol -/

/-- The most lines of `sendFrame` with `n` preamble bytes still to send. -/
def frameLines (c : Cfg) (n : Nat) : Nat := 188 * n + 84 * c.frameLen + 103

theorem reach_preamble {cmd : Instr} {rest : List Task} {K : Nat} (vs : List Byte) :
    ∀ {ret : Bool} {i k : Nat} {s : State}, s.cfg.preamble.drop i = vs → i ≤ s.cfg.preamble.length →
      k + vs.length * (transactionSteps 1 + 1) + 1 + transactionSteps s.cfg.frameLen ≤ K → Undisturbed s K →
      ∃ k', k' ≤ k + vs.length * (transactionSteps 1 + 1) + 1 + transactionSteps s.cfg.frameLen ∧
        Reach (frameLines s.cfg vs.length) ⟨cmd, k, ret, .preamble i :: rest⟩ s
          ⟨cmd, k', (sendPreamble vs s).1, rest⟩ (sendPreamble vs s).2 := by
  induction vs with
  | nil =>
    intro ret i k s hd hi hK hu
    have hlen : i = s.cfg.preamble.length := by
      have := congrArg List.length hd; simp at this; omega
    have h1 := reach_line (cmd := cmd) (k := k) (ret := ret) (t := .preamble i) (rest := rest) (s := s) rfl
    rw [show expand (.preamble i) ret s = [.wait .gap, .transaction (addrByte s.cfg) .frame] from
      if_neg (by omega)] at h1
    simp only [List.length_nil, Nat.zero_mul, Nat.add_zero] at hK ⊢
    have h2 := reach_wait (cmd := cmd) (k := k) (K := K) (ret := ret) (d := .gap)
      (rest := .transaction (addrByte s.cfg) .frame :: rest) (s := s) (by omega) hu
    obtain ⟨k', hk', h3⟩ := reach_transaction (cmd := cmd) (rest := rest) (k := k + 1) (K := K) (ret := ret)
      (s := waitFor .gap s) (addrByte s.cfg) .frame
      (by simpa [payloadLength, Nat.add_assoc] using hK) (hu.of_inputs (by simp))
    refine ⟨k', by simpa [payloadLength, Nat.add_assoc] using hk', ?_⟩
    rw [sendPreamble]
    exact (h1.trans (h2.trans h3)).mono (by simp [frameLines, payloadLength]; omega)
  | cons v vs ih =>
    intro ret i k s hd hi hK hu
    have hlt : i < s.cfg.preamble.length := by
      have := congrArg List.length hd; simp at this; omega
    have hv : preambleByte s.cfg i = v := by
      have := congrArg (fun l => l[0]?) hd
      simp only [List.getElem?_drop, Nat.add_zero, List.getElem?_cons_zero] at this
      simp [preambleByte, this]
    have h1 := reach_line (cmd := cmd) (k := k) (ret := ret) (t := .preamble i) (rest := rest) (s := s) rfl
    rw [show expand (.preamble i) ret s = [.transaction (addrByte s.cfg) (.bytes [v]), .nextPreamble i] by
      simp only [expand, if_pos hlt, hv]] at h1
    simp only [List.length_cons, Nat.succ_mul] at hK ⊢
    obtain ⟨k1, hk1, h2⟩ := reach_transaction (cmd := cmd) (rest := .nextPreamble i :: rest) (k := k) (K := K)
      (ret := ret) (s := s) (addrByte s.cfg) (.bytes [v])
      (by simp only [payloadLength, List.length_cons, List.length_nil, Nat.zero_add]; omega) hu
    simp only [payloadLength, List.length_cons, List.length_nil, payloadBytes, Nat.zero_add] at hk1 h2
    have hw := kept_writeTransaction (addrByte s.cfg) [v] s
    have h3 := reach_line (cmd := cmd) (k := k1) (ret := (writeTransaction (addrByte s.cfg) [v] s).1)
      (t := .nextPreamble i) (rest := rest) (s := (writeTransaction (addrByte s.cfg) [v] s).2) rfl
    by_cases hok : (writeTransaction (addrByte s.cfg) [v] s).1 = true
    · rw [show expand (.nextPreamble i) (writeTransaction (addrByte s.cfg) [v] s).1
        (writeTransaction (addrByte s.cfg) [v] s).2 = [.wait .unit, .preamble (i + 1)] from if_pos hok] at h3
      have h4 := reach_wait (cmd := cmd) (k := k1) (K := K) (ret := (writeTransaction (addrByte s.cfg) [v] s).1)
        (d := .unit) (rest := .preamble (i + 1) :: rest) (s := (writeTransaction (addrByte s.cfg) [v] s).2)
        (by omega) (hu.of_inputs hw.inputs)
      have hcfg : (waitFor .unit (writeTransaction (addrByte s.cfg) [v] s).2).cfg = s.cfg := by
        rw [waitFor_cfg, hw.cfg]
      obtain ⟨k', hk', h5⟩ := ih (ret := (writeTransaction (addrByte s.cfg) [v] s).1) (i := i + 1) (k := k1 + 1)
        (s := waitFor .unit (writeTransaction (addrByte s.cfg) [v] s).2)
        (by
          rw [hcfg]
          have := congrArg List.tail hd
          simpa [List.tail_drop] using this)
        (by rw [hcfg]; omega) (by rw [hcfg]; omega) (hu.of_inputs (by simpa using hw.inputs))
      rw [hcfg] at hk' h5
      refine ⟨k', by omega, ?_⟩
      rw [sendPreamble, if_pos hok]
      exact (h1.trans (h2.trans (h3.trans (h4.trans h5)))).mono (by simp [frameLines]; omega)
    · rw [show expand (.nextPreamble i) (writeTransaction (addrByte s.cfg) [v] s).1
        (writeTransaction (addrByte s.cfg) [v] s).2 = [] from if_neg hok] at h3
      refine ⟨k1, by omega, ?_⟩
      rw [sendPreamble, if_neg hok]
      have hf : (writeTransaction (addrByte s.cfg) [v] s).1 = false := by simpa using hok
      rw [hf] at h3 h2
      exact (h1.trans (h2.trans h3)).mono (by simp [frameLines]; omega)

theorem reach_sendFrame {cmd : Instr} {rest : List Task} {k K : Nat} {ret : Bool} {s : State}
    (hK : k + frameSteps s.cfg ≤ K) (hu : Undisturbed s K) :
    ∃ k', k' ≤ k + frameSteps s.cfg ∧
      Reach (frameLines s.cfg s.cfg.preamble.length + 1) ⟨cmd, k, ret, .sendFrame :: rest⟩ s
        ⟨cmd, k', (sendFrame s).1, rest⟩ (sendFrame s).2 := by
  unfold frameSteps at hK ⊢
  have h1 := reach_line (cmd := cmd) (k := k) (ret := ret) (t := .sendFrame) (rest := rest) (s := s) rfl
  obtain ⟨k', hk', h2⟩ := reach_preamble (cmd := cmd) (rest := rest) (K := K) s.cfg.preamble (ret := ret)
    (i := 0) (k := k) (s := s) (by simp) (by simp) (by omega) hu
  refine ⟨k', by omega, ?_⟩
  rw [sendFrame]
  exact (h1.trans h2).mono (by omega)

/-- The attempts of `PUSHF n` from attempt `k₀` on, `m` of them left (R163). -/
theorem reach_attempt {cmd : Instr} {rest : List Task} {K n : Nat} (m : Nat) :
    ∀ {ret : Bool} {a k : Nat} {s : State}, a + m = n + 1 → k + (m * frameSteps s.cfg + (m - 1)) ≤ K →
      Undisturbed s K →
      ∃ k' ret', k' ≤ k + (m * frameSteps s.cfg + (m - 1)) ∧
        Reach (m * (frameLines s.cfg s.cfg.preamble.length + 4) + 1) ⟨cmd, k, ret, .attempt a n :: rest⟩ s
          ⟨cmd, k', ret', rest⟩ (pushAttempts m s) := by
  induction m with
  | zero =>
    intro ret a k s ha hK hu
    have h1 := reach_line (cmd := cmd) (k := k) (ret := ret) (t := .attempt a n) (rest := rest) (s := s) rfl
    rw [show expand (.attempt a n) ret s = [] from if_neg (by omega)] at h1
    refine ⟨k, ret, by omega, ?_⟩
    rw [pushAttempts]
    exact h1.mono (by omega)
  | succ m ih =>
    intro ret a k s ha hK hu
    have h1 := reach_line (cmd := cmd) (k := k) (ret := ret) (t := .attempt a n) (rest := rest) (s := s) rfl
    rw [show expand (.attempt a n) ret s = [.sendFrame, .nextAttempt a n] from if_pos (by omega)] at h1
    rw [Nat.succ_mul] at hK ⊢
    obtain ⟨k1, hk1, h2⟩ := reach_sendFrame (cmd := cmd) (rest := .nextAttempt a n :: rest) (k := k) (K := K)
      (ret := ret) (s := s) (by omega) hu
    have hw := kept_sendFrame s
    have h3 := reach_line (cmd := cmd) (k := k1) (ret := (sendFrame s).1) (t := .nextAttempt a n) (rest := rest)
      (s := (sendFrame s).2) rfl
    rw [Nat.succ_mul]
    cases m with
    | zero =>
      rw [show expand (.nextAttempt a n) (sendFrame s).1 (sendFrame s).2 = [.attempt (a + 1) n] from
        if_neg (by omega)] at h3
      obtain ⟨k', ret', hk', h4⟩ := ih (ret := (sendFrame s).1) (a := a + 1) (k := k1) (s := (sendFrame s).2)
        (by omega) (by rw [hw.cfg]; omega) (hu.of_inputs hw.inputs)
      rw [hw.cfg] at hk' h4
      refine ⟨k', ret', by omega, ?_⟩
      rw [pushAttempts, if_pos rfl]
      exact (h1.trans (h2.trans (h3.trans h4))).mono (by omega)
    | succ m =>
      rw [show expand (.nextAttempt a n) (sendFrame s).1 (sendFrame s).2 = [.wait .push, .attempt (a + 1) n] from
        if_pos (by omega)] at h3
      have h4 := reach_wait (cmd := cmd) (k := k1) (K := K) (ret := (sendFrame s).1) (d := .push)
        (rest := .attempt (a + 1) n :: rest) (s := (sendFrame s).2) (by omega) (hu.of_inputs hw.inputs)
      have hcfg : (waitFor .push (sendFrame s).2).cfg = s.cfg := by rw [waitFor_cfg, hw.cfg]
      obtain ⟨k', ret', hk', h5⟩ := ih (ret := (sendFrame s).1) (a := a + 1) (k := k1 + 1)
        (s := waitFor .push (sendFrame s).2) (by omega) (by rw [hcfg]; omega)
        (hu.of_inputs (by simpa using hw.inputs))
      rw [hcfg] at hk' h5
      refine ⟨k', ret', by omega, ?_⟩
      rw [pushAttempts, if_neg (by omega)]
      exact (h1.trans (h2.trans (h3.trans (h4.trans h5)))).mono (by omega)

/-! ### Whole commands -/

theorem lineBound_ge (c : Cfg) (i : Instr) : 400 ≤ lineBound c i :=
  Nat.le_trans (by omega : 400 ≤ 188 * c.preamble.length + 84 * c.frameLen + 400)
    (Nat.le_mul_of_pos_left _ (Nat.succ_pos _))

/-- The lines of a command's pseudocode, as its meaning issues them. -/
def program : Instr → List Task
  | .lowc => [.drive .clock .low]
  | .relc => [.drive .clock .rel]
  | .lowd => [.drive .data .low]
  | .reld => [.drive .data .rel]
  | .readd => [.sampleRdata]
  | .delayUnit => [.wait .unit]
  | .delayGap => [.wait .gap]
  | .delayPush => [.wait .push]
  | .start => [.start]
  | .stop => [.stop]
  | .wrbyte value => [.writeByte value]
  | .wrtxn1 addrByte data => [.transaction addrByte (.bytes [data]), .setOk]
  | .wrtxnf addrByte => [.transaction addrByte .frame, .setOk]
  | .sendf => [.sendFrame, .setOk]
  | .pushf n => [.attempt 1 n, .drawResults]
  | .fbclr => [.clearFb]
  | .fbwr index value => [.writeFb index value]

/-- Every meaning issues its command with its program. -/
theorem exec_eq_issue (i : Instr) (s : State) : exec i s = issue i (program i) s := by cases i <;> rfl

/-- Every command answers a next state: refused while busy, else run as far as nothing lands. -/
theorem exec_eq (i : Instr) (s : State) :
    exec i s = .next (if s.flag .busy then raiseFault .busy s else resume (accept i (program i) s)) :=
  exec_eq_issue i s

/-- A command whose lines lead to the end of its program. -/
theorem runs_of_reach {i : Instr} {todo : List Task} {s t : State} {n k' : Nat} {ret' : Bool}
    (hr : Reach n ⟨i, 0, false, todo⟩ (s.setFlag .busy true) ⟨i, k', ret', []⟩ t)
    (hn : n + 1 ≤ lineBound s.cfg i) : ∃ m ≤ lineBound s.cfg i, Runs m (accept i todo s) (complete t) := by
  obtain ⟨m, hm, hr⟩ := hr
  have hp : pauses (withSeq (.running ⟨i, k', ret', []⟩) t) = false := by
    rw [pauses_running]; rcases t.inputs with _ | ⟨x, xs⟩ <;> simp [stepIsNext]
  have hlast : Runs 1 (withSeq (.running ⟨i, k', ret', []⟩) t) (complete t) := ⟨hp, rfl⟩
  exact ⟨m + 1, by omega, hr.trans hlast⟩

/-- The effect of a command on an idle block, with BUSY risen and fallen. -/
theorem complete_effect {i : Instr} {s : State} (h : Idle s) :
    complete (effect i (s.setFlag .busy true)) = effect i s := by
  obtain ⟨hs, hb⟩ := h
  have hsame : s.setFlag .busy false = s := by
    have := statusPut_same s.status .busy false hb
    unfold State.setFlag; rw [this]
  have hq : withSeq .idle s = s := by unfold withSeq; rw [← hs]
  unfold complete
  rw [← (oblivious_effect i).busy, ← (oblivious_effect i).seq]
  have h2 : (s.setFlag .busy true).setFlag .busy false = s.setFlag .busy false := by
    unfold State.setFlag; simp only [statusPut_put]
  rw [h2, hsame, hq]

theorem Undisturbed.setFlag {s : State} {n : Nat} (h : Undisturbed s n) (f : StatusBit) (b : Bool) :
    Undisturbed (s.setFlag f b) n := h

/-- From acceptance to the end of a command on an idle block, where no host input lands before. -/
theorem runs_ready {i : Instr} {s : State} (h : ReadyFor i s) :
    ∃ m ≤ lineBound s.cfg i, Runs m (accept i (program i) s) (effect i s) := by
  obtain ⟨hid, hu⟩ := h
  have hu' := hu.setFlag .busy true
  have key : ∀ {todo : List Task} {n k' : Nat} {ret' : Bool},
      Reach n ⟨i, 0, false, todo⟩ (s.setFlag .busy true) ⟨i, k', ret', []⟩ (effect i (s.setFlag .busy true)) →
      n + 1 ≤ lineBound s.cfg i → ∃ m ≤ lineBound s.cfg i, Runs m (accept i todo s) (effect i s) := by
    intro todo n k' ret' hr hn
    rw [← complete_effect hid]
    exact runs_of_reach hr hn
  have hprim : ∀ {t : Task} {s' : State} {b : Bool}, t.isStep = true → 1 ≤ maxSteps s.cfg i →
      retAfter t false (s.setFlag .busy true) = b → act t false (s.setFlag .busy true) = s' →
      effect i (s.setFlag .busy true) = s' → ∃ m ≤ lineBound s.cfg i, Runs m (accept i [t] s) (effect i s) := by
    intro t s' b ht hk hret hact he
    refine key (n := 1) (k' := 1) (ret' := b) ?_ (Nat.le_trans (by omega) (lineBound_ge s.cfg i))
    have := reach_step (cmd := i) (k := 0) (ret := false) (t := t) (rest := []) ht hk hu'
    rw [hret, hact] at this
    rw [he]
    exact this
  cases i with
  | lowc => exact hprim (t := .drive .clock .low) rfl (Nat.le_refl 1) rfl rfl rfl
  | relc => exact hprim (t := .drive .clock .rel) rfl (Nat.le_refl 1) rfl rfl rfl
  | lowd => exact hprim (t := .drive .data .low) rfl (Nat.le_refl 1) rfl rfl rfl
  | reld => exact hprim (t := .drive .data .rel) rfl (Nat.le_refl 1) rfl rfl rfl
  | readd => exact hprim (t := .sampleRdata) rfl (Nat.le_refl 1) rfl rfl rfl
  | delayUnit => exact hprim (t := .wait .unit) rfl (Nat.le_refl 1) rfl rfl rfl
  | delayGap => exact hprim (t := .wait .gap) rfl (Nat.le_refl 1) rfl rfl rfl
  | delayPush => exact hprim (t := .wait .push) rfl (Nat.le_refl 1) rfl rfl rfl
  | start => exact key (reach_start 0 (Nat.le_refl 7) hu') (by simp only [lineBound, attempts]; omega)
  | stop => exact key (reach_stop 0 (Nat.le_refl 6) hu') (by simp only [lineBound, attempts]; omega)
  | wrbyte v =>
    exact key (reach_writeByte (k := 0) (Nat.le_refl 55) hu') (by simp only [lineBound, attempts]; omega)
  | wrtxn1 a d =>
    obtain ⟨k', -, h1⟩ := reach_transaction (cmd := .wrtxn1 a d) (rest := [.setOk]) (k := 0) (ret := false)
      (s := s.setFlag .busy true) a (.bytes [d]) (Nat.le_of_eq (Nat.zero_add _)) hu'
    exact key (h1.trans (reach_line rfl)) (by
      simp only [lineBound, attempts, payloadLength, List.length_cons, List.length_nil]; omega)
  | wrtxnf a =>
    obtain ⟨k', -, h1⟩ := reach_transaction (cmd := .wrtxnf a) (rest := [.setOk]) (k := 0) (ret := false)
      (s := s.setFlag .busy true) a .frame (Nat.le_of_eq (Nat.zero_add _)) hu'
    exact key (h1.trans (reach_line rfl)) (by
      simp only [lineBound, attempts, payloadLength, setFlag_cfg]; omega)
  | sendf =>
    obtain ⟨k', -, h1⟩ := reach_sendFrame (cmd := .sendf) (rest := [.setOk]) (k := 0) (ret := false)
      (s := s.setFlag .busy true) (Nat.le_of_eq (Nat.zero_add _)) hu'
    exact key (h1.trans (reach_line rfl)) (by
      simp only [lineBound, attempts, frameLines, setFlag_cfg]; omega)
  | pushf n =>
    obtain ⟨k', ret', -, h1⟩ := reach_attempt (cmd := .pushf n) (rest := [.drawResults]) (n := n) n (ret := false)
      (a := 1) (k := 0) (s := s.setFlag .busy true) (Nat.add_comm 1 n) (Nat.le_of_eq (Nat.zero_add _)) hu'
    refine key (h1.trans (reach_line rfl)) ?_
    have hle : n * (188 * s.cfg.preamble.length + 84 * s.cfg.frameLen + 103 + 4) ≤
        n * (188 * s.cfg.preamble.length + 84 * s.cfg.frameLen + 400) := Nat.mul_le_mul_left _ (by omega)
    show n * (188 * s.cfg.preamble.length + 84 * s.cfg.frameLen + 103 + 4) + 1 + 1 + 1 ≤
      (n + 1) * (188 * s.cfg.preamble.length + 84 * s.cfg.frameLen + 400)
    rw [Nat.succ_mul n]
    omega
  | fbclr => exact key (reach_line (t := .clearFb) rfl) (by simp only [lineBound, attempts]; omega)
  | fbwr a v => exact key (reach_line (t := .writeFb a v) rfl) (by simp only [lineBound, attempts]; omega)

/-- A run to the end of a command, idle there, is what resuming it gives. -/
theorem resume_of_runs {m : Nat} {r : Running} {s t : State} (hs : s.seq = .running r)
    (hm : m ≤ lineBound s.cfg r.cmd) (h : Runs m s t) (ht : pauses t = true) : resume s = t := by
  have he : lineBound s.cfg r.cmd = m + (lineBound s.cfg r.cmd - m) := by omega
  rw [resume, hs]
  show runLines (lineBound s.cfg r.cmd) s = t
  rw [he]
  exact (runLines_of_runs h _).trans (runLines_pauses ht _)

theorem effect_seq (i : Instr) (s : State) : (effect i s).seq = s.seq := by
  have h := congrArg State.seq ((oblivious_effect i).seq s s.seq)
  rwa [show withSeq s.seq s = s from rfl] at h

/-- THE MEANING OF EVERY COMMAND: on an idle block, where no host input lands before its end, it has the whole
effect that its rule gives it. -/
theorem exec_ready {i : Instr} {s : State} (h : ReadyFor i s) : exec i s = .next (effect i s) := by
  obtain ⟨m, hm, hr⟩ := runs_ready h
  have hp : pauses (effect i s) = true := by simp only [pauses, effect_seq, h.1.1]
  have hres : resume (accept i (program i) s) = effect i s :=
    resume_of_runs (r := ⟨i, 0, false, program i⟩) (accept_seq s i (program i)) (by rw [accept_cfg]; exact hm) hr hp
  rw [exec_eq, if_neg (by simp [h.1.2]), hres]

theorem effect_flag_busy (i : Instr) (s : State) : (effect i s).flag .busy = s.flag .busy := by
  have h := congrArg (fun t => t.flag .busy) ((oblivious_effect i).busy s (s.flag .busy))
  have hsame : s.setFlag .busy (s.flag .busy) = s := by
    unfold State.setFlag State.flag; rw [statusPut_same _ _ _ rfl]
  rw [hsame] at h
  simpa using h

theorem idle_effect (i : Instr) {s : State} (h : Idle s) : Idle (effect i s) :=
  ⟨by rw [effect_seq]; exact h.1, by rw [effect_flag_busy]; exact h.2⟩

theorem effect_inputs (i : Instr) (s : State) : (effect i s).inputs = s.inputs := by
  cases i <;> simp [effect, storeOk, (kept_startCond s).inputs, (kept_stopCond s).inputs,
    (kept_writeByte _ s).inputs, (kept_writeTransaction _ _ s).inputs, (kept_sendFrame s).inputs,
    (kept_pushAttempts _ s).inputs]

/-- With nothing at the inputs, an idle block is ready for every command. -/
theorem readyFor_of_noInputs (i : Instr) {s : State} (h : Idle s) (hin : s.inputs = []) : ReadyFor i s :=
  ⟨h, by simp [Undisturbed, hin]⟩

end Sys2Proof.Machine
end

