-- ==== Sys2Proof/Laws/Step.lean ====
section
/-! SUPPORT. What a step can do, said once (`step_cases`), and the inductions over the sequencer packaged once: a
property that every line of the pseudocode keeps, every command keeps (`exec_keeps`). -/

namespace Sys2Proof.Machine

/-! ### One line of the sequencer -/

/-- What the sequencer can do in one line. -/
theorem seqStep_cases (s : State) :
    (s.seq = .idle ∧ seqStep s = s) ∨
    (∃ r, s.seq = .running r ∧ r.todo = [] ∧ seqStep s = complete s) ∨
    (∃ r t rest, s.seq = .running r ∧ r.todo = t :: rest ∧ seqStep s =
      withSeq (.running ⟨r.cmd, if t.isStep then r.k + 1 else r.k, retAfter t r.ret s, expand t r.ret s ++ rest⟩)
        (act t r.ret s)) := by
  rcases h : s.seq with _ | r
  · left; exact ⟨rfl, by simp [seqStep, h]⟩
  · right
    rcases ht : r.todo with _ | ⟨t, rest⟩
    · left; exact ⟨r, rfl, ht, by simp [seqStep, h, ht]⟩
    · right; exact ⟨r, t, rest, rfl, ht, by simp [seqStep, h, ht]⟩

theorem runLines_keeps {P : State → Prop} (h : ∀ s, P s → P (seqStep s)) (n : Nat) {s : State} (hs : P s) :
    P (runLines n s) := by
  induction n generalizing s with
  | zero => exact hs
  | succ n ih =>
    rw [runLines]
    split
    · exact hs
    · exact ih (h s hs)

/-- A property that one line keeps, a run of the sequencer keeps. -/
theorem resume_keeps {P : State → Prop} (h : ∀ s, P s → P (seqStep s)) {s : State} (hs : P s) : P (resume s) := by
  unfold resume
  split
  · exact hs
  · exact runLines_keeps h _ hs

/-! ### Frames: commands that use some kinds of lines only -/

/-- The lines of a running command are all of kind `S`. -/
def TodoIn (S : Task → Prop) (s : State) : Prop := ∀ r, s.seq = .running r → ∀ t ∈ r.todo, S t

/-- Calls of kind `S` stand for lines of kind `S`. -/
def Closed (S : Task → Prop) : Prop := ∀ t, S t → ∀ ret s, ∀ u ∈ expand t ret s, S u

/-- One line keeps a property that the lines of kind `S` keep. -/
theorem seqStep_keeps {S : Task → Prop} {P : State → Prop} (hS : Closed S)
    (hact : ∀ t ret s, S t → P s → P (act t ret s)) (hseq : ∀ q s, P s → P (withSeq q s))
    (hend : ∀ s, P s → P (complete s)) {s : State} (hs : TodoIn S s ∧ P s) :
    TodoIn S (seqStep s) ∧ P (seqStep s) := by
  obtain ⟨hin, hp⟩ := hs
  rcases seqStep_cases s with ⟨h0, h1⟩ | ⟨r, h0, ht, h1⟩ | ⟨r, t, rest, h0, ht, h1⟩
  · rw [h1]; exact ⟨hin, hp⟩
  · rw [h1]
    refine ⟨?_, hend s hp⟩
    intro r' hr'
    rw [complete_seq] at hr'
    exact absurd hr' (by simp)
  · rw [h1]
    have hall := hin r h0
    rw [ht] at hall
    have hSt : S t := hall t (by simp)
    refine ⟨?_, hseq _ _ (hact t r.ret s hSt hp)⟩
    intro r' hr' u hu
    rw [withSeq_seq] at hr'
    injection hr' with hr'
    rw [← hr'] at hu
    rcases List.mem_append.1 hu with hu | hu
    · exact hS t hSt _ _ u hu
    · exact hall u (by simp [hu])

/-- A running command goes on with lines of its kind, and keeps what they keep. -/
theorem resume_keeps_in {S : Task → Prop} {P : State → Prop} (hS : Closed S)
    (hact : ∀ t ret s, S t → P s → P (act t ret s)) (hseq : ∀ q s, P s → P (withSeq q s))
    (hend : ∀ s, P s → P (complete s)) {s : State} (hs : TodoIn S s ∧ P s) :
    TodoIn S (resume s) ∧ P (resume s) :=
  resume_keeps (P := fun s => TodoIn S s ∧ P s) (fun _ h => seqStep_keeps hS hact hseq hend h) hs

/-- THE FRAME OF A COMMAND: what its lines keep, and acceptance and completion keep, the command keeps. -/
theorem exec_keeps {S : Task → Prop} {P : State → Prop} (hS : Closed S)
    (hact : ∀ t ret s, S t → P s → P (act t ret s)) (hseq : ∀ q s, P s → P (withSeq q s))
    (hbusy : ∀ b s, P s → P (s.setFlag .busy b)) {i : Instr} (hprog : ∀ t ∈ program i, S t) {s t : State}
    (hidle : s.flag .busy = false) (hs : P s) (h : exec i s = .next t) : TodoIn S t ∧ P t := by
  rw [exec_eq, if_neg (by simp [hidle])] at h
  injection h with h
  rw [← h]
  refine resume_keeps_in hS hact hseq (fun s hp => hseq _ _ (hbusy _ _ hp)) ⟨?_, hseq _ _ (hbusy _ _ hs)⟩
  intro r hr
  rw [accept_seq] at hr
  injection hr with hr
  rw [← hr]
  exact hprog

/-- Every line of every command. -/
theorem closed_true : Closed (fun _ => True) := fun _ _ _ _ _ _ => trivial

/-- The lines of a bus primitive command. -/
def IsPrimitive : Task → Prop
  | .drive _ _ => True
  | .wait _ => True
  | .sampleRdata => True
  | .start => True
  | .stop => True
  | _ => False

theorem closed_isPrimitive : Closed IsPrimitive := by
  intro t ht ret s
  cases t <;> first | exact ht.elim | simp [expand, IsPrimitive]

/-- The lines of a command that leaves the frame buffer alone. -/
def LeavesBuffer : Task → Prop
  | .clearFb => False
  | .writeFb _ _ => False
  | _ => True

theorem closed_leavesBuffer : Closed LeavesBuffer := by
  intro t ht ret s
  cases t <;> first | exact ht.elim | (simp only [expand]; (repeat' split) <;> simp [LeavesBuffer])

/-- The lines of the transfer of bytes: no single-bit read, no write of the buffer. -/
def IsTransfer : Task → Prop
  | .sampleRdata => False
  | .clearFb => False
  | .writeFb _ _ => False
  | _ => True

theorem closed_isTransfer : Closed IsTransfer := by
  intro t ht ret s
  cases t <;> first | exact ht.elim | (simp only [expand]; (repeat' split) <;> simp [IsTransfer])

/-- The lines of one byte: those of a transfer that do not write STATUS.OK. -/
def IsByte : Task → Prop
  | .drive _ _ => True
  | .driveBit => True
  | .wait _ => True
  | .sampleAck => True
  | .load _ => True
  | .bits => True
  | .shiftLeft => True
  | .bitCycle => True
  | .ackCycle => True
  | .writeByte _ => True
  | _ => False

theorem closed_isByte : Closed IsByte := by
  intro t ht ret s
  cases t <;> first | exact ht.elim | (simp only [expand]; (repeat' split) <;> simp [IsByte])

/-- The lines of the frame buffer port. -/
def IsPort : Task → Prop
  | .clearFb => True
  | .writeFb _ _ => True
  | _ => False

theorem closed_isPort : Closed IsPort := by
  intro t ht ret s
  cases t <;> first | exact ht.elim | simp [expand, IsPort]

/-! ### One step of the machine -/

/-- WHAT A STEP CAN DO. -/
theorem step_cases {s t : State} (h : step s = .next t) :
    (t = resume s ∧ ∀ x ∈ s.inputs.head?, lands s x = false) ∨
    (∃ x rest, s.inputs = x :: rest ∧ lands s x = true ∧
      ((x.act = .reset ∧ t = resetBlock { s with inputs := rest }) ∨
       (x.act = .readStatus ∧ t = hostReadStatus { s with inputs := rest }) ∨
       (∃ w, x.act = .write w ∧
         ((s.flag .busy = true ∧ t = raiseFault .busy { s with inputs := rest }) ∨
          (s.flag .busy = false ∧ (∃ e, decode w = .error e) ∧ t = raiseFault .illegal { s with inputs := rest }) ∨
          (s.flag .busy = false ∧ ∃ i, decode w = .ok i ∧
            t = resume (accept i (program i) { s with inputs := rest })))))) := by
  unfold step at h
  rcases hin : s.inputs with _ | ⟨x, rest⟩
  · rw [hin] at h
    injection h with h
    left; exact ⟨h.symm, by simp⟩
  · rw [hin] at h
    simp only at h
    split at h
    · rename_i hl
      right
      refine ⟨x, rest, rfl, hl, ?_⟩
      rcases ha : x.act with w | _ | _
      · right; right
        refine ⟨w, rfl, ?_⟩
        rw [ha] at h
        simp only [deliver, writeCmd] at h
        have hf : State.flag { s with inputs := rest } .busy = s.flag .busy := rfl
        rw [hf] at h
        cases hb : s.flag .busy with
        | true =>
          rw [hb, if_pos rfl] at h
          injection h with h
          left; exact ⟨rfl, h.symm⟩
        | false =>
          rw [hb, if_neg (by simp)] at h
          right
          rcases hd : decode w with e | i
          · rw [hd] at h
            injection h with h
            left; exact ⟨rfl, ⟨e, rfl⟩, h.symm⟩
          · rw [hd] at h
            simp only [exec_eq, hf, hb] at h
            injection h with h
            right; exact ⟨rfl, i, rfl, h.symm⟩
      · left
        rw [ha] at h
        injection h with h
        exact ⟨rfl, h.symm⟩
      · right; left
        rw [ha] at h
        injection h with h
        exact ⟨rfl, h.symm⟩
    · rename_i hl
      injection h with h
      left
      refine ⟨h.symm, ?_⟩
      simp only [List.head?_cons, Option.mem_def, Option.some.injEq]
      rintro y rfl
      simpa using hl

/-- A property of the state that every line, acceptance, completion, the faults, the reset input and a read of
STATUS keep, and that does not look at the inputs, every step keeps. -/
theorem step_keeps {P : State → Prop} (hline : ∀ s, P s → P (seqStep s))
    (hacc : ∀ i s, s.flag .busy = false → P s → P (accept i (program i) s))
    (hfault : ∀ k s, P s → P (raiseFault k s)) (hreset : ∀ s, P s → P (resetBlock s))
    (hread : ∀ s, P s → P (hostReadStatus s)) (hin : ∀ s xs, P s → P { s with inputs := xs }) {s t : State}
    (hs : P s) (h : step s = .next t) : P t := by
  rcases step_cases h with ⟨rfl, -⟩ | ⟨x, rest, -, -, h⟩
  · exact resume_keeps hline hs
  · have hp := hin s rest hs
    rcases h with ⟨-, rfl⟩ | ⟨-, rfl⟩ | ⟨w, -, h⟩
    · exact hreset _ hp
    · exact hread _ hp
    · rcases h with ⟨-, rfl⟩ | ⟨-, -, rfl⟩ | ⟨hb, i, -, rfl⟩
      · exact hfault _ _ hp
      · exact hfault _ _ hp
      · exact resume_keeps hline (hacc i _ hb hp)

end Sys2Proof.Machine
end

