-- ==== Sys2Proof/Laws/Invariant.lean ====
section
/-! SUPPORT. The parts of the invariant `Inv` through every operation. -/

namespace Sys2Proof.Machine

/-! ### The trace -/

theorem timeAfter_append (c : Cfg) (es fs : List Event) (lo : Nat) :
    timeAfter c lo (es ++ fs) = (timeAfter c lo es).bind (fun t => timeAfter c t fs) := by
  induction es generalizing lo with
  | nil => rfl
  | cons e es ih =>
    cases e <;> simp only [List.cons_append, timeAfter] <;> split <;> simp [ih]

theorem wireAfter_append (w : WireState) (es fs : List Event) :
    wireAfter w (es ++ fs) = wireAfter (wireAfter w es) fs := by
  induction es generalizing w with
  | nil => rfl
  | cons e es ih => exact ih _

theorem wireClock_drivers (w : WireState) (t : Nat) (v : Driver) :
    (wireClock w t v).1.c = v ∧ (wireClock w t v).1.d = w.d := by
  obtain ⟨c, d, b⟩ := w
  cases c <;> cases v <;> exact ⟨rfl, rfl⟩

theorem wireData_drivers (w : WireState) (t : Nat) (v : Driver) :
    (wireData w t v).1.c = w.c ∧ (wireData w t v).1.d = v := by
  obtain ⟨c, d, b⟩ := w
  cases c <;> cases d <;> cases v <;> exact ⟨rfl, rfl⟩

theorem latency_now_ge (s : State) : s.now ≤ (latency s).now := by rw [latency_now]; omega

theorem waitEnd_ge (d : DelaySel) (s : State) : s.now + delayLength s.cfg d ≤ waitEnd d s := by
  unfold waitEnd; omega

theorem waitEnd_exact (d : DelaySel) (s : State) (h : s.cfg.exactTiming = true) :
    waitEnd d s = s.now + delayLength s.cfg d := by simp [waitEnd, h]

theorem latency_exact (s : State) (h : s.cfg.exactTiming = true) : (latency s).now = s.now := by
  simp [latency_now, h]

theorem delayOk_wait (d : DelaySel) (s : State) :
    delayOk s.cfg s.now (waitEnd d s) (delayLength s.cfg d) = true := by
  have h1 := waitEnd_ge d s
  have h2 := waitEnd_exact d s
  unfold delayOk
  cases he : s.cfg.exactTiming with
  | true => cases d <;> simp [h2 he, delayLength]
  | false => cases d <;> simp_all [delayLength]

/-- The parts of the invariant that the sequencer's lines and calls are about. -/
structure BodyInv (s : State) : Prop where
  fbCanonical : Memory.wf s.cfg.frameLen s.fb = true
  reservedBitsZero : ReservedBitsZero s
  traceInOrder : TraceInOrder s
  traceTellsDrivers : TraceTellsDrivers s

/-- An update that touches none of what the body of the invariant reads. -/
theorem BodyInv.congr {s t : State} (h : BodyInv s) (hcfg : t.cfg = s.cfg) (hfb : t.fb = s.fb)
    (hst : t.status = s.status) (htr : t.trace = s.trace) (hnow : t.now = s.now) (hc : t.drvC = s.drvC)
    (hd : t.drvD = s.drvD) : BodyInv t := by
  obtain ⟨h1, h2, h3, h4⟩ := h
  constructor
  · rw [hcfg, hfb]; exact h1
  · unfold ReservedBitsZero at *; rw [hst]; exact h2
  · unfold TraceInOrder at *; rw [hcfg, htr, hnow]; exact h3
  · unfold TraceTellsDrivers at *; rw [htr, hc, hd]; exact h4

theorem statusPut_reserved {w : Byte} (h : w.getLsbD 6 = false ∧ w.getLsbD 7 = false) (f : StatusBit) (b : Bool) :
    (statusPut w f b).getLsbD 6 = false ∧ (statusPut w f b).getLsbD 7 = false := by
  have hf := statusPos_lt f
  rw [getLsbD_statusPut _ _ _ _ (by omega), getLsbD_statusPut _ _ _ _ (by omega), if_neg (by omega),
    if_neg (by omega)]
  exact h

theorem bodyInv_setFlag {s : State} (h : BodyInv s) (f : StatusBit) (b : Bool) : BodyInv (s.setFlag f b) :=
  ⟨h.1, statusPut_reserved h.2 f b, h.3, h.4⟩

/-- An event at the end of the trace, with the time and the drivers that it tells. -/
theorem bodyInv_event {s t : State} (h : BodyInv s) (e : Event) (hcfg : t.cfg = s.cfg) (hfb : t.fb = s.fb)
    (hst : t.status = s.status) (htr : t.trace = s.trace ++ [e])
    (htime : ∀ lo, lo ≤ s.now → ∃ u, timeAfter s.cfg lo [e] = some u ∧ u ≤ t.now)
    (hwire : ∀ w : WireState, w.c = s.drvC → w.d = s.drvD →
      (wireEvent w e).1.c = t.drvC ∧ (wireEvent w e).1.d = t.drvD) : BodyInv t := by
  obtain ⟨h1, h2, ⟨lo, h3, h3'⟩, h4, h4'⟩ := h
  constructor
  · rw [hcfg, hfb]; exact h1
  · unfold ReservedBitsZero at *; rw [hst]; exact h2
  · obtain ⟨u, hu, hu'⟩ := htime lo h3'
    refine ⟨u, ?_, hu'⟩
    rw [hcfg, htr, timeAfter_append, h3]
    exact hu
  · unfold TraceTellsDrivers
    rw [htr, wireAfter_append]
    exact hwire _ h4 h4'

theorem bodyInv_drive {s : State} (h : BodyInv s) (l : Line) (v : Driver) : BodyInv (drive l v s) := by
  refine bodyInv_event h (.drive (latency s).now l v) (by simp) (by simp) (by simp) (drive_trace s l v) ?_ ?_
  · intro lo hlo
    have := latency_now_ge s
    exact ⟨(latency s).now, by simp [timeAfter]; omega, by simp⟩
  · intro w hc hd
    cases l with
    | clock =>
      obtain ⟨h1, h2⟩ := wireClock_drivers w (latency s).now v
      exact ⟨by simpa [wireEvent] using h1, by simpa [wireEvent, hd] using h2⟩
    | data =>
      obtain ⟨h1, h2⟩ := wireData_drivers w (latency s).now v
      exact ⟨by simpa [wireEvent, hc] using h1, by simpa [wireEvent] using h2⟩

theorem bodyInv_waitFor {s : State} (h : BodyInv s) (d : DelaySel) : BodyInv (waitFor d s) := by
  refine bodyInv_event h (.wait s.now (waitEnd d s) (delayLength s.cfg d)) (by simp) (by simp) (by simp)
    (waitFor_trace s d) ?_ ?_
  · intro lo hlo
    exact ⟨waitEnd d s, by simp [timeAfter, hlo, delayOk_wait], by simp⟩
  · intro w hc hd
    exact ⟨by simpa [wireEvent] using hc, by simpa [wireEvent] using hd⟩

theorem bodyInv_sample {s : State} (h : BodyInv s) : BodyInv (sample s) := by
  refine bodyInv_event h (.sample (latency s).now (sampledAt s 0)) (by simp) (by simp) (by simp)
    (sample_trace s) ?_ ?_
  · intro lo hlo
    have := latency_now_ge s
    exact ⟨(latency s).now, by simp [timeAfter]; omega, by simp⟩
  · intro w hc hd
    obtain ⟨h1, h2⟩ := wireData_drivers w (latency s).now .rel
    exact ⟨by simpa [wireEvent, hc] using h1, by simpa [wireEvent] using h2⟩

theorem bodyInv_withSeq {s : State} (h : BodyInv s) (q : Seq) : BodyInv (withSeq q s) :=
  h.congr rfl rfl rfl rfl rfl rfl rfl

theorem bodyInv_inputs {s : State} (h : BodyInv s) (xs : List HostInput) : BodyInv { s with inputs := xs } :=
  h.congr rfl rfl rfl rfl rfl rfl rfl

theorem bodyInv_writeFb {s : State} (h : BodyInv s) (a : Nat) (v : Byte) : BodyInv (writeFb a v s) := by
  unfold writeFb
  split
  · rename_i ha
    exact ⟨Memory.wf_write h.1 ha v, h.2, h.3, h.4⟩
  · exact h

theorem bodyInv_act {s : State} (h : BodyInv s) (t : Task) (ret : Bool) : BodyInv (act t ret s) := by
  cases t <;> simp only [act] <;> first
    | exact bodyInv_drive h _ _
    | exact bodyInv_waitFor h _
    | exact bodyInv_setFlag (bodyInv_sample h) _ _
    | exact bodyInv_setFlag h _ _
    | exact bodyInv_writeFb h _ _
    | exact h
    | exact h.congr rfl rfl rfl rfl rfl rfl rfl
    | exact (bodyInv_setFlag (bodyInv_setFlag h .ack _) .ok _).congr rfl rfl rfl rfl rfl rfl rfl
    | exact ⟨Memory.wf_empty _, h.2, h.3, h.4⟩

theorem bodyInv_resetBlock (s : State) : BodyInv (resetBlock s) := by
  constructor
  · rw [resetBlock_fb]; exact Memory.wf_empty _
  · unfold ReservedBitsZero; rw [resetBlock_status]; decide
  · exact ⟨0, rfl, Nat.le_refl 0⟩
  · exact ⟨rfl, rfl⟩

/-! ### STATUS.BUSY and the sequencer -/

theorem act_flag_busy (t : Task) (ret : Bool) (s : State) : (act t ret s).flag .busy = s.flag .busy := by
  cases t <;> simp [act]

theorem act_seq (t : Task) (ret : Bool) (s : State) : (act t ret s).seq = s.seq := by
  cases t <;> simp [act]

theorem act_cfg (t : Task) (ret : Bool) (s : State) : (act t ret s).cfg = s.cfg := by
  cases t <;> simp [act]

theorem act_inputs (t : Task) (ret : Bool) (s : State) : (act t ret s).inputs = s.inputs := by
  cases t <;> simp [act]

theorem act_hostReads (t : Task) (ret : Bool) (s : State) : (act t ret s).hostReads = s.hostReads := by
  cases t <;> simp [act]

theorem act_flag_fault (t : Task) (ret : Bool) (s : State) (k : FaultKind) :
    (act t ret s).flag (faultBit k) = s.flag (faultBit k) := by
  cases t <;> cases k <;> simp [act, faultBit]

theorem act_trace (t : Task) (ret : Bool) (s : State) : ∃ es, (act t ret s).trace = s.trace ++ es := by
  cases t <;> simp only [act] <;> first
    | exact ⟨_, drive_trace _ _ _⟩
    | exact ⟨_, waitFor_trace _ _⟩
    | exact ⟨_, sample_trace _⟩
    | exact ⟨[], by simp⟩

theorem act_now (t : Task) (ret : Bool) (s : State) : s.now ≤ (act t ret s).now := by
  have h1 := latency_now_ge s
  have h2 : ∀ d, s.now ≤ waitEnd d s := fun d => Nat.le_trans (Nat.le_add_right _ _) (waitEnd_ge d s)
  cases t <;> simp only [act] <;> first
    | (rw [drive_now]; exact h1)
    | (rw [waitFor_now]; exact h2 _)
    | (rw [setFlag_now, sample_now]; exact h1)
    | simp

theorem Inv.body {s : State} (h : Inv s) : BodyInv s := ⟨h.1, h.3, h.4, h.5⟩

theorem Inv.of_body {s : State} (h : BodyInv s) (hb : BusyTellsRunning s) : Inv s := ⟨h.1, hb, h.2, h.3, h.4⟩

theorem busy_of_running {s : State} {r : Running} (hb : s.flag .busy = true) (hr : s.seq = .running r) :
    BusyTellsRunning s := by simp [BusyTellsRunning, hb, hr]

theorem inv_complete {s : State} (h : BodyInv s) : Inv (complete s) :=
  .of_body (bodyInv_withSeq (bodyInv_setFlag h _ _) _) (by simp [BusyTellsRunning])

theorem inv_accept {s : State} (h : BodyInv s) (i : Instr) (todo : List Task) : Inv (accept i todo s) :=
  .of_body (bodyInv_withSeq (bodyInv_setFlag h _ _) _) (by simp [BusyTellsRunning])

theorem inv_seqStep {s : State} (h : Inv s) : Inv (seqStep s) := by
  rcases seqStep_cases s with ⟨-, h1⟩ | ⟨r, -, -, h1⟩ | ⟨r, t, rest, h0, -, h1⟩
  · rw [h1]; exact h
  · rw [h1]; exact inv_complete h.body
  · rw [h1]
    have hbusy : s.flag .busy = true := h.2.2 (by rw [h0]; simp)
    exact .of_body (bodyInv_withSeq (bodyInv_act h.body t r.ret) _)
      (busy_of_running (by rw [withSeq_flag, act_flag_busy, hbusy]) rfl)

theorem inv_raiseFault {s : State} (h : Inv s) (k : FaultKind) : Inv (raiseFault k s) :=
  .of_body (bodyInv_setFlag h.body _ _) (by
    have := h.2
    unfold BusyTellsRunning at *
    rw [raiseFault_flag, raiseFault_seq, if_neg (by cases k <;> simp [faultBit])]
    exact this)

theorem inv_resetBlock (s : State) : Inv (resetBlock s) :=
  .of_body (bodyInv_resetBlock s) (by simp [BusyTellsRunning])

theorem inv_hostReadStatus {s : State} (h : Inv s) : Inv (hostReadStatus s) :=
  .of_body (h.body.congr rfl rfl rfl rfl rfl rfl rfl) h.2

theorem inv_inputs {s : State} (h : Inv s) (xs : List HostInput) : Inv { s with inputs := xs } :=
  .of_body (bodyInv_inputs h.body xs) h.2

/-! ### What a running command keeps -/

/-- No command clears a fault bit (R202). -/
theorem resume_flag_fault (kind : FaultKind) {s : State} (h : s.flag (faultBit kind) = true) :
    (resume s).flag (faultBit kind) = true := by
  refine resume_keeps (P := fun s => s.flag (faultBit kind) = true) ?_ h
  intro s hs
  rcases seqStep_cases s with ⟨-, h1⟩ | ⟨r, -, -, h1⟩ | ⟨r, t, rest, -, -, h1⟩ <;> rw [h1]
  · exact hs
  · rw [complete_flag]; cases kind <;> simpa [faultBit] using hs
  · rw [withSeq_flag, act_flag_fault, hs]

/-- A running command removes no event and does not turn the time back (R24, R26). -/
theorem resume_history (s : State) :
    (resume s).cfg = s.cfg ∧ (∃ es, (resume s).trace = s.trace ++ es) ∧ s.now ≤ (resume s).now := by
  refine resume_keeps (P := fun t => t.cfg = s.cfg ∧ (∃ es, t.trace = s.trace ++ es) ∧ s.now ≤ t.now) ?_
    ⟨rfl, ⟨[], by simp⟩, Nat.le_refl _⟩
  rintro t ⟨h1, ⟨es, h2⟩, h3⟩
  rcases seqStep_cases t with ⟨-, e⟩ | ⟨r, -, -, e⟩ | ⟨r, u, rest, -, -, e⟩ <;> rw [e]
  · exact ⟨h1, ⟨es, h2⟩, h3⟩
  · exact ⟨h1, ⟨es, h2⟩, h3⟩
  · obtain ⟨fs, hf⟩ := act_trace u r.ret t
    exact ⟨(act_cfg u r.ret t).trans h1, ⟨es ++ fs, by rw [withSeq_trace, hf, h2, List.append_assoc]⟩,
      Nat.le_trans h3 (act_now u r.ret t)⟩

end Sys2Proof.Machine
end

