-- ==== Sys2Proof/Laws/Timing.lean ====
section
/-! SUPPORT. How long the functions of Machine/Pseudocode.lean take, how many events they append and how many
samples they take, with all bytes acknowledged and with the first refusal at a given byte (R139, R161, R162). -/

namespace Sys2Proof.Machine

/-- From `s` to `t`, at least `T` microseconds pass (exactly `T` under `EXACT_TIMING`), `N` events are appended and
`m` samples are taken. -/
structure Span (T N m : Nat) (s t : State) : Prop where
  cfg : t.cfg = s.cfg
  atLeast : s.now + T ≤ t.now
  exactly : s.cfg.exactTiming = true → t.now = s.now + T
  events : t.trace.length = s.trace.length + N
  samples : t.samples = s.samples + m
  peripheral : t.peripheral = s.peripheral.drop m

theorem Span.refl (s : State) : Span 0 0 0 s s := ⟨rfl, by simp, fun _ => rfl, rfl, rfl, rfl⟩

theorem Span.trans {T T' N N' m m' : Nat} {s t u : State} (h : Span T N m s t) (g : Span T' N' m' t u) :
    Span (T + T') (N + N') (m + m') s u := by
  constructor
  · rw [g.cfg, h.cfg]
  · have := h.atLeast; have := g.atLeast; omega
  · intro he
    have h1 := h.exactly he
    have h2 := g.exactly (by rw [h.cfg]; exact he)
    omega
  · rw [g.events, h.events]; omega
  · rw [g.samples, h.samples]; omega
  · rw [g.peripheral, h.peripheral, List.drop_drop]

theorem Span.cast {T T' N N' m m' : Nat} {s t : State} (h : Span T N m s t) (hT : T = T') (hN : N = N')
    (hm : m = m') : Span T' N' m' s t := hT ▸ hN ▸ hm ▸ h

/-- The samples to come move up by those that were taken. -/
theorem sampledAt_span {T N m : Nat} {s t : State} (h : Span T N m s t) (i : Nat) :
    sampledAt t i = sampledAt s (m + i) := by
  unfold sampledAt peripheralAt
  rw [h.peripheral, h.samples, List.getElem?_drop, Nat.add_assoc]

theorem allAck_span {T N m n : Nat} {s t : State} (h : Span T N m s t) (ha : AllAck s (m + n)) : AllAck t n :=
  fun i hi => (sampledAt_span h i).trans (ha (m + i) (by omega))

theorem AllAck.mono {s : State} {m n : Nat} (h : AllAck s n) (hmn : m ≤ n) : AllAck s m :=
  fun i hi => h i (by omega)

theorem firstNack_span {T N m k : Nat} {s t : State} (h : Span T N m s t) (ha : FirstNack s (m + k)) :
    FirstNack t k := ⟨allAck_span h ha.1, (sampledAt_span h k).trans ha.2⟩

theorem span_drive (l : Line) (v : Driver) (s : State) : Span 0 1 0 s (drive l v s) :=
  ⟨by simp, by rw [drive_now, Nat.add_zero]; exact latency_now_ge s, fun h => by simp [latency_exact s h], by simp,
    by simp, by simp⟩

theorem span_waitFor (d : DelaySel) (s : State) : Span (delayLength s.cfg d) 1 0 s (waitFor d s) :=
  ⟨by simp, by rw [waitFor_now]; exact waitEnd_ge d s, fun h => by simp [waitEnd_exact d s h], by simp, by simp,
    by simp⟩

theorem span_sample (s : State) : Span 0 1 1 s (sample s) :=
  ⟨by simp, by rw [sample_now, Nat.add_zero]; exact latency_now_ge s, fun h => by simp [latency_exact s h], by simp,
    by simp, by simp⟩

theorem span_setFlag (f : StatusBit) (b : Bool) (s : State) : Span 0 0 0 s (s.setFlag f b) :=
  ⟨by simp, by simp, by simp, by simp, by simp, by simp⟩

theorem span_drawResults (s : State) : Span 0 0 0 s (drawResults s) :=
  ⟨by simp, by simp, by simp, by simp, by simp, by simp⟩

theorem span_loadByte (v : Byte) (s : State) : Span 0 0 0 s (loadByte v s) :=
  ⟨by simp, by simp, by simp, by simp, by simp, by simp⟩

theorem span_shiftLeft (s : State) : Span 0 0 0 s (shiftLeft s) :=
  ⟨by simp, by simp, by simp, by simp, by simp, by simp⟩

/-- A driver change and the unit delay after it. -/
theorem span_driveWait (l : Line) (v : Driver) (s : State) :
    Span s.cfg.tUnit 2 0 s (waitFor .unit (drive l v s)) := by
  have h := (span_drive l v s).trans (span_waitFor .unit (drive l v s))
  rw [drive_cfg] at h
  exact h.cast (Nat.zero_add _) rfl rfl

/-- The same as one update, with the times of its two events. -/
theorem driveWait_eq (l : Line) (v : Driver) (s : State) : ∃ a b, s.now ≤ a ∧ a + s.cfg.tUnit ≤ b ∧
    (s.cfg.exactTiming = true → a = s.now ∧ b = s.now + s.cfg.tUnit) ∧
    waitFor .unit (drive l v s) =
      { setDriver l v s with
        now := b, trace := s.trace ++ [.drive a l v, .wait a b s.cfg.tUnit], draws := s.draws + 2 } := by
  refine ⟨(latency s).now, waitEnd .unit (drive l v s), latency_now_ge s, ?_, ?_, ?_⟩
  · have := waitEnd_ge .unit (drive l v s); simpa [delayLength] using this
  · intro he
    have h := waitEnd_exact .unit (drive l v s) (by simpa using he)
    exact ⟨latency_exact s he, by simpa [delayLength, latency_exact s he] using h⟩
  · cases l <;> simp [waitFor, drive, record, setDriver, latency, delayLength]

theorem span_startCond (s : State) : Span (3 * s.cfg.tUnit) 7 0 s (startCond s) := by
  rw [startCond]
  have h1 := span_drive .data .rel s
  have h2 := span_driveWait .clock .rel (drive .data .rel s)
  have h3 := span_driveWait .data .low (waitFor .unit (drive .clock .rel (drive .data .rel s)))
  have h4 := span_driveWait .clock .low
    (waitFor .unit (drive .data .low (waitFor .unit (drive .clock .rel (drive .data .rel s)))))
  simp only [drive_cfg, waitFor_cfg] at h2 h3 h4
  exact (((h1.trans h2).trans h3).trans h4).cast (by omega) rfl rfl

theorem span_stopCond (s : State) : Span (3 * s.cfg.tUnit) 6 0 s (stopCond s) := by
  rw [stopCond]
  have h1 := span_driveWait .data .low s
  have h2 := span_driveWait .clock .rel (waitFor .unit (drive .data .low s))
  have h3 := span_driveWait .data .rel (waitFor .unit (drive .clock .rel (waitFor .unit (drive .data .low s))))
  simp only [drive_cfg, waitFor_cfg] at h2 h3
  exact ((h1.trans h2).trans h3).cast (by omega) rfl rfl

theorem span_bitCycle (x : Bool) (s : State) : Span (3 * s.cfg.tUnit) 6 0 s (bitCycle x s) := by
  rw [bitCycle]
  have h1 := span_driveWait .data (driverOfBit x) s
  have h2 := span_driveWait .clock .rel (waitFor .unit (drive .data (driverOfBit x) s))
  have h3 := span_driveWait .clock .low
    (waitFor .unit (drive .clock .rel (waitFor .unit (drive .data (driverOfBit x) s))))
  simp only [drive_cfg, waitFor_cfg] at h2 h3
  exact ((h1.trans h2).trans h3).cast (by omega) rfl rfl

theorem span_beforeAck (s : State) : Span (2 * s.cfg.tUnit) 4 0 s (beforeAck s) := by
  rw [beforeAck]
  have h1 := span_driveWait .data .rel s
  have h2 := span_driveWait .clock .rel (waitFor .unit (drive .data .rel s))
  simp only [drive_cfg, waitFor_cfg] at h2
  exact (h1.trans h2).cast (by omega) rfl rfl

theorem span_ackCycle (s : State) : Span (3 * s.cfg.tUnit) 7 1 s (ackCycle s).2 := by
  rw [ackCycle_eq]
  have h1 := span_beforeAck s
  have h2 := span_sample (beforeAck s)
  have h3 := span_setFlag .ack (ackOfSample (sampledAt (beforeAck s) 0)) (sample (beforeAck s))
  have h4 := span_driveWait .clock .low
    ((sample (beforeAck s)).setFlag .ack (ackOfSample (sampledAt (beforeAck s) 0)))
  simp only [setFlag_cfg, sample_cfg, (kept_beforeAck s).cfg] at h4
  exact (((h1.trans h2).trans h3).trans h4).cast (by omega) rfl rfl

theorem fst_ackCycle (s : State) : (ackCycle s).1 = !sampledAt s 0 := by
  rw [ackCycle_eq]
  show ackOfSample (sampledAt (beforeAck s) 0) = !sampledAt s 0
  rw [sampledAt_span (span_beforeAck s)]
  rfl

theorem span_sendBits (n : Nat) {s : State} (h : s.bitcnt.val + n = 8) :
    Span (3 * n * s.cfg.tUnit) (6 * n) 0 s (sendBits n s) := by
  induction n generalizing s with
  | zero => rw [sendBits]; exact (Span.refl s).cast (by simp) rfl rfl
  | succ n ih =>
    have hlt : s.bitcnt.val < 8 := by omega
    rw [sendBits, if_pos hlt]
    have h1 := span_bitCycle (topBit s) s
    have h2 := span_shiftLeft (bitCycle (topBit s) s)
    have hb : (shiftLeft (bitCycle (topBit s) s)).bitcnt.val = s.bitcnt.val + 1 := by
      rw [val_bitcnt_shiftLeft (by rw [bitcnt_bitCycle]; exact hlt), bitcnt_bitCycle]
    have h3 := ih (s := shiftLeft (bitCycle (topBit s) s)) (by omega)
    rw [shiftLeft_cfg, (kept_bitCycle _ s).cfg] at h3
    exact ((h1.trans h2).trans h3).cast (by ring) (by omega) rfl

theorem span_writeByte (v : Byte) (s : State) : Span (27 * s.cfg.tUnit) 55 1 s (writeByte v s).2 := by
  rw [writeByte]
  have h1 := span_loadByte v s
  have h2 := span_sendBits 8 (s := loadByte v s) rfl
  have h3 := span_ackCycle (sendBits 8 (loadByte v s))
  rw [loadByte_cfg] at h2
  rw [(kept_sendBits 8 _).cfg, loadByte_cfg] at h3
  exact ((h1.trans h2).trans h3).cast (by ring) rfl rfl

/-- `writeByte` returns whether the next sample reads low (R131, R132). -/
theorem fst_writeByte (v : Byte) (s : State) : (writeByte v s).1 = !sampledAt s 0 := by
  rw [writeByte, fst_ackCycle]
  have h1 := (span_loadByte v s).trans (span_sendBits 8 (s := loadByte v s) rfl)
  rw [sampledAt_span h1]

/-- The bytes of a transaction, all acknowledged. -/
theorem sendBytes_allAck (vs : List Byte) {s : State} (h : AllAck s vs.length) :
    (sendBytes vs s).1 = true ∧
      Span ((27 * vs.length + 3) * s.cfg.tUnit) (55 * vs.length + 6) vs.length s (sendBytes vs s).2 := by
  induction vs generalizing s with
  | nil => rw [sendBytes]; exact ⟨rfl, (span_stopCond s).cast (by simp) rfl rfl⟩
  | cons v vs ih =>
    have hw := span_writeByte v s
    have h1 : (writeByte v s).1 = true := by rw [fst_writeByte, h 0 (by simp)]; rfl
    rw [sendBytes, if_pos h1]
    obtain ⟨h2, h3⟩ := ih (allAck_span (n := vs.length) hw (by rw [Nat.add_comm]; simpa using h))
    rw [hw.cfg] at h3
    refine ⟨h2, (hw.trans h3).cast ?_ ?_ ?_⟩ <;> simp only [List.length_cons] <;> ring

/-- The bytes of a transaction, byte `k` the first that is refused. -/
theorem sendBytes_firstNack (vs : List Byte) {s : State} {k : Nat} (hk : k < vs.length) (h : FirstNack s k) :
    (sendBytes vs s).1 = false ∧
      Span ((27 * (k + 1) + 3) * s.cfg.tUnit) (55 * (k + 1) + 6) (k + 1) s (sendBytes vs s).2 := by
  induction vs generalizing s k with
  | nil => simp at hk
  | cons v vs ih =>
    have hw := span_writeByte v s
    rw [sendBytes]
    cases k with
    | zero =>
      have h1 : ¬ (writeByte v s).1 = true := by rw [fst_writeByte, h.2]; simp
      rw [if_neg h1]
      have hs := span_stopCond (writeByte v s).2
      rw [hw.cfg] at hs
      exact ⟨rfl, (hw.trans hs).cast (by ring) rfl rfl⟩
    | succ k =>
      have h1 : (writeByte v s).1 = true := by rw [fst_writeByte, h.1 0 (by omega)]; rfl
      rw [if_pos h1]
      obtain ⟨h2, h3⟩ := ih (by simpa using hk) (firstNack_span (k := k) hw (by rw [Nat.add_comm]; exact h))
      rw [hw.cfg] at h3
      refine ⟨h2, (hw.trans h3).cast ?_ ?_ ?_⟩ <;> ring

/-- R139, all acknowledged. -/
theorem writeTransaction_allAck (a : Byte) (p : List Byte) {s : State} (h : AllAck s (1 + p.length)) :
    (writeTransaction a p s).1 = true ∧
      Span ((33 + 27 * p.length) * s.cfg.tUnit) (transactionSteps p.length) (1 + p.length) s
        (writeTransaction a p s).2 := by
  have hs := span_startCond s
  rw [writeTransaction]
  obtain ⟨h1, h2⟩ := sendBytes_allAck (a :: p) (allAck_span (n := (a :: p).length) hs
    (by simpa [Nat.add_comm] using h))
  rw [hs.cfg] at h2
  refine ⟨h1, (hs.trans h2).cast ?_ ?_ ?_⟩ <;> simp only [List.length_cons, transactionSteps] <;> ring

/-- R139, byte `k` the first that is refused. -/
theorem writeTransaction_firstNack (a : Byte) (p : List Byte) {s : State} {k : Nat} (hk : k ≤ p.length)
    (h : FirstNack s k) :
    (writeTransaction a p s).1 = false ∧
      Span ((33 + 27 * k) * s.cfg.tUnit) (transactionSteps k) (k + 1) s (writeTransaction a p s).2 := by
  have hs := span_startCond s
  rw [writeTransaction]
  obtain ⟨h1, h2⟩ := sendBytes_firstNack (a :: p) (k := k) (by simp; omega)
    (firstNack_span (k := k) hs (by rw [Nat.zero_add]; exact h))
  rw [hs.cfg] at h2
  refine ⟨h1, (hs.trans h2).cast ?_ ?_ ?_⟩ <;> (try simp only [transactionSteps]) <;> ring

theorem length_frameBytes (s : State) : (frameBytes s).length = s.cfg.frameLen := by simp [frameBytes]

theorem frameBytes_kept {s t : State} (h : Kept s t) : frameBytes t = frameBytes s := by
  unfold frameBytes; rw [h.cfg, h.fb]

theorem sendPreamble_allAck (vs : List Byte) {s : State} (h : AllAck s (frameSamples s.cfg vs.length)) :
    (sendPreamble vs s).1 = true ∧
      Span (frameTime s.cfg vs.length) (vs.length * (transactionSteps 1 + 1) + 1 + transactionSteps s.cfg.frameLen)
        (frameSamples s.cfg vs.length) s (sendPreamble vs s).2 := by
  induction vs generalizing s with
  | nil =>
    rw [sendPreamble]
    have hw := span_waitFor .gap s
    obtain ⟨h1, h2⟩ := writeTransaction_allAck (addrByte s.cfg) (frameBytes s) (s := waitFor .gap s)
      (allAck_span (n := 1 + (frameBytes s).length) hw (by
        rw [length_frameBytes]; simpa [frameSamples] using h))
    rw [waitFor_cfg, length_frameBytes] at h2
    refine ⟨h1, (hw.trans h2).cast ?_ ?_ ?_⟩
    · simp [frameTime, delayLength]
    · simp
    · simp [frameSamples]
  | cons v vs ih =>
    simp only [List.length_cons] at h ⊢
    obtain ⟨h1, h2⟩ := writeTransaction_allAck (addrByte s.cfg) [v] (s := s) (h.mono (by
      simp only [frameSamples, List.length_cons, List.length_nil]; omega))
    rw [sendPreamble, if_pos h1]
    have hw := span_waitFor .unit (writeTransaction (addrByte s.cfg) [v] s).2
    rw [h2.cfg] at hw
    have hall := h2.trans hw
    obtain ⟨h3, h4⟩ := ih (s := waitFor .unit (writeTransaction (addrByte s.cfg) [v] s).2)
      (allAck_span hall (h.mono (by
        rw [hall.cfg]; simp only [frameSamples, List.length_cons, List.length_nil]; omega)))
    rw [hall.cfg] at h4
    refine ⟨h3, (hall.trans h4).cast ?_ ?_ ?_⟩ <;>
      simp only [frameTime, frameSamples, delayLength, List.length_cons, List.length_nil, transactionSteps] <;> ring

/-- R162, the first refused byte in preamble transaction `i`. -/
theorem sendPreamble_nackPreamble (vs : List Byte) {s : State} {i k : Nat} (hi : i < vs.length) (hk : k < 2)
    (h : FirstNack s (2 * i + k)) :
    (sendPreamble vs s).1 = false ∧
      Span ((61 * i + 33 + 27 * k) * s.cfg.tUnit) (i * (transactionSteps 1 + 1) + transactionSteps k)
        (2 * i + k + 1) s (sendPreamble vs s).2 := by
  induction vs generalizing s i with
  | nil => simp at hi
  | cons v vs ih =>
    rw [sendPreamble]
    cases i with
    | zero =>
      obtain ⟨h1, h2⟩ := writeTransaction_firstNack (addrByte s.cfg) [v] (s := s) (k := k) (by simp; omega)
        (by simpa using h)
      rw [if_neg (by simp [h1])]
      exact ⟨rfl, h2.cast (by ring) (by ring) (by ring)⟩
    | succ i =>
      obtain ⟨h1, h2⟩ := writeTransaction_allAck (addrByte s.cfg) [v] (s := s) (h.1.mono (by simp; omega))
      rw [if_pos h1]
      have hw := span_waitFor .unit (writeTransaction (addrByte s.cfg) [v] s).2
      rw [h2.cfg] at hw
      have hall := h2.trans hw
      obtain ⟨h3, h4⟩ := ih (i := i) (by simpa using hi)
        (firstNack_span (k := 2 * i + k) hall (by
          have : 1 + [v].length + 0 + (2 * i + k) = 2 * (i + 1) + k := by simp; omega
          rw [this]; exact h))
      rw [hall.cfg] at h4
      refine ⟨h3, (hall.trans h4).cast ?_ ?_ ?_⟩ <;>
        simp only [delayLength, List.length_cons, List.length_nil, transactionSteps] <;> ring

/-- R162, the first refused byte in the payload transaction. -/
theorem sendPreamble_nackPayload (vs : List Byte) {s : State} {k : Nat} (hk : k ≤ s.cfg.frameLen)
    (h : FirstNack s (2 * vs.length + k)) :
    (sendPreamble vs s).1 = false ∧
      Span ((61 * vs.length + 33 + 27 * k) * s.cfg.tUnit + s.cfg.tGap)
        (vs.length * (transactionSteps 1 + 1) + 1 + transactionSteps k) (2 * vs.length + k + 1) s
        (sendPreamble vs s).2 := by
  induction vs generalizing s with
  | nil =>
    rw [sendPreamble]
    have hw := span_waitFor .gap s
    obtain ⟨h1, h2⟩ := writeTransaction_firstNack (addrByte s.cfg) (frameBytes s) (s := waitFor .gap s) (k := k)
      (by rw [length_frameBytes]; exact hk) (firstNack_span (k := k) hw (by simpa using h))
    rw [waitFor_cfg] at h2
    refine ⟨h1, (hw.trans h2).cast (by simp [delayLength]; ring) (by simp) (by simp)⟩
  | cons v vs ih =>
    simp only [List.length_cons] at h ⊢
    obtain ⟨h1, h2⟩ := writeTransaction_allAck (addrByte s.cfg) [v] (s := s) (h.1.mono (by simp; omega))
    rw [sendPreamble, if_pos h1]
    have hw := span_waitFor .unit (writeTransaction (addrByte s.cfg) [v] s).2
    rw [h2.cfg] at hw
    have hall := h2.trans hw
    obtain ⟨h3, h4⟩ := ih (s := waitFor .unit (writeTransaction (addrByte s.cfg) [v] s).2)
      (by rw [hall.cfg]; exact hk)
      (firstNack_span (k := 2 * vs.length + k) hall (by
        have : 1 + [v].length + 0 + (2 * vs.length + k) = 2 * (vs.length + 1) + k := by simp; omega
        rw [this]; exact h))
    rw [hall.cfg] at h4
    refine ⟨h3, (hall.trans h4).cast ?_ ?_ ?_⟩ <;>
      simp only [delayLength, List.length_cons, List.length_nil, transactionSteps] <;> ring

/-- R166, all acknowledged. -/
theorem pushAttempts_allAck (n : Nat) {s : State}
    (h : AllAck s (n * frameSamples s.cfg s.cfg.preamble.length)) :
    Span (n * frameTime s.cfg s.cfg.preamble.length + (n - 1) * s.cfg.tPush) (n * frameSteps s.cfg + (n - 1))
      (n * frameSamples s.cfg s.cfg.preamble.length) s (pushAttempts n s) := by
  induction n generalizing s with
  | zero => rw [pushAttempts]; exact (Span.refl s).cast (by simp) (by simp) (by simp)
  | succ n ih =>
    rw [Nat.succ_mul] at h
    have hf : Span (frameTime s.cfg s.cfg.preamble.length) (frameSteps s.cfg)
        (frameSamples s.cfg s.cfg.preamble.length) s (sendFrame s).2 := by
      rw [sendFrame]
      exact (sendPreamble_allAck s.cfg.preamble (h.mono (by omega))).2
    rw [pushAttempts]
    cases n with
    | zero =>
      rw [if_pos rfl, pushAttempts]
      exact hf.cast (by simp) (by simp) (by simp)
    | succ n =>
      rw [if_neg (by omega)]
      have hw := span_waitFor .push (sendFrame s).2
      rw [hf.cfg] at hw
      have hall := hf.trans hw
      have h2 := ih (s := waitFor .push (sendFrame s).2)
        (by rw [hall.cfg]; exact allAck_span hall (h.mono (by omega)))
      rw [hall.cfg] at h2
      refine (hall.trans h2).cast ?_ ?_ ?_
      · simp only [delayLength, Nat.add_sub_cancel]; ring
      · simp only [Nat.add_sub_cancel]; ring
      · ring

/-- R244: with no peripheral, every attempt of `PUSHF` is one refused address byte. -/
theorem pushAttempts_absent (n : Nat) : ∀ {s : State}, (∀ j < n, sampledAt s j = true) → s.cfg.preamble ≠ [] →
    Span (n * (33 * s.cfg.tUnit) + (n - 1) * s.cfg.tPush) (68 * n + (n - 1)) n s (pushAttempts n s) := by
  induction n with
  | zero => intro s _ _; rw [pushAttempts]; exact (Span.refl s).cast (by simp) rfl rfl
  | succ n ih =>
    intro s hs hp
    have hpos := List.length_pos_of_ne_nil hp
    have hf := (sendPreamble_nackPreamble s.cfg.preamble (s := s) (i := 0) (k := 0) hpos (by omega)
      ⟨fun j hj => by omega, hs 0 (by omega)⟩).2
    rw [show sendPreamble s.cfg.preamble s = sendFrame s by rw [sendFrame]] at hf
    rw [pushAttempts]
    by_cases hn : n = 0
    · subst hn
      rw [if_pos rfl, pushAttempts]
      exact hf.cast (by ring) rfl rfl
    · rw [if_neg hn]
      have hw := span_waitFor .push (sendFrame s).2
      rw [hf.cfg] at hw
      have hall := hf.trans hw
      have g := ih (s := waitFor .push (sendFrame s).2) (fun j hj => by rw [sampledAt_span hall]; exact hs _ (by omega))
        (by rw [hall.cfg]; exact hp)
      rw [hall.cfg] at g
      obtain ⟨n, rfl⟩ : ∃ m, n = m + 1 := ⟨n - 1, by omega⟩
      refine (hall.trans g).cast ?_ ?_ ?_
      · simp only [delayLength, Nat.add_sub_cancel]; ring
      · simp only [transactionSteps, Nat.add_sub_cancel]; omega
      · omega

/-- Either the next `n` samples all acknowledge, or one of them is the first that does not. -/
theorem allAck_or_firstNack (s : State) (n : Nat) : AllAck s n ∨ ∃ k < n, FirstNack s k := by
  induction n with
  | zero => exact .inl fun i hi => by omega
  | succ n ih =>
    rcases ih with h | ⟨k, hk, h⟩
    · cases hs : sampledAt s n with
      | true => exact .inr ⟨n, by omega, h, hs⟩
      | false =>
        refine .inl fun i hi => ?_
        rcases Nat.lt_succ_iff_lt_or_eq.1 hi with hi | rfl
        · exact h i hi
        · exact hs
    · exact .inr ⟨k, by omega, h⟩

/-- A transaction takes at most what it takes when every byte is acknowledged. -/
theorem writeTransaction_atMost (a : Byte) (p : List Byte) (s : State) :
    ∃ T N m, T ≤ (33 + 27 * p.length) * s.cfg.tUnit ∧ N ≤ transactionSteps p.length ∧
      Span T N m s (writeTransaction a p s).2 := by
  rcases allAck_or_firstNack s (1 + p.length) with h | ⟨k, hk, h⟩
  · exact ⟨_, _, _, Nat.le_refl _, Nat.le_refl _, (writeTransaction_allAck a p h).2⟩
  · refine ⟨_, _, _, Nat.mul_le_mul_right _ (by omega), ?_, (writeTransaction_firstNack a p (by omega) h).2⟩
    simp only [transactionSteps]; omega

/-- A frame sequence takes at most what it takes when every byte is acknowledged. -/
theorem sendPreamble_atMost (vs : List Byte) : ∀ s : State,
    ∃ T N m, T ≤ frameTime s.cfg vs.length ∧
      N ≤ vs.length * (transactionSteps 1 + 1) + 1 + transactionSteps s.cfg.frameLen ∧
      Span T N m s (sendPreamble vs s).2 := by
  induction vs with
  | nil =>
    intro s
    rw [sendPreamble]
    have hw := span_waitFor .gap s
    obtain ⟨T, N, m, hT, hN, h⟩ := writeTransaction_atMost (addrByte s.cfg) (frameBytes s) (waitFor .gap s)
    rw [waitFor_cfg, length_frameBytes] at hT
    rw [length_frameBytes] at hN
    refine ⟨_, _, _, ?_, ?_, hw.trans h⟩
    · simp only [frameTime, delayLength, List.length_nil]; omega
    · simp only [List.length_nil]; omega
  | cons v vs ih =>
    intro s
    obtain ⟨T, N, m, hT, hN, h⟩ := writeTransaction_atMost (addrByte s.cfg) [v] s
    simp only [List.length_cons, List.length_nil, Nat.zero_add] at hT hN ⊢
    rw [sendPreamble]
    split
    · have hw := span_waitFor .unit (writeTransaction (addrByte s.cfg) [v] s).2
      have hall := h.trans hw
      rw [h.cfg] at hall
      obtain ⟨T', N', m', hT', hN', h'⟩ := ih (waitFor .unit (writeTransaction (addrByte s.cfg) [v] s).2)
      rw [hall.cfg] at hT' hN'
      refine ⟨_, _, _, ?_, ?_, hall.trans h'⟩
      · simp only [frameTime, delayLength] at *
        have e1 : 61 * (vs.length + 1) * s.cfg.tUnit = 60 * s.cfg.tUnit + s.cfg.tUnit + 61 * vs.length * s.cfg.tUnit := by
          ring
        omega
      · rw [Nat.succ_mul]; omega
    · refine ⟨_, _, _, ?_, ?_, h⟩
      · simp only [frameTime]
        have e1 : 61 * (vs.length + 1) * s.cfg.tUnit = 60 * s.cfg.tUnit + s.cfg.tUnit + 61 * vs.length * s.cfg.tUnit := by
          ring
        omega
      · rw [Nat.succ_mul]; omega

/-- The attempts of a push take at most what they take when every byte is acknowledged. -/
theorem pushAttempts_atMost (n : Nat) : ∀ s : State,
    ∃ T N m, T ≤ n * frameTime s.cfg s.cfg.preamble.length + (n - 1) * s.cfg.tPush ∧
      N ≤ n * frameSteps s.cfg + (n - 1) ∧ Span T N m s (pushAttempts n s) := by
  induction n with
  | zero => intro s; rw [pushAttempts]; exact ⟨0, 0, 0, by simp, by simp, Span.refl s⟩
  | succ n ih =>
    intro s
    obtain ⟨T, N, m, hT, hN, h⟩ := sendPreamble_atMost s.cfg.preamble s
    rw [show sendPreamble s.cfg.preamble s = sendFrame s by rw [sendFrame]] at h
    rw [pushAttempts]
    cases n with
    | zero =>
      rw [if_pos rfl, pushAttempts]
      exact ⟨T, N, m, by simpa using hT, by simpa [frameSteps] using hN, h⟩
    | succ n =>
      rw [if_neg (by omega)]
      have hw := span_waitFor .push (sendFrame s).2
      have hall := h.trans hw
      rw [h.cfg] at hall
      obtain ⟨T', N', m', hT', hN', h'⟩ := ih (waitFor .push (sendFrame s).2)
      rw [hall.cfg] at hT' hN'
      refine ⟨_, _, _, ?_, ?_, hall.trans h'⟩
      · simp only [delayLength, Nat.add_sub_cancel] at *
        rw [Nat.succ_mul (n + 1), Nat.succ_mul n s.cfg.tPush]
        omega
      · simp only [Nat.add_sub_cancel, frameSteps] at *
        rw [Nat.succ_mul (n + 1)]
        omega

theorem span_writeFb (a : Nat) (v : Byte) (s : State) : Span 0 0 0 s (writeFb a v s) :=
  ⟨by simp, by simp, by simp, by simp, by simp, by simp⟩

/-- R249: what every command takes, all bytes acknowledged. -/
theorem span_effect (i : Instr) {s : State} (ha : AllAck s (sampleCount s.cfg i)) :
    Span (nominalTime s.cfg i) (maxSteps s.cfg i) (sampleCount s.cfg i) s (effect i s) :=
  match i with
  | .lowc => span_drive .clock .low s
  | .relc => span_drive .clock .rel s
  | .lowd => span_drive .data .low s
  | .reld => span_drive .data .rel s
  | .readd => (span_sample s).trans (span_setFlag .rdata (sampledAt s 0) (sample s))
  | .delayUnit => span_waitFor .unit s
  | .delayGap => span_waitFor .gap s
  | .delayPush => span_waitFor .push s
  | .start => span_startCond s
  | .stop => span_stopCond s
  | .wrbyte v => span_writeByte v s
  | .wrtxn1 a d =>
    ((writeTransaction_allAck a [d] ha).2.trans (span_setFlag .ok _ _)).cast (by simp [nominalTime]) rfl rfl
  | .wrtxnf a => by
    have h := (writeTransaction_allAck a (frameBytes s) (s := s) (by rw [length_frameBytes]; exact ha)).2.trans
      (span_setFlag .ok (writeTransaction a (frameBytes s) s).1 _)
    rw [length_frameBytes] at h
    exact h
  | .sendf => by
    have h := (sendPreamble_allAck s.cfg.preamble ha).2.trans (span_setFlag .ok (sendFrame s).1 _)
    rw [show sendPreamble s.cfg.preamble s = sendFrame s by rw [sendFrame]] at h
    exact h
  | .pushf n => (pushAttempts_allAck n ha).trans (span_drawResults _)
  | .fbclr => ⟨rfl, Nat.le_refl _, fun _ => rfl, rfl, rfl, rfl⟩
  | .fbwr index v => span_writeFb index v s

end Sys2Proof.Machine
end

