-- ==== Sys2Proof/Laws/Wire.lean ====
section
/-! SUPPORT. What the functions of Machine/Pseudocode.lean put on the wire (R77 to R80). -/

namespace Sys2Proof.Machine

theorem wireSymbols_append (w : WireState) (es fs : List Event) :
    wireSymbols w (es ++ fs) = wireSymbols w es ++ wireSymbols (wireAfter w es) fs := by
  induction es generalizing w with
  | nil => rfl
  | cons e es ih => simp only [List.cons_append, wireSymbols, wireAfter, ih, List.append_assoc]

/-- From `s` to `t` the trace shows the symbols `xs` to an observer at `w`, who is at `w'` afterwards, and under
`EXACT_TIMING` its conditions have the times of `zs`. -/
def Shows (w : WireState) (xs : List Symbol) (zs : List (Nat × Symbol)) (w' : WireState) (s t : State) : Prop :=
  ∃ es, t.trace = s.trace ++ es ∧ wireAfter w es = w' ∧ (wireSymbols w es).map Prod.snd = xs ∧
    (s.cfg.exactTiming = true → conditions (wireSymbols w es) = zs)

theorem Shows.trans {w w' w'' : WireState} {xs ys : List Symbol} {zs zs' : List (Nat × Symbol)} {s t u : State}
    (h : Shows w xs zs w' s t) (hc : t.cfg = s.cfg) (g : Shows w' ys zs' w'' t u) :
    Shows w (xs ++ ys) (zs ++ zs') w'' s u := by
  obtain ⟨es, h1, h2, h3, h4⟩ := h
  obtain ⟨fs, g1, g2, g3, g4⟩ := g
  refine ⟨es ++ fs, ?_, ?_, ?_, ?_⟩
  · rw [g1, h1, List.append_assoc]
  · rw [wireAfter_append, h2, g2]
  · rw [wireSymbols_append, List.map_append, h2, h3, g3]
  · intro he
    rw [wireSymbols_append, h2]
    unfold conditions at *
    rw [List.filter_append, h4 he, g4 (by rw [hc]; exact he)]

/-- An update that appends nothing. -/
theorem Shows.still (w : WireState) {s t : State} (h : t.trace = s.trace) : Shows w [] [] w s t :=
  ⟨[], by simp [h], rfl, rfl, fun _ => rfl⟩

theorem Shows.cast {w w' : WireState} {xs xs' : List Symbol} {zs zs' : List (Nat × Symbol)} {s t : State}
    (h : Shows w xs zs w' s t) (hx : xs = xs') (hz : s.cfg.exactTiming = true → zs = zs') :
    Shows w xs' zs' w' s t := by
  obtain ⟨es, h1, h2, h3, h4⟩ := h
  exact ⟨es, h1, h2, h3.trans hx, fun he => (h4 he).trans (hz he)⟩

/-- One event. -/
theorem Shows.event {s t : State} (w : WireState) (e : Event) (h : t.trace = s.trace ++ [e]) :
    Shows w ((wireEvent w e).2.map Prod.snd) (conditions (wireEvent w e).2) (wireEvent w e).1 s t :=
  ⟨[e], h, rfl, by simp [wireSymbols], fun _ => by simp [wireSymbols]⟩

/-- A driver change and the unit delay after it. -/
theorem shows_driveWait (w : WireState) (l : Line) (v : Driver) (s : State) :
    Shows w ((wireEvent w (.drive (latency s).now l v)).2.map Prod.snd)
      (conditions (wireEvent w (.drive (latency s).now l v)).2) (wireEvent w (.drive (latency s).now l v)).1 s
      (waitFor .unit (drive l v s)) :=
  ((Shows.event w _ (drive_trace s l v)).trans (drive_cfg s l v)
    (Shows.event _ _ (waitFor_trace (drive l v s) .unit))).cast (List.append_nil _) (fun _ => List.append_nil _)

/-- The unit delay of R110 and the like ends one unit after the driver change. -/
theorem now_driveWait {s : State} (h : s.cfg.exactTiming = true) (l : Line) (v : Driver) :
    waitEnd .unit (drive l v s) = s.now + s.cfg.tUnit := by
  rw [← waitFor_now]; exact (span_driveWait l v s).exactly h

theorem shows_startCond (b : Bool) (s : State) :
    Shows { c := .rel, d := .rel, shown := b } [.start] [(s.now + s.cfg.tUnit, .start)]
      { c := .low, d := .low, shown := true } s (startCond s) := by
  rw [startCond]
  have h1 := Shows.event { c := .rel, d := .rel, shown := b } _ (drive_trace s .data .rel)
  have h2 := shows_driveWait { c := .rel, d := .rel, shown := b } .clock .rel (drive .data .rel s)
  have h3 := shows_driveWait { c := .rel, d := .rel, shown := b } .data .low
    (waitFor .unit (drive .clock .rel (drive .data .rel s)))
  have h4 := shows_driveWait { c := .rel, d := .low, shown := true } .clock .low
    (waitFor .unit (drive .data .low (waitFor .unit (drive .clock .rel (drive .data .rel s)))))
  have h := ((h1.trans (by simp) h2).trans (by simp) h3).trans (by simp) h4
  refine h.cast rfl ?_
  intro he
  have e1 : (drive .data .rel s).cfg.exactTiming = true := by simpa using he
  have e2 : (waitFor .unit (drive .clock .rel (drive .data .rel s))).cfg.exactTiming = true := by simpa using he
  simp [wireEvent, wireData, wireClock, conditions, isPulse, latency_exact _ e2, latency_exact _ he,
    now_driveWait e1]

theorem shows_stopCond (w : WireState) (hc : w.c = .low) (s : State) :
    Shows w [.stop] [(s.now + 2 * s.cfg.tUnit, .stop)] idleBus s (stopCond s) := by
  obtain ⟨c, d, b⟩ := w
  obtain rfl : c = .low := hc
  rw [stopCond]
  have h1 := shows_driveWait { c := .low, d := d, shown := b } .data .low s
  have h2 := shows_driveWait { c := .low, d := .low, shown := b } .clock .rel (waitFor .unit (drive .data .low s))
  have h3 := shows_driveWait { c := .rel, d := .low, shown := false } .data .rel
    (waitFor .unit (drive .clock .rel (waitFor .unit (drive .data .low s))))
  have hw1 : ∀ t, (wireEvent { c := .low, d := d, shown := b } (.drive t .data .low)) =
      ({ c := .low, d := .low, shown := b }, []) := by intro t; cases d <;> rfl
  rw [hw1] at h1
  have h := (h1.trans (by simp) h2).trans (by simp) h3
  refine h.cast rfl ?_
  intro he
  have e1 : (waitFor .unit (drive .data .low s)).cfg.exactTiming = true := by simpa using he
  have e2 : (waitFor .unit (drive .clock .rel (waitFor .unit (drive .data .low s)))).cfg.exactTiming = true := by
    simpa using he
  simp [wireEvent, wireData, wireClock, conditions, isPulse, latency_exact _ e2, now_driveWait e1, now_driveWait he]
  omega

theorem shows_bitCycle (w : WireState) (hc : w.c = .low) (x : Bool) (s : State) :
    Shows w [.bit x] [] { c := .low, d := driverOfBit x, shown := false } s (bitCycle x s) := by
  obtain ⟨c, d, b⟩ := w
  obtain rfl : c = .low := hc
  rw [bitCycle]
  have h1 := shows_driveWait { c := .low, d := d, shown := b } .data (driverOfBit x) s
  have h2 := shows_driveWait { c := .low, d := driverOfBit x, shown := b } .clock .rel
    (waitFor .unit (drive .data (driverOfBit x) s))
  have h3 := shows_driveWait { c := .rel, d := driverOfBit x, shown := false } .clock .low
    (waitFor .unit (drive .clock .rel (waitFor .unit (drive .data (driverOfBit x) s))))
  have hw1 : ∀ t, (wireEvent { c := .low, d := d, shown := b } (.drive t .data (driverOfBit x))) =
      ({ c := .low, d := driverOfBit x, shown := b }, []) := by intro t; cases d <;> cases x <;> rfl
  rw [hw1] at h1
  have h := (h1.trans (by simp) h2).trans (by simp) h3
  exact h.cast (by cases x <;> rfl) (fun _ => rfl)

theorem shows_ackCycle (w : WireState) (hc : w.c = .low) (s : State) :
    Shows w [.ack (sampledAt s 0)] [] { c := .low, d := .rel, shown := true } s (ackCycle s).2 := by
  obtain ⟨c, d, b⟩ := w
  obtain rfl : c = .low := hc
  rw [ackCycle_eq]
  have hsp := sampledAt_span (span_beforeAck s) 0
  have h1 := shows_driveWait { c := .low, d := d, shown := b } .data .rel s
  have h2 := shows_driveWait { c := .low, d := .rel, shown := b } .clock .rel (waitFor .unit (drive .data .rel s))
  have hw1 : ∀ t, (wireEvent { c := .low, d := d, shown := b } (.drive t .data .rel)) =
      ({ c := .low, d := .rel, shown := b }, []) := by intro t; cases d <;> rfl
  rw [hw1] at h1
  have h12 := h1.trans (by simp) h2
  rw [show waitFor .unit (drive .clock .rel (waitFor .unit (drive .data .rel s))) = beforeAck s by rw [beforeAck]]
    at h12
  have h3 := Shows.event { c := .rel, d := .rel, shown := false } _ (sample_trace (beforeAck s))
  have h4 := Shows.still { c := .rel, d := .rel, shown := true } (s := sample (beforeAck s))
    (t := (sample (beforeAck s)).setFlag .ack (ackOfSample (sampledAt (beforeAck s) 0))) (by simp)
  have h5 := shows_driveWait { c := .rel, d := .rel, shown := true } .clock .low
    ((sample (beforeAck s)).setFlag .ack (ackOfSample (sampledAt (beforeAck s) 0)))
  have h := ((h12.trans (kept_beforeAck s).cfg h3).trans (by simp [(kept_beforeAck s).cfg]) h4).trans
    (by simp [(kept_beforeAck s).cfg]) h5
  refine h.cast ?_ (fun _ => rfl)
  simp [wireEvent, wireData, wireClock, hsp]

/-- The data slots of the bits still to send. -/
theorem shows_sendBits (n : Nat) : ∀ (w : WireState) (s : State), w.c = .low → s.bitcnt.val + n = 8 →
    ∃ w' : WireState, w'.c = .low ∧
      Shows w ((List.range n).map (fun j => .bit (s.shift.getLsbD (7 - j)))) [] w' s (sendBits n s) := by
  induction n with
  | zero =>
    intro w s hc hn
    rw [sendBits]
    exact ⟨w, hc, Shows.still w rfl⟩
  | succ n ih =>
    intro w s hc hn
    have hlt : s.bitcnt.val < 8 := by omega
    rw [sendBits, if_pos hlt]
    have h1 := shows_bitCycle w hc (topBit s) s
    have h2 := Shows.still { c := .low, d := driverOfBit (topBit s), shown := false } (s := bitCycle (topBit s) s)
      (t := shiftLeft (bitCycle (topBit s) s)) (by simp)
    have hb : (shiftLeft (bitCycle (topBit s) s)).bitcnt.val = s.bitcnt.val + 1 := by
      rw [val_bitcnt_shiftLeft (by rw [bitcnt_bitCycle]; exact hlt), bitcnt_bitCycle]
    obtain ⟨w', hw', h3⟩ := ih { c := .low, d := driverOfBit (topBit s), shown := false }
      (shiftLeft (bitCycle (topBit s) s)) rfl (by omega)
    refine ⟨w', hw', ((h1.trans (kept_bitCycle _ s).cfg h2).trans ?_ h3).cast ?_ (fun _ => rfl)⟩
    · rw [shiftLeft_cfg, (kept_bitCycle _ s).cfg]
    · rw [List.range_succ_eq_map, List.map_cons, List.map_map, List.append_nil]
      have hs : (bitCycle (topBit s) s).shift = s.shift := by simp [bitCycle]
      refine congrArg₂ List.cons rfl ?_
      apply List.map_congr_left
      intro j hj
      have hj' : j < n := List.mem_range.1 hj
      simp only [shiftLeft_shift, hs, Function.comp, Symbol.bit.injEq, BitVec.getLsbD_shiftLeft]
      have h7 : 7 - j < 8 := by omega
      have h1' : ¬ 7 - j < 1 := by omega
      simp [h7, h1']
      congr 1
      omega

theorem shows_writeByte (w : WireState) (hc : w.c = .low) (v : Byte) (s : State) :
    Shows w (slotSymbols (v, sampledAt s 0)) [] { c := .low, d := .rel, shown := true } s (writeByte v s).2 := by
  rw [writeByte]
  have h1 := Shows.still w (s := s) (t := loadByte v s) (by simp)
  obtain ⟨w', hw', h2⟩ := shows_sendBits 8 w (loadByte v s) hc rfl
  have h3 := shows_ackCycle w' hw' (sendBits 8 (loadByte v s))
  have hcfg : (sendBits 8 (loadByte v s)).cfg = s.cfg := by rw [(kept_sendBits 8 _).cfg, loadByte_cfg]
  have hsp := (span_loadByte v s).trans (span_sendBits 8 (s := loadByte v s) rfl)
  rw [sampledAt_span hsp] at h3
  exact ((h1.trans (by simp) h2).trans hcfg h3).cast rfl (fun _ => rfl)

theorem sentBytes_span {T N m : Nat} {s t : State} (h : Span T N m s t) (vs : List Byte) (i : Nat) :
    sentBytes t i vs = sentBytes s (m + i) vs := by
  induction vs generalizing i with
  | nil => rfl
  | cons v vs ih => simp only [sentBytes, sampledAt_span h, ih, Nat.add_assoc]

theorem shows_sendBytes (vs : List Byte) : ∀ (w : WireState) (s : State), w.c = .low →
    ∃ zs, (∃ T : Nat, s.cfg.exactTiming = true → (sendBytes vs s).2.now = T + s.cfg.tUnit ∧ zs = [(T, .stop)]) ∧
      Shows w ((sentBytes s 0 vs).flatMap slotSymbols ++ [.stop]) zs idleBus s (sendBytes vs s).2 := by
  have hend : ∀ s : State, s.cfg.exactTiming = true → (stopCond s).now = s.now + 2 * s.cfg.tUnit + s.cfg.tUnit := by
    intro s he; rw [(span_stopCond s).exactly he]; omega
  induction vs with
  | nil =>
    intro w s hc
    rw [sendBytes]
    exact ⟨_, ⟨_, fun he => ⟨hend s he, rfl⟩⟩, shows_stopCond w hc s⟩
  | cons v vs ih =>
    intro w s hc
    have h1 := shows_writeByte w hc v s
    have hsp := span_writeByte v s
    rw [sendBytes, fst_writeByte]
    cases hs : sampledAt s 0 with
    | true =>
      rw [hs] at h1
      have h2 := shows_stopCond { c := .low, d := .rel, shown := true } rfl (writeByte v s).2
      refine ⟨_, ⟨_, fun he => ⟨?_, rfl⟩⟩, (h1.trans hsp.cfg h2).cast (by simp [sentBytes, hs]) (fun _ => rfl)⟩
      simp only [Bool.not_true, Bool.false_eq_true, if_false]
      rw [hend _ (by rw [hsp.cfg]; exact he), hsp.cfg]
    | false =>
      rw [hs] at h1
      obtain ⟨zs, ⟨T, hT⟩, h2⟩ := ih { c := .low, d := .rel, shown := true } (writeByte v s).2 rfl
      refine ⟨zs, ⟨T, fun he => ?_⟩, (h1.trans hsp.cfg h2).cast ?_ (fun _ => rfl)⟩
      · have := hT (by rw [hsp.cfg]; exact he)
        rw [hsp.cfg] at this
        simpa using this
      · simp only [sentBytes, hs, Bool.false_eq_true, if_false, List.flatMap_cons, List.append_assoc,
          sentBytes_span hsp]

/-- R79: a transaction on the wire, from a bus with both lines released to one with both lines released. -/
theorem shows_writeTransaction (a : Byte) (p : List Byte) (b : Bool) (s : State) :
    ∃ T : Nat, Shows { c := .rel, d := .rel, shown := b } (transactionSymbols (sentBytes s 0 (a :: p)))
        [(s.now + s.cfg.tUnit, .start), (T, .stop)] idleBus s (writeTransaction a p s).2 ∧
      (s.cfg.exactTiming = true → (writeTransaction a p s).2.now = T + s.cfg.tUnit) := by
  rw [writeTransaction]
  have h1 := shows_startCond b s
  have hsp := span_startCond s
  obtain ⟨zs, ⟨T, hT⟩, h2⟩ := shows_sendBytes (a :: p) { c := .low, d := .low, shown := true } (startCond s) rfl
  rw [hsp.cfg] at hT
  refine ⟨T, (h1.trans hsp.cfg h2).cast ?_ ?_, fun he => (hT he).1⟩
  · rw [sentBytes_span hsp]; rfl
  · intro he; rw [(hT he).2]; rfl

theorem sentBytes_allAck (vs : List Byte) {s : State} {i : Nat} (h : AllAck s (i + vs.length)) :
    sentBytes s i vs = vs.map (fun v => (v, false)) := by
  induction vs generalizing i with
  | nil => rfl
  | cons v vs ih =>
    have h0 : sampledAt s i = false := h i (by simp)
    simp only [sentBytes, h0, Bool.false_eq_true, if_false, List.map_cons]
    rw [ih (by simpa [Nat.add_assoc, Nat.add_comm] using h)]

end Sys2Proof.Machine
end

