-- ==== Sys2Proof/Laws/Results.lean ====
section
/-! SUPPORT. What the functions of Machine/Pseudocode.lean leave in the drivers, the serializer and STATUS, and the
results they return, for every pattern of acknowledges. -/

namespace Sys2Proof.Machine

theorem startCond_drivers (s : State) : (startCond s).drvC = .low ∧ (startCond s).drvD = .low := by
  rw [startCond]; constructor <;> simp

theorem stopCond_drivers (s : State) : (stopCond s).drvC = .rel ∧ (stopCond s).drvD = .rel := by
  rw [stopCond]; constructor <;> simp

/-- STATUS, SHIFT and BITCNT are untouched. -/
structure SameRegs (s t : State) : Prop where
  status : t.status = s.status
  shift : t.shift = s.shift
  bitcnt : t.bitcnt = s.bitcnt

theorem sameRegs_startCond (s : State) : SameRegs s (startCond s) := by
  rw [startCond]; constructor <;> simp

theorem sameRegs_stopCond (s : State) : SameRegs s (stopCond s) := by
  rw [stopCond]; constructor <;> simp

theorem sameRegs_waitFor (d : DelaySel) (s : State) : SameRegs s (waitFor d s) := by constructor <;> simp

theorem sameRegs_bitCycle (x : Bool) (s : State) : SameRegs s (bitCycle x s) := by
  rw [bitCycle]; constructor <;> simp

theorem SameRegs.flag {s t : State} (h : SameRegs s t) (f : StatusBit) : t.flag f = s.flag f := by
  unfold State.flag; rw [h.status]

/-- The serializer's registers after the bits of a byte (R132, R137): each bit cycle shifts SHIFT left by one. -/
theorem sendBits_regs (n : Nat) {s : State} (h : s.bitcnt.val + n = 8) :
    (sendBits n s).shift = s.shift <<< n ∧ (sendBits n s).bitcnt = 8 ∧ (sendBits n s).status = s.status := by
  induction n generalizing s with
  | zero => rw [sendBits]; exact ⟨by simp, Fin.ext (by simpa using h), rfl⟩
  | succ n ih =>
    have hlt : s.bitcnt.val < 8 := by omega
    rw [sendBits, if_pos hlt]
    have hr := sameRegs_bitCycle (topBit s) s
    have hb : (shiftLeft (bitCycle (topBit s) s)).bitcnt.val = s.bitcnt.val + 1 := by
      rw [val_bitcnt_shiftLeft (by rw [hr.bitcnt]; exact hlt), hr.bitcnt]
    obtain ⟨h1, h2, h3⟩ := ih (s := shiftLeft (bitCycle (topBit s) s)) (by omega)
    refine ⟨?_, h2, ?_⟩
    · rw [h1, shiftLeft_shift, hr.shift, ← BitVec.shiftLeft_add, Nat.add_comm]
    · rw [h3, shiftLeft_status, hr.status]

/-- What a byte leaves (R131, R132): CLOCK low, DATA released, SHIFT 0, BITCNT 8, ACK the acknowledge, and the rest
of STATUS as it was. -/
structure AfterByte (ack : Bool) (s t : State) : Prop where
  drvC : t.drvC = .low
  drvD : t.drvD = .rel
  shift : t.shift = 0x00
  bitcnt : t.bitcnt = 8
  status : t.status = statusPut s.status .ack ack

theorem afterByte_writeByte (v : Byte) (s : State) : AfterByte (!sampledAt s 0) s (writeByte v s).2 := by
  rw [writeByte]
  obtain ⟨h1, h2, h3⟩ := sendBits_regs 8 (s := loadByte v s) rfl
  have hsp := sampledAt_span ((span_loadByte v s).trans (span_sendBits 8 (s := loadByte v s) rfl)) 0
  have hb := sampledAt_span (span_beforeAck (sendBits 8 (loadByte v s))) 0
  rw [ackCycle_eq, hb, Nat.zero_add, hsp]
  constructor
  · simp
  · simp
  · simp only [waitFor_shift, drive_shift, setFlag_shift, sample_shift]
    rw [show (beforeAck (sendBits 8 (loadByte v s))).shift = (sendBits 8 (loadByte v s)).shift by rw [beforeAck]; simp, h1]
    exact BitVec.shiftLeft_eq_zero (Nat.le_refl 8)
  · simp only [waitFor_bitcnt, drive_bitcnt, setFlag_bitcnt, sample_bitcnt]
    rw [show (beforeAck (sendBits 8 (loadByte v s))).bitcnt = (sendBits 8 (loadByte v s)).bitcnt by rw [beforeAck]; simp, h2]
  · simp only [waitFor_status, drive_status, setFlag_status, sample_status]
    rw [show (beforeAck (sendBits 8 (loadByte v s))).status = (sendBits 8 (loadByte v s)).status by rw [beforeAck]; simp, h3]
    rfl

/-- What a transaction, or several, leaves: both lines released, SHIFT 0, BITCNT 8, ACK the last acknowledge, and
the rest of STATUS as it was. -/
structure AfterTransfer (ack : Bool) (s t : State) : Prop where
  drvC : t.drvC = .rel
  drvD : t.drvD = .rel
  shift : t.shift = 0x00
  bitcnt : t.bitcnt = 8
  status : t.status = statusPut s.status .ack ack

/-- The acknowledge of the last byte of some that are sent, `d` if there is none. -/
def lastAck (d : Bool) (xs : List (Byte × Bool)) : Bool :=
  match xs.getLast? with
  | some x => !x.2
  | none => d

theorem AfterByte.stop {ack : Bool} {s t : State} (h : AfterByte ack s t) : AfterTransfer ack s (stopCond t) := by
  obtain ⟨h1, h2⟩ := stopCond_drivers t
  have hr := sameRegs_stopCond t
  exact ⟨h1, h2, hr.shift.trans h.shift, hr.bitcnt.trans h.bitcnt, hr.status.trans h.status⟩

theorem AfterByte.trans {a b : Bool} {s t u : State} (h : AfterByte a s t) (g : AfterByte b t u) : AfterByte b s u :=
  ⟨g.drvC, g.drvD, g.shift, g.bitcnt, by rw [g.status, h.status, statusPut_put]⟩

theorem lastAck_cons (d : Bool) (x : Byte × Bool) (xs : List (Byte × Bool)) :
    lastAck d (x :: xs) = lastAck (!x.2) xs := by
  unfold lastAck
  cases xs with
  | nil => rfl
  | cons y ys => rw [List.getLast?_cons_cons]; rfl

theorem lastAck_append (d : Bool) (xs ys : List (Byte × Bool)) :
    lastAck d (xs ++ ys) = lastAck (lastAck d xs) ys := by
  induction xs generalizing d with
  | nil => rfl
  | cons x xs ih => rw [List.cons_append, lastAck_cons, lastAck_cons, ih]

/-- The bytes of a transaction after another byte: the result, what they leave, and how long they take. -/
theorem sendBytes_results (vs : List Byte) : ∀ {a : Bool} {s0 s : State}, AfterByte a s0 s →
    (sendBytes vs s).1 = allTaken (sentBytes s 0 vs) ∧
      AfterTransfer (lastAck a (sentBytes s 0 vs)) s0 (sendBytes vs s).2 ∧
      Span ((27 * (sentBytes s 0 vs).length + 3) * s.cfg.tUnit) (55 * (sentBytes s 0 vs).length + 6)
        (sentBytes s 0 vs).length s (sendBytes vs s).2 := by
  induction vs with
  | nil =>
    intro a s0 s h
    rw [sendBytes]
    exact ⟨rfl, h.stop, (span_stopCond s).cast (by simp [sentBytes]) rfl rfl⟩
  | cons v vs ih =>
    intro a s0 s h
    have hb := h.trans (afterByte_writeByte v s)
    have hw := span_writeByte v s
    rw [sendBytes, fst_writeByte, sentBytes, lastAck_cons]
    cases hs : sampledAt s 0 with
    | true =>
      rw [hs] at hb
      have hstop := span_stopCond (writeByte v s).2
      rw [hw.cfg] at hstop
      exact ⟨rfl, hb.stop, (hw.trans hstop).cast (by simp; ring) rfl rfl⟩
    | false =>
      rw [hs] at hb
      obtain ⟨h1, h2, h3⟩ := ih hb
      rw [sentBytes_span hw, hw.cfg] at h3
      rw [sentBytes_span hw] at h1 h2
      refine ⟨?_, h2, (hw.trans h3).cast ?_ ?_ ?_⟩
      · simp only [Bool.not_false, if_true, h1]; rfl
      all_goals simp only [Bool.false_eq_true, if_false, List.length_cons, Nat.add_zero, Nat.zero_add]; ring

/-- R134, R139: a transaction's result, what it leaves, and how long it takes. -/
theorem writeTransaction_results (a : Byte) (p : List Byte) (s : State) :
    (writeTransaction a p s).1 = allTaken (sentBytes s 0 (a :: p)) ∧
      AfterTransfer (lastAck false (sentBytes s 0 (a :: p))) s (writeTransaction a p s).2 ∧
      Span ((6 + 27 * (sentBytes s 0 (a :: p)).length) * s.cfg.tUnit) (13 + 55 * (sentBytes s 0 (a :: p)).length)
        (sentBytes s 0 (a :: p)).length s (writeTransaction a p s).2 := by
  have hs := span_startCond s
  have hb := afterByte_writeByte a (startCond s)
  have hw := span_writeByte a (startCond s)
  have hb' : AfterByte (!sampledAt (startCond s) 0) s (writeByte a (startCond s)).2 :=
    ⟨hb.drvC, hb.drvD, hb.shift, hb.bitcnt, by rw [hb.status, (sameRegs_startCond s).status]⟩
  have h0 : sampledAt (startCond s) 0 = sampledAt s 0 := sampledAt_span hs 0
  rw [h0] at hb'
  rw [writeTransaction, sendBytes, fst_writeByte, sentBytes, lastAck_cons, h0]
  cases h : sampledAt s 0 with
  | true =>
    rw [h] at hb'
    have hstop := span_stopCond (writeByte a (startCond s)).2
    have hall := hs.trans hw
    rw [hall.cfg] at hstop
    rw [hs.cfg] at hall
    exact ⟨rfl, hb'.stop, (hall.trans hstop).cast (by simp; ring) rfl rfl⟩
  | false =>
    rw [h] at hb'
    obtain ⟨h1, h2, h3⟩ := sendBytes_results p hb'
    have hall := hs.trans hw
    rw [sentBytes_span hall] at h1 h2
    rw [sentBytes_span hall, hall.cfg] at h3
    rw [hs.cfg] at hall
    refine ⟨?_, h2, (hall.trans h3).cast ?_ ?_ ?_⟩
    · simp only [Bool.not_false, if_true, h1]; rfl
    all_goals simp only [Bool.false_eq_true, if_false, List.length_cons, Nat.add_zero, Nat.zero_add]; ring

theorem AfterTransfer.trans {a b : Bool} {s t u : State} (h : AfterTransfer a s t) (g : AfterTransfer b t u) :
    AfterTransfer b s u :=
  ⟨g.drvC, g.drvD, g.shift, g.bitcnt, by rw [g.status, h.status, statusPut_put]⟩

/-- A delay between two transactions. -/
theorem AfterTransfer.wait {a : Bool} {s t : State} (h : AfterTransfer a s t) (d : DelaySel) :
    AfterTransfer a s (waitFor d t) :=
  ⟨by simpa using h.drvC, by simpa using h.drvD, by simpa using h.shift, by simpa using h.bitcnt,
    by simpa using h.status⟩

theorem AfterTransfer.flag {ack : Bool} {s t : State} (h : AfterTransfer ack s t) (f : StatusBit) :
    t.flag f = if f = .ack then ack else s.flag f := by
  unfold State.flag; rw [h.status, statusGet_put]

theorem frameTransactions_span {T N m : Nat} {s t : State} (h : Span T N m s t) (hfb : t.fb = s.fb) (vs : List Byte)
    (i : Nat) : frameTransactions t i vs = frameTransactions s (m + i) vs := by
  have hf : frameBytes t = frameBytes s := by unfold frameBytes; rw [h.cfg, hfb]
  induction vs generalizing i with
  | nil => simp only [frameTransactions, sentBytes_span h, h.cfg, hf]
  | cons v vs ih => simp only [frameTransactions, sentBytes_span h, h.cfg, ih, Nat.add_assoc]

theorem pushTransactions_span {T N m : Nat} {s t : State} (h : Span T N m s t) (hfb : t.fb = s.fb) (n : Nat)
    (i : Nat) : pushTransactions t n i = pushTransactions s n (m + i) := by
  induction n generalizing i with
  | zero => rfl
  | succ n ih => simp only [pushTransactions, frameTransactions_span h hfb, h.cfg, ih, Nat.add_assoc]

/-- Two bytes, both acknowledged, are two samples. -/
theorem length_sentBytes_pair {s : State} {i : Nat} {a v : Byte} (h : allTaken (sentBytes s i [a, v]) = true) :
    (sentBytes s i [a, v]).length = 2 := by
  simp only [sentBytes, allTaken] at h ⊢
  split <;> rename_i hs
  · rw [hs] at h; simp at h
  · simp

theorem lastAck_nonempty (d d' : Bool) {xs : List (Byte × Bool)} (h : xs ≠ []) : lastAck d xs = lastAck d' xs := by
  cases xs with
  | nil => exact absurd rfl h
  | cons x xs => rw [lastAck_cons, lastAck_cons]

/-- A frame sequence sends at least one byte. -/
theorem flatten_frameTransactions (s : State) (i : Nat) (vs : List Byte) :
    (frameTransactions s i vs).flatten ≠ [] := by
  cases vs <;> simp [frameTransactions, sentBytes]

theorem length_frameTransactions (s : State) (i : Nat) (vs : List Byte) :
    (frameTransactions s i vs).length ≠ 0 := by cases vs <;> simp [frameTransactions]

theorem byteCount_cons (x : List (Byte × Bool)) (xs : List (List (Byte × Bool))) :
    byteCount (x :: xs) = x.length + byteCount xs := by simp [byteCount]

/-- A transaction that succeeds, and its unit delay, before the rest of a frame sequence. -/
theorem attemptTime_cons (c : Cfg) (n : Nat) (x : List (Byte × Bool)) {xs : List (List (Byte × Bool))}
    (h : xs.length ≠ 0) :
    attemptTime c (n + 1) (x :: xs) = (6 + 27 * x.length) * c.tUnit + c.tUnit + attemptTime c n xs := by
  obtain ⟨m, hm⟩ : ∃ m, xs.length = m + 1 := ⟨xs.length - 1, by omega⟩
  simp only [attemptTime, List.length_cons, byteCount_cons, hm, Nat.add_sub_cancel, Nat.add_lt_add_iff_right]
  ring

theorem attemptSteps_cons (n : Nat) (x : List (Byte × Bool)) {xs : List (List (Byte × Bool))} (h : xs.length ≠ 0) :
    attemptSteps (n + 1) (x :: xs) = 13 + 55 * x.length + 1 + attemptSteps n xs := by
  obtain ⟨m, hm⟩ : ∃ m, xs.length = m + 1 := ⟨xs.length - 1, by omega⟩
  simp only [attemptSteps, List.length_cons, byteCount_cons, hm, Nat.add_sub_cancel, Nat.add_lt_add_iff_right]
  ring

/-- R160, R162: the rest of a frame sequence: its result, what it leaves, and how long it takes. -/
theorem sendPreamble_results (vs : List Byte) : ∀ s : State,
    (sendPreamble vs s).1 = (frameTransactions s 0 vs).all allTaken ∧
      AfterTransfer (lastAck false (frameTransactions s 0 vs).flatten) s (sendPreamble vs s).2 ∧
      Span (attemptTime s.cfg vs.length (frameTransactions s 0 vs)) (attemptSteps vs.length (frameTransactions s 0 vs))
        (byteCount (frameTransactions s 0 vs)) s (sendPreamble vs s).2 := by
  induction vs with
  | nil =>
    intro s
    have hw := span_waitFor .gap s
    obtain ⟨h1, h2, h3⟩ := writeTransaction_results (addrByte s.cfg) (frameBytes s) (waitFor .gap s)
    rw [sendPreamble]
    rw [sentBytes_span hw] at h1 h2 h3
    rw [waitFor_cfg] at h3
    refine ⟨?_, ⟨h2.drvC, h2.drvD, h2.shift, h2.bitcnt, ?_⟩, (hw.trans h3).cast ?_ ?_ ?_⟩
    · rw [h1]; simp [frameTransactions]
    · rw [h2.status]; simp [frameTransactions]
    · simp [frameTransactions, attemptTime, byteCount, delayLength, Nat.add_comm]
    · simp [frameTransactions, attemptSteps, byteCount, Nat.add_comm]
    · simp [frameTransactions, byteCount]
  | cons v vs ih =>
    intro s
    obtain ⟨h1, h2, h3⟩ := writeTransaction_results (addrByte s.cfg) [v] s
    rw [sendPreamble, frameTransactions, h1]
    cases ht : allTaken (sentBytes s 0 [addrByte s.cfg, v]) with
    | false =>
      refine ⟨by simp [ht], ?_, h3.cast ?_ ?_ ?_⟩
      · simpa using h2
      · simp [attemptTime, byteCount]
      · simp [attemptSteps, byteCount]
      · simp [byteCount]
    | true =>
      have hw := span_waitFor .unit (writeTransaction (addrByte s.cfg) [v] s).2
      have hall := h3.trans hw
      have hfb : (waitFor .unit (writeTransaction (addrByte s.cfg) [v] s).2).fb = s.fb := by
        simpa using (kept_writeTransaction (addrByte s.cfg) [v] s).fb
      obtain ⟨g1, g2, g3⟩ := ih (waitFor .unit (writeTransaction (addrByte s.cfg) [v] s).2)
      have hl : (sentBytes s 0 [addrByte s.cfg, v]).length + 0 + 0 = 0 + 2 := by rw [length_sentBytes_pair ht]
      rw [frameTransactions_span hall hfb, hl] at g1 g2 g3
      rw [hall.cfg] at g3
      rw [h3.cfg] at hall
      simp only [if_true]
      refine ⟨by rw [g1, List.all_cons, ht, Bool.true_and], ?_, (hall.trans g3).cast ?_ ?_ ?_⟩
      · rw [List.flatten_cons, lastAck_append, lastAck_nonempty _ false (flatten_frameTransactions s _ vs)]
        exact (h2.wait .unit).trans g2
      · rw [List.length_cons, attemptTime_cons _ _ _ (length_frameTransactions s _ vs)]; rfl
      · rw [List.length_cons, attemptSteps_cons _ _ (length_frameTransactions s _ vs)]
      · rw [byteCount_cons]; rfl

/-- R160: a frame sequence. -/
theorem sendFrame_results (s : State) :
    (sendFrame s).1 = (frameTransactions s 0 s.cfg.preamble).all allTaken ∧
      AfterTransfer (lastAck false (frameTransactions s 0 s.cfg.preamble).flatten) s (sendFrame s).2 ∧
      Span (attemptTime s.cfg s.cfg.preamble.length (frameTransactions s 0 s.cfg.preamble))
        (attemptSteps s.cfg.preamble.length (frameTransactions s 0 s.cfg.preamble))
        (byteCount (frameTransactions s 0 s.cfg.preamble)) s (sendFrame s).2 := by
  rw [sendFrame]; exact sendPreamble_results _ s

theorem byteCount_append (xs ys : List (List (Byte × Bool))) :
    byteCount (xs ++ ys) = byteCount xs + byteCount ys := by
  simp [byteCount]

theorem length_attemptList (s : State) (n i : Nat) : (attemptList s n i).length = n := by
  induction n generalizing i with
  | zero => rfl
  | succ n ih => rw [attemptList, List.length_cons, ih]

theorem flatten_attemptList (s : State) (n i : Nat) : (attemptList s n i).flatten = pushTransactions s n i := by
  induction n generalizing i with
  | zero => rfl
  | succ n ih => simp only [attemptList, pushTransactions, List.flatten_cons, ih]

theorem attemptList_span {T N m : Nat} {s t : State} (h : Span T N m s t) (hfb : t.fb = s.fb) (n : Nat) (i : Nat) :
    attemptList t n i = attemptList s n (m + i) := by
  induction n generalizing i with
  | zero => rfl
  | succ n ih => simp only [attemptList, frameTransactions_span h hfb, h.cfg, ih, Nat.add_assoc]

/-- The duration of `n` attempts of `PUSHF` and of the delays between them (R166). -/
def pushTime (s : State) (n i : Nat) : Nat :=
  ((attemptList s n i).map (attemptTime s.cfg s.cfg.preamble.length)).sum + (n - 1) * s.cfg.tPush

/-- The events that they append. -/
def pushSteps (s : State) (n i : Nat) : Nat :=
  ((attemptList s n i).map (attemptSteps s.cfg.preamble.length)).sum + (n - 1)

/-- R163, R164, R166: the attempts of `PUSHF`: at least one leaves what a transfer leaves, and their samples, times and
events add up, with a push delay between two. -/
theorem pushAttempts_results (n : Nat) : ∀ s : State,
    (n ≠ 0 → ∃ ack, AfterTransfer ack s (pushAttempts n s)) ∧
      Span (pushTime s n 0) (pushSteps s n 0) (byteCount (pushTransactions s n 0)) s (pushAttempts n s) := by
  induction n with
  | zero => intro s; rw [pushAttempts]; exact ⟨fun h => absurd rfl h, (Span.refl s).cast (by simp [pushTime, attemptList]) rfl rfl⟩
  | succ n ih =>
    intro s
    obtain ⟨-, h2, h3⟩ := sendFrame_results s
    rw [pushAttempts]
    by_cases hn : n = 0
    · subst hn
      rw [if_pos rfl, pushAttempts]
      exact ⟨fun _ => ⟨_, h2⟩, h3.cast (by simp [pushTime, attemptList]) (by simp [pushSteps, attemptList])
        (by simp [pushTransactions])⟩
    · rw [if_neg hn]
      have hw := span_waitFor .push (sendFrame s).2
      have hall := h3.trans hw
      have hfb : (waitFor .push (sendFrame s).2).fb = s.fb := by simpa using (kept_sendFrame s).fb
      obtain ⟨g1, g3⟩ := ih (waitFor .push (sendFrame s).2)
      obtain ⟨ack, g1⟩ := g1 hn
      rw [pushTransactions_span hall hfb, pushTime, pushSteps, attemptList_span hall hfb, hall.cfg] at g3
      rw [h3.cfg] at hall
      obtain ⟨m, rfl⟩ : ∃ m, n = m + 1 := ⟨n - 1, by omega⟩
      refine ⟨fun _ => ⟨ack, (h2.wait .push).trans g1⟩, (hall.trans g3).cast ?_ ?_ ?_⟩
      · simp only [pushTime, attemptList, List.map_cons, List.sum_cons, delayLength, Nat.add_sub_cancel, Nat.zero_add,
          Nat.add_zero]
        ring
      · simp only [pushSteps, attemptList, List.map_cons, List.sum_cons, Nat.add_sub_cancel, Nat.zero_add,
          Nat.add_zero]
        ring
      · show _ = byteCount (frameTransactions s 0 s.cfg.preamble ++
          pushTransactions s (m + 1) (0 + byteCount (frameTransactions s 0 s.cfg.preamble)))
        rw [byteCount_append]
        simp only [Nat.zero_add, Nat.add_zero]

/-- Where bytes are sent, the acknowledge left is the last one's. -/
theorem lastAck_getLast (d : Bool) {xs : List (Byte × Bool)} : ∀ x ∈ xs.getLast?, lastAck d xs = !x.2 := by
  intro x hx; unfold lastAck; rw [Option.mem_def.1 hx]

/-- All bytes acknowledged: every transaction of the frame sequence, in full (R80). -/
theorem frameTransactions_allAck (vs : List Byte) {s : State} {i : Nat}
    (h : AllAck s (i + frameSamples s.cfg vs.length)) :
    frameTransactions s i vs =
      vs.map (fun v => [(addrByte s.cfg, false), (v, false)]) ++
        [(addrByte s.cfg :: frameBytes s).map (fun v => (v, false))] := by
  induction vs generalizing i with
  | nil =>
    rw [frameTransactions, sentBytes_allAck _ (h.mono (by
      simp only [List.length_cons, length_frameBytes, frameSamples, List.length_nil]; omega))]
    rfl
  | cons v vs ih =>
    have h2 : sentBytes s i [addrByte s.cfg, v] = [(addrByte s.cfg, false), (v, false)] :=
      sentBytes_allAck [addrByte s.cfg, v] (h.mono (by
        simp only [List.length_cons, List.length_nil, frameSamples]; omega))
    rw [frameTransactions, h2, if_pos (by simp [allTaken]), ih (h.mono (by
      simp only [List.length_cons, frameSamples]; omega))]
    rfl

/-- The last acknowledge of a transaction is its success: it ends with the first byte that is refused (R134). -/
theorem lastAck_sentBytes (d : Bool) (v : Byte) (vs : List Byte) (s : State) (i : Nat) :
    lastAck d (sentBytes s i (v :: vs)) = allTaken (sentBytes s i (v :: vs)) := by
  induction vs generalizing d v i with
  | nil => cases h : sampledAt s i <;> simp [sentBytes, allTaken, lastAck, h]
  | cons u vs ih =>
    rw [sentBytes, lastAck_cons]
    cases h : sampledAt s i with
    | true => simp [lastAck, allTaken]
    | false =>
      simp only [Bool.false_eq_true, if_false]
      rw [ih]
      simp [allTaken]

/-- The same of a frame sequence (R162). -/
theorem lastAck_frameTransactions (d : Bool) (s : State) (i : Nat) (vs : List Byte) :
    lastAck d (frameTransactions s i vs).flatten = (frameTransactions s i vs).all allTaken := by
  induction vs generalizing d i with
  | nil => simp [frameTransactions, lastAck_sentBytes]
  | cons v vs ih =>
    rw [frameTransactions, List.flatten_cons, lastAck_append, lastAck_sentBytes, List.all_cons]
    cases h : allTaken (sentBytes s i [addrByte s.cfg, v]) with
    | false => simp [lastAck]
    | true => simp only [if_true, Bool.true_and, ih]

/-! ### Every event of a byte (R130 to R132, R138) -/

/-- `n` beats, each a driver change and the unit delay after it: beat `h` begins after time `w h`, changes a driver at
`d h`, and ends at `w (h + 1)`. Under `EXACT_TIMING` nothing but the delays takes time. -/
structure Beats (c : Cfg) (n : Nat) (d w : Nat → Nat) : Prop where
  order : ∀ h < n, w h ≤ d h ∧ d h + c.tUnit ≤ w (h + 1)
  exactly : c.exactTiming = true → ∀ h < n, d h = w h ∧ w (h + 1) = d h + c.tUnit

/-- Under `EXACT_TIMING` beat `h` ends `h` units after the beginning. -/
theorem Beats.times {c : Cfg} {n : Nat} {d w : Nat → Nat} (hb : Beats c n d w) (he : c.exactTiming = true) :
    ∀ h ≤ n, w h = w 0 + h * c.tUnit := by
  intro h
  induction h with
  | zero => simp
  | succ h ih =>
    intro hh
    obtain ⟨h1, h2⟩ := hb.exactly he h (by omega)
    rw [h2, h1, ih (by omega), Nat.succ_mul, Nat.add_assoc]

/-- Times of `m` beats, then of others. -/
def joinTimes (m : Nat) (f g : Nat → Nat) (h : Nat) : Nat := if h < m then f h else g (h - m)

theorem joinTimes_lt {m h : Nat} (f g : Nat → Nat) (hh : h < m) : joinTimes m f g h = f h := if_pos hh

theorem joinTimes_add (m h : Nat) (f g : Nat → Nat) : joinTimes m f g (m + h) = g h := by
  unfold joinTimes; rw [if_neg (by omega), Nat.add_sub_cancel_left]

/-- Some beats after others. -/
theorem Beats.append {c : Cfg} {m n : Nat} {d w d' w' : Nat → Nat} (hb : Beats c m d w) (gb : Beats c n d' w')
    (hj : w' 0 = w m) : Beats c (m + n) (joinTimes m d d') (joinTimes m w w') := by
  have hw : ∀ h ≤ m, joinTimes m w w' h = w h := by
    intro h hh
    by_cases hm : h < m
    · exact joinTimes_lt w w' hm
    · obtain rfl : h = m := by omega
      rw [← hj]; exact joinTimes_add h 0 w w'
  constructor
  · intro h hh
    by_cases hm : h < m
    · rw [hw h (by omega), hw (h + 1) (by omega), joinTimes_lt d d' hm]; exact hb.order h hm
    · obtain ⟨k, rfl⟩ : ∃ k, h = m + k := ⟨h - m, by omega⟩
      rw [Nat.add_assoc, joinTimes_add, joinTimes_add, joinTimes_add]; exact gb.order k (by omega)
  · intro he h hh
    by_cases hm : h < m
    · rw [hw h (by omega), hw (h + 1) (by omega), joinTimes_lt d d' hm]; exact hb.exactly he h hm
    · obtain ⟨k, rfl⟩ : ∃ k, h = m + k := ⟨h - m, by omega⟩
      rw [Nat.add_assoc, joinTimes_add, joinTimes_add, joinTimes_add]; exact gb.exactly he k (by omega)

/-- The events of the beats from `h` on that make these driver changes. -/
def beatEvents (T : Nat) (d w : Nat → Nat) : Nat → List (Line × Driver) → List Event
  | _, [] => []
  | h, (l, v) :: xs => [.drive (d h) l v, .wait (d h) (w (h + 1)) T] ++ beatEvents T d w (h + 1) xs

theorem beatEvents_append (T : Nat) (d w : Nat → Nat) (xs ys : List (Line × Driver)) (h : Nat) :
    beatEvents T d w h (xs ++ ys) = beatEvents T d w h xs ++ beatEvents T d w (h + xs.length) ys := by
  induction xs generalizing h with
  | nil => rfl
  | cons x xs ih =>
    obtain ⟨l, v⟩ := x
    simp only [List.cons_append, beatEvents, ih, List.append_assoc, List.length_cons]
    rw [show h + 1 + xs.length = h + (xs.length + 1) by omega]

/-- The events depend on the times of their own beats only. -/
theorem beatEvents_congr (T : Nat) {d w d' w' : Nat → Nat} (a : Nat) (xs : List (Line × Driver)) (h : Nat)
    (hd : ∀ k < h + xs.length, h ≤ k → d' (a + k) = d k ∧ w' (a + k + 1) = w (k + 1)) :
    beatEvents T d' w' (a + h) xs = beatEvents T d w h xs := by
  induction xs generalizing h with
  | nil => rfl
  | cons x xs ih =>
    obtain ⟨l, v⟩ := x
    have h0 := hd h (by simp) (Nat.le_refl h)
    simp only [beatEvents, h0.1, h0.2]
    rw [show a + h + 1 = a + (h + 1) by omega, ih (h + 1) (fun k hk hk' => hd k (by
      simp only [List.length_cons]; omega) (by omega))]

/-- From `s` to `t` the block makes these driver changes, one a beat, and appends nothing else. -/
def Ticks (xs : List (Line × Driver)) (s t : State) : Prop :=
  ∃ d w, Beats s.cfg xs.length d w ∧ w 0 = s.now ∧ w xs.length = t.now ∧
    t.trace = s.trace ++ beatEvents s.cfg.tUnit d w 0 xs

theorem Ticks.trans {xs ys : List (Line × Driver)} {s t u : State} (h : Ticks xs s t) (hc : t.cfg = s.cfg)
    (g : Ticks ys t u) : Ticks (xs ++ ys) s u := by
  obtain ⟨d, w, h1, h2, h3, h4⟩ := h
  obtain ⟨d', w', g1, g2, g3, g4⟩ := g
  rw [hc] at g1 g4
  have hj : w' 0 = w xs.length := by rw [g2, h3]
  have hlast : ∀ k ≤ xs.length, joinTimes xs.length w w' k = w k := by
    intro k hk
    by_cases hm : k < xs.length
    · exact joinTimes_lt w w' hm
    · obtain rfl : k = xs.length := by omega
      rw [← hj]; exact joinTimes_add xs.length 0 w w'
  refine ⟨joinTimes xs.length d d', joinTimes xs.length w w', ?_, ?_, ?_, ?_⟩
  · rw [List.length_append]; exact h1.append g1 hj
  · rw [hlast 0 (Nat.zero_le _), h2]
  · rw [List.length_append, joinTimes_add, g3]
  · rw [g4, h4, beatEvents_append, List.append_assoc]
    congr 2
    · rw [← Nat.zero_add 0]
      exact (beatEvents_congr _ 0 xs 0 (fun k hk _ => by
        rw [Nat.zero_add] at hk ⊢
        exact ⟨joinTimes_lt d d' hk, hlast (k + 1) hk⟩)).symm
    · rw [Nat.zero_add]
      exact (beatEvents_congr _ xs.length ys 0 (fun k _ _ =>
        ⟨joinTimes_add _ _ _ _, joinTimes_add _ (k + 1) _ _⟩)).symm

/-- An update that takes no time and appends nothing, before some beats. -/
theorem Ticks.before {xs : List (Line × Driver)} {s s' t : State} (hn : s'.now = s.now) (ht : s'.trace = s.trace)
    (hc : s'.cfg = s.cfg) (h : Ticks xs s' t) : Ticks xs s t := by
  obtain ⟨d, w, h1, h2, h3, h4⟩ := h
  exact ⟨d, w, hc ▸ h1, h2.trans hn, h3, by rw [h4, ht, hc]⟩

theorem ticks_driveWait (l : Line) (v : Driver) (s : State) : Ticks [(l, v)] s (waitFor .unit (drive l v s)) := by
  obtain ⟨a, b, h1, h2, h3, h4⟩ := driveWait_eq l v s
  refine ⟨fun _ => a, fun h => if h = 0 then s.now else b, ⟨?_, ?_⟩, rfl, ?_, ?_⟩
  · intro h hh
    obtain rfl : h = 0 := by simp at hh; exact hh
    exact ⟨h1, h2⟩
  · intro he h hh
    obtain rfl : h = 0 := by simp at hh; exact hh
    obtain ⟨e1, e2⟩ := h3 he
    exact ⟨e1, by simp [e2, e1]⟩
  · rw [h4]; rfl
  · rw [h4]; rfl

/-- The driver changes of a bit cycle (R130). -/
def bitChanges (x : Bool) : List (Line × Driver) := [(.data, driverOfBit x), (.clock, .rel), (.clock, .low)]

theorem ticks_bitCycle (x : Bool) (s : State) : Ticks (bitChanges x) s (bitCycle x s) := by
  rw [bitCycle]
  exact ((ticks_driveWait .data (driverOfBit x) s).trans (by simp) (ticks_driveWait .clock .rel _)).trans (by simp)
    (ticks_driveWait .clock .low _)

theorem ticks_sendBits (n : Nat) : ∀ {s : State}, s.bitcnt.val + n = 8 →
    Ticks ((List.range n).flatMap (fun j => bitChanges (s.shift.getLsbD (7 - j)))) s (sendBits n s) := by
  induction n with
  | zero =>
    intro s _
    rw [sendBits]
    exact ⟨fun _ => 0, fun _ => s.now, ⟨fun h hh => by simp at hh, fun _ h hh => by simp at hh⟩, rfl, rfl, by
      simp [beatEvents]⟩
  | succ n ih =>
    intro s h
    have hlt : s.bitcnt.val < 8 := by omega
    rw [sendBits, if_pos hlt]
    have hr := sameRegs_bitCycle (topBit s) s
    have hb : (shiftLeft (bitCycle (topBit s) s)).bitcnt.val = s.bitcnt.val + 1 := by
      rw [val_bitcnt_shiftLeft (by rw [hr.bitcnt]; exact hlt), hr.bitcnt]
    have h2 := (ticks_bitCycle (topBit s) s).trans (kept_bitCycle _ s).cfg
      ((ih (s := shiftLeft (bitCycle (topBit s) s)) (by omega)).before (by simp) (by simp) (by simp))
    rw [List.range_succ_eq_map, List.flatMap_cons, List.flatMap_map]
    have he : (List.range n).flatMap (fun j => bitChanges ((shiftLeft (bitCycle (topBit s) s)).shift.getLsbD (7 - j))) =
        (List.range n).flatMap (fun j => bitChanges (s.shift.getLsbD (7 - Nat.succ j))) := by
      refine List.flatMap_congr (fun j hj => ?_)
      have hj' : j < n := List.mem_range.1 hj
      have h7 : 7 - j < 8 := by omega
      have h1 : ¬ 7 - j < 1 := by omega
      rw [shiftLeft_shift, hr.shift, BitVec.getLsbD_shiftLeft]
      simp [h7, h1]
      congr 2
      omega
    rw [he] at h2
    exact h2

/-- A byte: 26 beats, the sample at `m`, and one beat more (R130 to R132). -/
theorem ticks_writeByte (v : Byte) (s : State) : ∃ d w m, Beats s.cfg 27 d w ∧ w 0 = s.now ∧
    w 27 = (writeByte v s).2.now ∧ w 26 ≤ m ∧ m ≤ d 26 ∧ (s.cfg.exactTiming = true → m = w 26) ∧
    (writeByte v s).2.trace = s.trace ++
      beatEvents s.cfg.tUnit d w 0 ((List.range 8).flatMap (fun j => bitChanges (v.getLsbD (7 - j))) ++
        [(.data, .rel), (.clock, .rel)]) ++
      .sample m (sampledAt s 0) :: beatEvents s.cfg.tUnit d w 26 [(.clock, .low)] := by
  rw [writeByte]
  have h1 := (ticks_sendBits 8 (s := loadByte v s) rfl).before (s := s) (by simp) (by simp) (by simp)
  have hsp := (span_loadByte v s).trans (span_sendBits 8 (s := loadByte v s) rfl)
  have hc1 : (sendBits 8 (loadByte v s)).cfg = s.cfg := hsp.cfg
  have h2 : Ticks [(.data, .rel), (.clock, .rel)] (sendBits 8 (loadByte v s))
      (beforeAck (sendBits 8 (loadByte v s))) := by
    rw [beforeAck]
    exact (ticks_driveWait .data .rel _).trans (by simp) (ticks_driveWait .clock .rel _)
  have hsb := span_beforeAck (sendBits 8 (loadByte v s))
  have hall := hsp.trans hsb
  have hsam := sampledAt_span hall 0
  obtain ⟨d, w, b1, b2, b3, b4⟩ := h1.trans hc1 h2
  rw [ackCycle_eq]
  generalize beforeAck (sendBits 8 (loadByte v s)) = u at *
  have huc : u.cfg = s.cfg := hall.cfg
  generalize hv : (sample u).setFlag .ack (ackOfSample (sampledAt u 0)) = z
  have hzc : z.cfg = s.cfg := by subst hv; simpa using huc
  have hzn : z.now = (latency u).now := by subst hv; simp
  have hzt : z.trace = u.trace ++ [.sample (latency u).now (sampledAt s 0)] := by
    subst hv; rw [setFlag_trace, sample_trace, hsam]
  obtain ⟨a, b, k1, k2, k3, k4⟩ := driveWait_eq .clock .low z
  have hlat := latency_now_ge u
  have hle := latency_exact u
  have b3' : w 26 = u.now := b3
  have b1' : Beats s.cfg 26 d w := b1
  show ∃ d w m, Beats s.cfg 27 d w ∧ w 0 = s.now ∧ w 27 = (waitFor .unit (drive .clock .low z)).now ∧ w 26 ≤ m ∧
    m ≤ d 26 ∧ (s.cfg.exactTiming = true → m = w 26) ∧ (waitFor .unit (drive .clock .low z)).trace = _
  rw [hzc] at k2 k3 k4
  have hone : Beats s.cfg 1 (fun _ => a) (fun h => if h = 0 then w 26 else b) := by
    constructor
    · intro h hh
      obtain rfl : h = 0 := by omega
      exact ⟨by simp only [if_true]; omega, k2⟩
    · intro he h hh
      obtain rfl : h = 0 := by omega
      obtain ⟨e1, e2⟩ := k3 he
      have e3 := hle (by rw [huc]; exact he)
      simp only [if_true, Nat.zero_add, Nat.one_ne_zero, if_false]
      omega
  refine ⟨joinTimes 26 d (fun _ => a), joinTimes 26 w (fun h => if h = 0 then w 26 else b), (latency u).now,
    b1'.append hone rfl, b2, ?_, ?_, ?_, ?_, ?_⟩
  · rw [k4]; rfl
  · show w 26 ≤ _; omega
  · show _ ≤ a; omega
  · intro he
    show _ = w 26
    rw [hle (by rw [huc]; exact he), b3']
  · rw [k4]
    simp only [hzt, b4, List.append_assoc]
    rfl

end Sys2Proof.Machine
end

