-- ==== Sys2Proof/Laws/Frame.lean ====
section
/-! SUPPORT. Frames: what each line of the pseudocode can write (`writes`), and from that what a command can
(`exec_onlyChanges`). -/

namespace Sys2Proof.Machine

theorem OnlyChanges.refl (ps : List Part) (s : State) : OnlyChanges ps s s :=
  ⟨fun p _ => by cases p <;> simp [PartSame], ⟨rfl, rfl⟩, rfl, rfl, rfl⟩

theorem PartSame.trans {p : Part} {s t u : State} (h : PartSame p s t) (g : PartSame p t u) : PartSame p s u := by
  cases p <;> simp only [PartSame] at * <;> first
    | exact g.trans h
    | exact fun a => (g a).trans (h a)
    | exact ⟨g.1.trans h.1, g.2.trans h.2⟩

theorem OnlyChanges.trans {ps : List Part} {s t u : State} (h : OnlyChanges ps s t) (g : OnlyChanges ps t u) :
    OnlyChanges ps s u :=
  ⟨fun p hp => (h.parts p hp).trans (g.parts p hp), ⟨g.reserved.1.trans h.reserved.1, g.reserved.2.trans h.reserved.2⟩,
    g.cfg.trans h.cfg, g.inputs.trans h.inputs, g.hostReads.trans h.hostReads⟩

theorem OnlyChanges.mono {ps qs : List Part} {s t : State} (h : OnlyChanges ps s t) (hs : ps ⊆ qs) :
    OnlyChanges qs s t :=
  ⟨fun p hp => h.parts p (fun hq => hp (hs hq)), h.reserved, h.cfg, h.inputs, h.hostReads⟩

theorem setFlag_reserved (s : State) (f : StatusBit) (b : Bool) :
    (s.setFlag f b).status.getLsbD 6 = s.status.getLsbD 6 ∧ (s.setFlag f b).status.getLsbD 7 = s.status.getLsbD 7 := by
  have hf := statusPos_lt f
  rw [setFlag_status, getLsbD_statusPut _ _ _ _ (by omega), getLsbD_statusPut _ _ _ _ (by omega), if_neg (by omega),
    if_neg (by omega)]
  exact ⟨rfl, rfl⟩

/-- The driver of a line, as a part of the state. -/
def driverPart : Line → Part
  | .clock => .clockDriver
  | .data => .dataDriver

theorem onlyChanges_setFlag (s : State) (f : StatusBit) (b : Bool) : OnlyChanges [.bit f] s (s.setFlag f b) := by
  refine ⟨fun p hp => ?_, setFlag_reserved s f b, rfl, rfl, rfl⟩
  cases p with
  | bit g =>
    have hg : g ≠ f := fun h => hp (by simp [h])
    simp [PartSame, hg]
  | _ => simp [PartSame]

theorem onlyChanges_withSeq (ps : List Part) (q : Seq) (s : State) : OnlyChanges ps s (withSeq q s) :=
  ⟨fun p _ => by cases p <;> simp [PartSame], ⟨rfl, rfl⟩, rfl, rfl, rfl⟩

theorem onlyChanges_drive (l : Line) (v : Driver) (s : State) :
    OnlyChanges [driverPart l, .time, .history] s (drive l v s) :=
  ⟨fun p hp => by cases l <;> cases p <;> simp_all [PartSame, driverPart], by simp, by simp, by simp, by simp⟩

theorem onlyChanges_waitFor (d : DelaySel) (s : State) : OnlyChanges [.time, .history] s (waitFor d s) :=
  ⟨fun p hp => by cases p <;> simp_all [PartSame], by simp, by simp, by simp, by simp⟩

theorem onlyChanges_sample (s : State) : OnlyChanges [.dataDriver, .time, .history, .answers] s (sample s) :=
  ⟨fun p hp => by cases p <;> simp_all [PartSame], by simp, by simp, by simp, by simp⟩

/-- What a line of the pseudocode can write, its calls apart. -/
def writes : Task → List Part
  | .drive l _ => [driverPart l, .time, .history]
  | .driveBit => [.dataDriver, .time, .history]
  | .wait _ => [.time, .history]
  | .sampleRdata => [.dataDriver, .time, .history, .answers, .bit .rdata]
  | .sampleAck => [.dataDriver, .time, .history, .answers, .bit .ack]
  | .load _ => [.shifter, .bitCounter]
  | .shiftLeft => [.shifter, .bitCounter]
  | .setOk => [.bit .ok]
  | .drawResults => [.bit .ack, .bit .ok]
  | .clearFb => [.buffer]
  | .writeFb _ _ => [.buffer]
  | _ => []

theorem onlyChanges_drawResults (s : State) : OnlyChanges [.bit .ack, .bit .ok] s (drawResults s) := by
  have h1 := (onlyChanges_setFlag s .ack (Config.ackAfterPush s.draws)).mono (qs := [.bit .ack, .bit .ok]) (by simp)
  have h2 := (onlyChanges_setFlag (s.setFlag .ack (Config.ackAfterPush s.draws)) .ok
    (Config.okAfterPush s.draws)).mono (qs := [.bit .ack, .bit .ok]) (by simp)
  have h := h1.trans h2
  exact ⟨fun p hp => by have := h.parts p hp; cases p <;> exact this, h.reserved, rfl, rfl, rfl⟩

theorem onlyChanges_loadByte (v : Byte) (s : State) : OnlyChanges [.shifter, .bitCounter] s (loadByte v s) :=
  ⟨fun p hp => by cases p <;> simp_all [PartSame], by simp, rfl, rfl, rfl⟩

theorem onlyChanges_shiftLeft (s : State) : OnlyChanges [.shifter, .bitCounter] s (shiftLeft s) :=
  ⟨fun p hp => by cases p <;> simp_all [PartSame], by simp, rfl, rfl, rfl⟩

theorem onlyChanges_clearFb (s : State) : OnlyChanges [.buffer] s (clearFb s) :=
  ⟨fun p hp => by cases p <;> simp_all [PartSame], by simp, rfl, rfl, rfl⟩

theorem onlyChanges_writeFb (a : Nat) (v : Byte) (s : State) : OnlyChanges [.buffer] s (writeFb a v s) :=
  ⟨fun p hp => by cases p <;> simp_all [PartSame], by simp, by simp, by simp, by simp⟩

theorem onlyChanges_act (t : Task) (ret : Bool) (s : State) : OnlyChanges (writes t) s (act t ret s) :=
  match t with
  | .drive l v => onlyChanges_drive l v s
  | .driveBit => onlyChanges_drive .data _ s
  | .wait d => onlyChanges_waitFor d s
  | .sampleRdata => ((onlyChanges_sample s).mono (by simp [writes])).trans
      ((onlyChanges_setFlag (sample s) .rdata _).mono (by simp [writes]))
  | .sampleAck => ((onlyChanges_sample s).mono (by simp [writes])).trans
      ((onlyChanges_setFlag (sample s) .ack _).mono (by simp [writes]))
  | .load v => onlyChanges_loadByte v s
  | .shiftLeft => onlyChanges_shiftLeft s
  | .setOk => onlyChanges_setFlag s .ok ret
  | .drawResults => onlyChanges_drawResults s
  | .clearFb => onlyChanges_clearFb s
  | .writeFb a v => onlyChanges_writeFb a v s
  | .bits => OnlyChanges.refl _ s
  | .start => OnlyChanges.refl _ s
  | .stop => OnlyChanges.refl _ s
  | .bitCycle => OnlyChanges.refl _ s
  | .ackCycle => OnlyChanges.refl _ s
  | .writeByte _ => OnlyChanges.refl _ s
  | .transaction _ _ => OnlyChanges.refl _ s
  | .nextByte _ _ => OnlyChanges.refl _ s
  | .ret _ => OnlyChanges.refl _ s
  | .sendFrame => OnlyChanges.refl _ s
  | .preamble _ => OnlyChanges.refl _ s
  | .nextPreamble _ => OnlyChanges.refl _ s
  | .attempt _ _ => OnlyChanges.refl _ s
  | .nextAttempt _ _ => OnlyChanges.refl _ s

/-- THE FRAME OF A COMMAND: it writes what its lines write, and BUSY. -/
theorem exec_onlyChanges {S : Task → Prop} {ps : List Part} (hS : Closed S) (hw : ∀ t, S t → writes t ⊆ ps)
    (hbusy : .bit .busy ∈ ps) {i : Instr} (hprog : ∀ t ∈ program i, S t) {s t : State}
    (hidle : s.flag .busy = false) (h : exec i s = .next t) : OnlyChanges ps s t := by
  have hb : ∀ b u, OnlyChanges ps s u → OnlyChanges ps s (u.setFlag .busy b) := fun b u hu =>
    hu.trans ((onlyChanges_setFlag u .busy b).mono (by simpa using hbusy))
  have hq : ∀ q u, OnlyChanges ps s u → OnlyChanges ps s (withSeq q u) := fun q u hu =>
    hu.trans (onlyChanges_withSeq ps q u)
  exact (exec_keeps hS (fun t ret u ht hu => hu.trans ((onlyChanges_act t ret u).mono (hw t ht))) hq hb hprog hidle
    (OnlyChanges.refl ps s) h).2

/-- A line without calls. -/
theorem closed_eq {t : Task} (h : ∀ ret s, expand t ret s = []) : Closed (fun u => u = t) := by
  rintro u rfl ret s v hv
  rw [h] at hv
  cases hv

/-- The lines of `START` and `STOP`. -/
def IsCondition : Task → Prop
  | .drive _ _ => True
  | .wait _ => True
  | .start => True
  | .stop => True
  | _ => False

theorem closed_isCondition : Closed IsCondition := by
  intro t ht ret s
  cases t <;> first | exact ht.elim | simp [expand, IsCondition]

end Sys2Proof.Machine
end

