-- ==== Sys2Proof/Laws/FrameWire.lean ====
section
/-! SUPPORT. Frame sequences on the wire: their symbols for every pattern of acknowledges, and the bus-free times
between their transactions (R79, R80, R168). -/

namespace Sys2Proof.Machine

theorem busFreeTimes_conditions (o : Option Nat) (ys : List (Nat × Symbol)) :
    busFreeTimes o (conditions ys) = busFreeTimes o ys := by
  induction ys generalizing o with
  | nil => rfl
  | cons y ys ih =>
    obtain ⟨t, x⟩ := y
    have hc : conditions ((t, x) :: ys) = if isPulse x then conditions ys else (t, x) :: conditions ys := by
      cases x <;> rfl
    rw [hc]
    cases x <;> cases o <;> simp [isPulse, busFreeTimes, ih]

/-- The conditions of some transactions: the first START is at `n0`, the last STOP at `T`, and the bus-free times
between are `L`. -/
def Apart (n0 T : Nat) (L : List Nat) (zs : List (Nat × Symbol)) : Prop :=
  ∃ rest, zs = (n0, .start) :: rest ∧ ∀ ys, busFreeTimes none (zs ++ ys) = L ++ busFreeTimes (some T) ys

theorem apart_transaction (n0 T : Nat) : Apart n0 T [] [(n0, .start), (T, .stop)] :=
  ⟨[(T, .stop)], rfl, fun _ => rfl⟩

theorem Apart.append {n0 T n1 T' : Nat} {L L' : List Nat} {zs zs' : List (Nat × Symbol)} (h : Apart n0 T L zs)
    (g : Apart n1 T' L' zs') : Apart n0 T' (L ++ (n1 - T) :: L') (zs ++ zs') := by
  obtain ⟨r, h1, h2⟩ := h
  obtain ⟨r', g1, g2⟩ := g
  refine ⟨r ++ zs', by rw [h1]; rfl, fun ys => ?_⟩
  rw [List.append_assoc, h2, List.append_assoc]
  congr 1
  have h3 : busFreeTimes (some T) (zs' ++ ys) = (n1 - T) :: busFreeTimes none (zs' ++ ys) := by
    rw [g1]; rfl
  rw [h3, g2]
  rfl

theorem Apart.busFreeTimes {n0 T : Nat} {L : List Nat} {zs : List (Nat × Symbol)} (h : Apart n0 T L zs) :
    busFreeTimes none zs = L := by
  obtain ⟨r, -, h⟩ := h
  simpa [Machine.busFreeTimes] using h []

/-- The wire from `s` to `t` shows the transactions `xs`, from released lines to released lines; under
`EXACT_TIMING`, the first START comes `d` after `s`, the bus-free times are `L`, and `t` is one unit after the last
STOP. -/
def ShowsTransactions (xs : List (List (Byte × Bool))) (d : Nat) (L : List Nat) (s t : State) : Prop :=
  ∀ b, ∃ zs, Shows { c := .rel, d := .rel, shown := b } (xs.flatMap transactionSymbols) zs idleBus s t ∧
    (s.cfg.exactTiming = true → ∃ T, Apart (s.now + d) T L zs ∧ t.now = T + s.cfg.tUnit)

theorem showsTransactions_one (a : Byte) (p : List Byte) (s : State) :
    ShowsTransactions [sentBytes s 0 (a :: p)] s.cfg.tUnit [] s (writeTransaction a p s).2 := by
  intro b
  obtain ⟨T, h1, h2⟩ := shows_writeTransaction a p b s
  exact ⟨_, h1.cast (by simp) (fun _ => rfl), fun he => ⟨T, apart_transaction _ _, h2 he⟩⟩

/-- A delay between transactions. -/
theorem ShowsTransactions.wait {xs ys : List (List (Byte × Bool))} {d d' : Nat} {L L' : List Nat} {s t u : State}
    (h : ShowsTransactions xs d L s t) (hc : t.cfg = s.cfg) (sel : DelaySel)
    (g : ShowsTransactions ys d' L' (waitFor sel t) u) :
    ShowsTransactions (xs ++ ys) d (L ++ (s.cfg.tUnit + delayLength s.cfg sel + d') :: L') s u := by
  intro b
  obtain ⟨zs, h1, h2⟩ := h b
  obtain ⟨zs', g1, g2⟩ := g true
  have hw := (Shows.event idleBus _ (waitFor_trace t sel)).cast rfl (fun _ => rfl)
  have hw' : Shows idleBus [] [] idleBus t (waitFor sel t) := hw
  refine ⟨zs ++ ([] ++ zs'), (h1.trans hc (hw'.trans (by simp) g1)).cast ?_ (fun _ => rfl), fun he => ?_⟩
  · simp [List.flatMap_append]
  · obtain ⟨T, h3, h4⟩ := h2 he
    have ht : t.cfg.exactTiming = true := by rw [hc]; exact he
    obtain ⟨T', g3, g4⟩ := g2 (by simpa using ht)
    refine ⟨T', ?_, by rw [g4, waitFor_cfg, hc]⟩
    have h5 := h3.append g3
    rw [List.nil_append]
    have h6 : (waitFor sel t).now + d' - T = s.cfg.tUnit + delayLength s.cfg sel + d' := by
      rw [waitFor_now, waitEnd_exact sel t ht, hc, h4]; omega
    rwa [h6] at h5

/-- A delay before the first transaction. -/
theorem ShowsTransactions.after {ys : List (List (Byte × Bool))} {d' : Nat} {L' : List Nat} {s u : State}
    (sel : DelaySel) (g : ShowsTransactions ys d' L' (waitFor sel s) u) :
    ShowsTransactions ys (delayLength s.cfg sel + d') L' s u := by
  intro b
  obtain ⟨zs', g1, g2⟩ := g b
  have hw : Shows { c := .rel, d := .rel, shown := b } [] [] { c := .rel, d := .rel, shown := b } s (waitFor sel s) :=
    Shows.event _ _ (waitFor_trace s sel)
  refine ⟨zs', (hw.trans (by simp) g1).cast rfl (fun _ => rfl), fun he => ?_⟩
  obtain ⟨T', g3, g4⟩ := g2 (by simpa using he)
  refine ⟨T', ?_, by rw [g4, waitFor_cfg]⟩
  rwa [waitFor_now, waitEnd_exact sel s he, Nat.add_assoc] at g3

/-- The bus-free times of a frame sequence of `m` transactions with `n` preamble bytes to send. -/
def freeTimes (c : Cfg) (n m : Nat) : List Nat := if n = 0 then [] else frameFreeTimes c n m

theorem freeTimes_succ (c : Cfg) (n m : Nat) (hm : m ≠ 0) (h : n = 0 → m = 1) :
    freeTimes c (n + 1) (m + 1) = (3 * c.tUnit + if n = 0 then c.tGap else 0) :: freeTimes c n m := by
  unfold freeTimes frameFreeTimes
  obtain ⟨m, rfl⟩ : ∃ m', m = m' + 1 := ⟨m - 1, by omega⟩
  cases n with
  | zero =>
    have := h rfl
    simp [this]
  | succ n =>
    by_cases hn : m + 1 ≤ n + 1
    · simp [hn, List.replicate_succ]
    · simp [hn, List.replicate_succ]

/-- R80, R168: the rest of a frame sequence, for every pattern of acknowledges. -/
theorem showsTransactions_sendPreamble (vs : List Byte) : ∀ s : State,
    ShowsTransactions (frameTransactions s 0 vs) (s.cfg.tUnit + if vs.length = 0 then s.cfg.tGap else 0)
      (freeTimes s.cfg vs.length (frameTransactions s 0 vs).length) s (sendPreamble vs s).2 := by
  induction vs with
  | nil =>
    intro s
    rw [sendPreamble]
    have h := (showsTransactions_one (addrByte s.cfg) (frameBytes s) (waitFor .gap s)).after
    rw [sentBytes_span (span_waitFor .gap s), waitFor_cfg] at h
    simpa [frameTransactions, freeTimes, delayLength, Nat.add_comm] using h
  | cons v vs ih =>
    intro s
    have h1 := showsTransactions_one (addrByte s.cfg) [v] s
    obtain ⟨g1, -, g3⟩ := writeTransaction_results (addrByte s.cfg) [v] s
    rw [sendPreamble, frameTransactions, g1]
    cases ht : allTaken (sentBytes s 0 [addrByte s.cfg, v]) with
    | false => simpa [freeTimes, frameFreeTimes] using h1
    | true =>
      have hall := g3.trans (span_waitFor .unit (writeTransaction (addrByte s.cfg) [v] s).2)
      have hfb : (waitFor .unit (writeTransaction (addrByte s.cfg) [v] s).2).fb = s.fb := by
        simpa using (kept_writeTransaction (addrByte s.cfg) [v] s).fb
      have h2 := ih (waitFor .unit (writeTransaction (addrByte s.cfg) [v] s).2)
      have hl : (sentBytes s 0 [addrByte s.cfg, v]).length + 0 + 0 = 0 + 2 := by rw [length_sentBytes_pair ht]
      rw [frameTransactions_span hall hfb, hl, hall.cfg] at h2
      have h3 := h1.wait g3.cfg .unit h2
      simp only [if_true, List.length_cons, Nat.add_one_ne_zero, if_false, Nat.add_zero]
      rw [freeTimes_succ _ _ _ (length_frameTransactions s _ vs) (by
        intro h0; cases vs with
        | nil => rfl
        | cons u us => cases h0)]
      have h4 : s.cfg.tUnit + delayLength s.cfg .unit + (s.cfg.tUnit + if vs.length = 0 then s.cfg.tGap else 0) =
          3 * s.cfg.tUnit + if vs.length = 0 then s.cfg.tGap else 0 := by
        simp only [delayLength]; omega
      rw [h4] at h3
      exact h3

theorem showsTransactions_sendFrame (s : State) :
    ShowsTransactions (frameTransactions s 0 s.cfg.preamble)
      (s.cfg.tUnit + if s.cfg.preamble.length = 0 then s.cfg.tGap else 0)
      (freeTimes s.cfg s.cfg.preamble.length (frameTransactions s 0 s.cfg.preamble).length) s (sendFrame s).2 := by
  rw [sendFrame]; exact showsTransactions_sendPreamble _ s

/-- R163, R164: the attempts of `PUSHF`, for every pattern of acknowledges. -/
theorem shows_pushAttempts (n : Nat) : ∀ (s : State) (b : Bool), ∃ zs w',
    Shows { c := .rel, d := .rel, shown := b } ((pushTransactions s n 0).flatMap transactionSymbols) zs w' s
      (pushAttempts n s) := by
  induction n with
  | zero => intro s b; rw [pushAttempts]; exact ⟨_, _, Shows.still _ rfl⟩
  | succ n ih =>
    intro s b
    obtain ⟨zs, h1, -⟩ := showsTransactions_sendFrame s b
    obtain ⟨-, -, h3⟩ := sendFrame_results s
    rw [pushAttempts, pushTransactions, Nat.zero_add, List.flatMap_append]
    by_cases hn : n = 0
    · subst hn
      rw [if_pos rfl, pushAttempts]
      exact ⟨_, _, h1.cast (by simp [pushTransactions]) (fun _ => rfl)⟩
    · rw [if_neg hn]
      have hall := h3.trans (span_waitFor .push (sendFrame s).2)
      have hfb : (waitFor .push (sendFrame s).2).fb = s.fb := by simpa using (kept_sendFrame s).fb
      have hw : Shows idleBus [] [] idleBus (sendFrame s).2 (waitFor .push (sendFrame s).2) :=
        Shows.event _ _ (waitFor_trace _ _)
      obtain ⟨zs', w', g⟩ := ih (waitFor .push (sendFrame s).2) true
      rw [pushTransactions_span hall hfb, Nat.add_zero] at g
      exact ⟨_, _, (h1.trans h3.cfg (hw.trans (by simp) g)).cast rfl (fun _ => rfl)⟩

/-- The bus-free times of these attempts of `PUSHF`: those inside each, and two units and the push delay between two,
whether the first of them failed or not (R168). -/
def pushFreeTimes (c : Cfg) (attempts : List (List (List (Byte × Bool)))) : List Nat :=
  List.intercalate [2 * c.tUnit + c.tPush] (attempts.map (fun xs => frameFreeTimes c c.preamble.length xs.length))

/-- R168: at least one attempt of `PUSHF`, with the bus-free times inside the attempts and between them, for every
pattern of acknowledges. -/
theorem showsTransactions_pushAttempts (n : Nat) : ∀ s : State, s.cfg.preamble ≠ [] →
    ShowsTransactions (pushTransactions s (n + 1) 0) s.cfg.tUnit (pushFreeTimes s.cfg (attemptList s (n + 1) 0)) s
      (pushAttempts (n + 1) s) := by
  have one : ∀ s : State, s.cfg.preamble ≠ [] → ShowsTransactions (frameTransactions s 0 s.cfg.preamble) s.cfg.tUnit
      (frameFreeTimes s.cfg s.cfg.preamble.length (frameTransactions s 0 s.cfg.preamble).length) s (sendFrame s).2 := by
    intro s hp
    simpa [freeTimes, hp] using showsTransactions_sendFrame s
  induction n with
  | zero =>
    intro s hp
    rw [pushAttempts, if_pos rfl, pushAttempts]
    simpa [pushTransactions, attemptList, pushFreeTimes, List.intercalate] using one s hp
  | succ n ih =>
    intro s hp
    obtain ⟨-, -, h3⟩ := sendFrame_results s
    have hall := h3.trans (span_waitFor .push (sendFrame s).2)
    have hfb : (waitFor .push (sendFrame s).2).fb = s.fb := by simpa using (kept_sendFrame s).fb
    have g := ih (waitFor .push (sendFrame s).2) (by rw [hall.cfg]; exact hp)
    rw [pushTransactions_span hall hfb, attemptList_span hall hfb, hall.cfg] at g
    have h := (one s hp).wait h3.cfg .push g
    rw [pushAttempts, if_neg (Nat.succ_ne_zero n)]
    have hsum : s.cfg.tUnit + delayLength s.cfg .push + s.cfg.tUnit = 2 * s.cfg.tUnit + s.cfg.tPush := by
      simp only [delayLength]; omega
    rw [hsum] at h
    have hfree : pushFreeTimes s.cfg (attemptList s (n + 1 + 1) 0) =
        frameFreeTimes s.cfg s.cfg.preamble.length (frameTransactions s 0 s.cfg.preamble).length ++
          (2 * s.cfg.tUnit + s.cfg.tPush) ::
            pushFreeTimes s.cfg (attemptList s (n + 1) (byteCount (frameTransactions s 0 s.cfg.preamble) + 0 + 0)) := by
      simp [pushFreeTimes, attemptList, List.intercalate]
    rw [hfree]
    have htx : pushTransactions s (n + 1 + 1) 0 = frameTransactions s 0 s.cfg.preamble ++
        pushTransactions s (n + 1) (byteCount (frameTransactions s 0 s.cfg.preamble) + 0 + 0) := by
      rw [pushTransactions, Nat.zero_add]; rfl
    rw [htx]
    exact h

/-- What the wire shows, as statements put it: new events and their symbols. -/
theorem Shows.symbols {w w' : WireState} {xs : List Symbol} {zs : List (Nat × Symbol)} {s t : State}
    (h : Shows w xs zs w' s t) : ∃ es, t.trace = s.trace ++ es ∧ Machine.symbols w es = xs := by
  obtain ⟨es, h1, -, h3, -⟩ := h
  exact ⟨es, h1, h3⟩

end Sys2Proof.Machine
end

