-- ==== Sys2Proof/Laws/Interrupt.lean ====
section
/-! SUPPORT. The frame buffer while a command runs (R52, R64), and a command that a host input interrupts (R204,
R247): what the inputs can and cannot do to its lines. -/

namespace Sys2Proof.Machine

/-! ### The frame buffer while a command runs -/

theorem leavesBuffer_iff (t : Task) : LeavesBuffer t ↔ writesBuffer t = false := by
  cases t <;> simp [LeavesBuffer, writesBuffer]

theorem runningLeavesBuffer_iff (s : State) : RunningLeavesBuffer s ↔ TodoIn LeavesBuffer s := by
  unfold RunningLeavesBuffer TodoIn
  simp only [List.any_eq_false, leavesBuffer_iff, Bool.not_eq_true]

/-- A running command that does not write the buffer keeps it, and stays so. -/
theorem resume_leavesBuffer {s : State} (h : TodoIn LeavesBuffer s) :
    TodoIn LeavesBuffer (resume s) ∧ (resume s).fb = s.fb := by
  refine resume_keeps_in (P := fun t => t.fb = s.fb) closed_leavesBuffer ?_ (fun _ _ h => h) (fun _ h => h) ⟨h, rfl⟩
  intro t ret u ht hu
  rw [← hu]
  cases t <;> first | exact ht.elim | simp [act]

/-- A command of the buffer's port has no step, so nothing lands while it runs: it ends at once. -/
theorem resume_port {i : Instr} (h : i = .fbclr ∨ ∃ index v, i = .fbwr index v) (s : State) :
    (resume (accept i (program i) s)).seq = .idle := by
  have key : ∀ {t : Task}, program i = [t] → t.isStep = false → (∀ ret u, expand t ret u = []) →
      (resume (accept i (program i) s)).seq = .idle := by
    intro t hp ht he
    have h1 := reach_line (cmd := i) (k := 0) (ret := false) (rest := []) (s := s.setFlag .busy true) ht
    rw [he] at h1
    have hb := lineBound_ge s.cfg i
    obtain ⟨m, hm, hr⟩ := runs_of_reach (todo := [t]) h1 (by omega)
    rw [hp, resume_of_runs (r := ⟨i, 0, false, [t]⟩) (accept_seq s i [t]) (by rw [accept_cfg]; exact hm) hr
      (by simp [pauses])]
    simp
  rcases h with rfl | ⟨index, v, rfl⟩
  · exact key rfl rfl (fun _ _ => rfl)
  · exact key rfl rfl (fun _ _ => rfl)

/-- Every accepted command leaves a sequencer that does not write the buffer. -/
theorem accept_leavesBuffer (i : Instr) (s : State) : TodoIn LeavesBuffer (resume (accept i (program i) s)) := by
  have key : (∀ t ∈ program i, LeavesBuffer t) → TodoIn LeavesBuffer (resume (accept i (program i) s)) := by
    intro hp
    refine (resume_leavesBuffer ?_).1
    intro r hr
    rw [accept_seq] at hr
    injection hr with hr
    rw [← hr]
    exact hp
  have port : (i = .fbclr ∨ ∃ index v, i = .fbwr index v) → TodoIn LeavesBuffer (resume (accept i (program i) s)) := by
    intro h r hr
    rw [resume_port h] at hr
    cases hr
  cases i <;> first
    | exact port (.inl rfl)
    | exact port (.inr ⟨_, _, rfl⟩)
    | exact key (by simp [program, LeavesBuffer])

/-! ### Updates that the sequencer does not see -/

/-- An update of the state that the sequencer's lines neither see nor undo. -/
structure Unseen (g : State → State) : Prop where
  seq : ∀ s, (g s).seq = s.seq
  cfg : ∀ s, (g s).cfg = s.cfg
  step : ∀ s, seqStep (g s) = g (seqStep s)

/-- What lines do commutes with an update that the operations commute with. -/
theorem unseen_of_act {g : State → State} (hseq : ∀ s, (g s).seq = s.seq) (hcfg : ∀ s, (g s).cfg = s.cfg)
    (hact : ∀ t ret s, act t ret (g s) = g (act t ret s)) (hexp : ∀ t ret s, expand t ret (g s) = expand t ret s)
    (hret : ∀ t ret s, retAfter t ret (g s) = retAfter t ret s)
    (hq : ∀ q s, withSeq q (g s) = g (withSeq q s)) (hend : ∀ s, complete (g s) = g (complete s)) : Unseen g := by
  refine ⟨hseq, hcfg, fun s => ?_⟩
  unfold seqStep
  rw [hseq]
  rcases s.seq with _ | r
  · rfl
  · rcases ht : r.todo with _ | ⟨t, rest⟩
    · simp only [ht]; exact hend s
    · simp only [ht, hact, hexp, hret, hq]

/-- The inputs to come. -/
theorem unseen_inputs (xs : List HostInput) : Unseen (fun s => { s with inputs := xs }) := by
  refine unseen_of_act (fun _ => rfl) (fun _ => rfl) ?_ ?_ ?_ (fun _ _ => rfl) (fun _ => rfl)
  · intro t ret s
    cases t <;> first
      | rfl
      | (rename_i l v; cases l <;> rfl)
      | (simp only [act, writeFb]; split <;> rfl)
  · intro t ret s; cases t <;> rfl
  · intro t ret s; cases t <;> rfl

/-- The bit F_BUSY. -/
theorem unseen_fBusy : Unseen (fun s => s.setFlag .fBusy true) := by
  refine unseen_of_act (fun _ => rfl) (fun _ => rfl) ?_ ?_ ?_ (fun _ _ => rfl) ?_
  · intro t ret s
    cases t with
    | sampleRdata => exact setFlag_comm (sample s) .fBusy .rdata _ _ (by decide)
    | sampleAck => exact setFlag_comm (sample s) .fBusy .ack _ _ (by decide)
    | setOk => exact setFlag_comm s .fBusy .ok _ _ (by decide)
    | writeFb a v =>
      by_cases h : a < s.cfg.frameLen <;> simp [act, writeFb, h, State.setFlag]
    | drawResults =>
      simp only [act, drawResults, setFlag_draws]
      rw [setFlag_comm s .fBusy .ack _ _ (by decide), setFlag_comm _ .fBusy .ok _ _ (by decide)]
      rfl
    | drive l v => cases l <;> rfl
    | _ => rfl
  · intro t ret s; cases t <;> rfl
  · intro t ret s; cases t <;> rfl
  · intro s
    unfold complete
    rw [setFlag_comm _ _ _ _ _ (by decide)]
    rfl

/-- What the host has read. -/
theorem unseen_hostReads (xs : List Byte) : Unseen (fun s => { s with hostReads := xs }) := by
  refine unseen_of_act (fun _ => rfl) (fun _ => rfl) ?_ ?_ ?_ (fun _ _ => rfl) (fun _ => rfl)
  · intro t ret s
    cases t <;> first
      | rfl
      | (rename_i l v; cases l <;> rfl)
      | (simp only [act, writeFb]; split <;> rfl)
  · intro t ret s; cases t <;> rfl
  · intro t ret s; cases t <;> rfl

/-- A run goes the same way under an update that it does not see, if that stops it nowhere. -/
theorem Runs.unseen {g : State → State} (hg : Unseen g) (hp : ∀ s, pauses (g s) = pauses s) {n : Nat} {s t : State}
    (h : Runs n s t) : Runs n (g s) (g t) := by
  induction n generalizing s with
  | zero => exact congrArg g h
  | succ n ih =>
    refine ⟨(hp s).trans h.1, ?_⟩
    rw [hg.step]
    exact ih h.2

theorem pauses_fBusy (s : State) : pauses (s.setFlag .fBusy true) = pauses s := rfl

/-! ### A command that an input interrupts -/

theorem seqStep_inputs (s : State) : (seqStep s).inputs = s.inputs := by
  rcases seqStep_cases s with ⟨-, h⟩ | ⟨r, -, -, h⟩ | ⟨r, t, rest, -, -, h⟩ <;> rw [h]
  · rfl
  · rw [withSeq_inputs, act_inputs]

theorem seqStep_hostReads (s : State) : (seqStep s).hostReads = s.hostReads := by
  rcases seqStep_cases s with ⟨-, h⟩ | ⟨r, -, -, h⟩ | ⟨r, t, rest, -, -, h⟩ <;> rw [h]
  · rfl
  · rw [withSeq_hostReads, act_hostReads]

/-- A run reads nothing for the host. -/
theorem Runs.hostReads {n : Nat} {s t : State} (h : Runs n s t) : t.hostReads = s.hostReads := by
  induction n generalizing s with
  | zero => exact congrArg State.hostReads h.symm
  | succ n ih => rw [ih h.2, seqStep_hostReads]

theorem seqStep_cfg (s : State) : (seqStep s).cfg = s.cfg := by
  rcases seqStep_cases s with ⟨-, h⟩ | ⟨r, -, -, h⟩ | ⟨r, t, rest, -, -, h⟩ <;> rw [h]
  · rfl
  · rw [withSeq_cfg, act_cfg]

/-- While a command runs, BUSY is 1 and the command is the accepted one. -/
def RunningIs (i : Instr) (s : State) : Prop := ∀ r, s.seq = .running r → r.cmd = i ∧ s.flag .busy = true

theorem seqStep_runningIs {i : Instr} {s : State} (h : RunningIs i s) : RunningIs i (seqStep s) := by
  rcases seqStep_cases s with ⟨-, e⟩ | ⟨r, -, -, e⟩ | ⟨r, t, rest, hr, -, e⟩ <;> rw [e]
  · exact h
  · intro r' hr'; rw [complete_seq] at hr'; cases hr'
  · intro r' hr'
    rw [withSeq_seq] at hr'
    injection hr' with hr'
    obtain ⟨h1, h2⟩ := h r hr
    rw [withSeq_flag, act_flag_busy, ← hr']
    exact ⟨h1, h2⟩

theorem accept_runningIs (i : Instr) (todo : List Task) (s : State) : RunningIs i (accept i todo s) := by
  intro r hr
  rw [accept_seq] at hr
  injection hr with hr
  rw [← hr]
  exact ⟨rfl, by simp⟩

/-! The index of the next step counts the events that the command has appended (R30). -/

/-- With `L` events before the command, its steps and its events so far are the same in number, and at most `k`. -/
structure CountsSteps (L k : Nat) (s : State) : Prop where
  atMost : s.trace.length ≤ L + k
  counts : ∀ r, s.seq = .running r → s.trace.length = L + r.k

theorem act_trace_length (t : Task) (ret : Bool) (s : State) :
    (act t ret s).trace.length = s.trace.length + (if t.isStep then 1 else 0) := by
  cases t <;> simp [act, Task.isStep]

/-- A line keeps the count, if it is no step that an input before step `k` lands at. -/
theorem CountsSteps.step {L k : Nat} {a : HostAct} {s : State} (h : CountsSteps L k s)
    (hl : ¬ lands s ⟨k, a⟩ = true) : CountsSteps L k (seqStep s) := by
  rcases seqStep_cases s with ⟨-, e⟩ | ⟨r, hr, ht, e⟩ | ⟨r, t, rest, hr, ht, e⟩ <;> rw [e]
  · exact h
  · exact ⟨h.atMost, fun r' hr' => by rw [complete_seq] at hr'; cases hr'⟩
  · have hc := h.counts r hr
    have hlen := act_trace_length t r.ret s
    have hk : t.isStep = true → r.k < k := fun hs => by
      have h0 : stepIsNext r = true := by simp only [stepIsNext, ht]; exact hs
      simp only [lands, hr, h0, Bool.true_and, decide_eq_true_eq] at hl
      exact Nat.lt_of_not_le hl
    have hle := h.atMost
    refine ⟨?_, fun r' hr' => ?_⟩
    · rw [withSeq_trace, hlen]
      split
      · rename_i hs; have := hk hs; omega
      · omega
    · rw [withSeq_seq] at hr'
      injection hr' with hr'
      rw [withSeq_trace, hlen, ← hr']
      dsimp only
      split <;> omega

theorem accept_countsSteps (i : Instr) (todo : List Task) (s : State) (k : Nat) :
    CountsSteps s.trace.length k (accept i todo s) := by
  refine ⟨by rw [accept_trace]; omega, fun r hr => ?_⟩
  rw [accept_seq] at hr
  injection hr with hr
  rw [← hr, accept_trace]
  rfl

/-- A run only appends events. -/
theorem Runs.trace {n : Nat} {s t : State} (h : Runs n s t) : ∃ es, t.trace = s.trace ++ es := by
  induction n generalizing s with
  | zero => exact ⟨[], by rw [List.append_nil]; exact congrArg State.trace h.symm⟩
  | succ n ih =>
    obtain ⟨es, h1⟩ := ih h.2
    rcases seqStep_cases s with ⟨-, e⟩ | ⟨r, -, -, e⟩ | ⟨r, t', rest, -, -, e⟩ <;> rw [e] at h1
    · exact ⟨es, h1⟩
    · exact ⟨es, h1⟩
    · obtain ⟨fs, h2⟩ := act_trace t' r.ret s
      exact ⟨fs ++ es, by rw [h1, withSeq_trace, h2, List.append_assoc]⟩

/-- A run that begins with a step appends an event. -/
theorem Runs.trace_lt {n : Nat} {s t : State} {r : Running} (h : Runs n s t) (hs : s.seq = .running r)
    (hr : stepIsNext r = true) (ht : t.seq = .idle) : s.trace.length < t.trace.length := by
  cases n with
  | zero =>
    have : s = t := h
    rw [this, ht] at hs
    cases hs
  | succ n =>
    obtain ⟨es, h1⟩ := Runs.trace h.2
    rcases seqStep_cases s with ⟨h0, -⟩ | ⟨r', h0, h2, -⟩ | ⟨r', t', rest, h0, h2, e⟩
    · rw [h0] at hs; cases hs
    · rw [h0] at hs; injection hs with hs; subst hs; simp [stepIsNext, h2] at hr
    · rw [h0] at hs; injection hs with hs; subst hs
      have hstep : t'.isStep = true := by simpa [stepIsNext, h2] using hr
      have h3 := congrArg List.length h1
      rw [e, withSeq_trace, List.length_append, act_trace_length, if_pos hstep] at h3
      omega

/-- WHERE AN INPUT INTERRUPTS A RUN: a run from `a` to an idle `b` without inputs, with an input there that lands
before step `k`, gets to `b` if the command has at most `k` steps; else it stops at the state `c` of that run where
the command has done `k` steps. -/
theorem runs_interrupted {i : Instr} {k : Nat} {x : HostAct} {L m : Nat} : ∀ {a b : State} {n : Nat}, Runs m a b →
    b.seq = .idle → m ≤ n → a.inputs = [] → RunningIs i a → CountsSteps L k a →
    ∃ c j, j ≤ m ∧ Runs j c b ∧ c.inputs = [] ∧ c.cfg = a.cfg ∧ RunningIs i c ∧
      runLines n { a with inputs := [⟨k, x⟩] } = { c with inputs := [⟨k, x⟩] } ∧
      ((c = b ∧ b.trace.length ≤ L + k) ∨
        ((∃ r, c.seq = .running r ∧ r.k = k) ∧ lands c ⟨k, x⟩ = true ∧ c.trace = b.trace.take (L + k) ∧
          L + k < b.trace.length)) := by
  induction m with
  | zero =>
    intro a b n h hb hn hin hi hc
    obtain rfl : a = b := h
    refine ⟨a, 0, Nat.le_refl 0, rfl, hin, rfl, hi, ?_, .inl ⟨rfl, hc.atMost⟩⟩
    exact runLines_pauses (by simp [pauses, hb]) n
  | succ m ih =>
    intro a b n h hb hn hin hi hc
    have hall := h
    obtain ⟨hp, h⟩ := h
    obtain ⟨r, hs⟩ : ∃ r, a.seq = .running r := by
      rcases hs : a.seq with _ | r
      · simp [pauses, hs] at hp
      · exact ⟨r, rfl⟩
    by_cases hl : lands a ⟨k, x⟩ = true
    · obtain ⟨h1, h2⟩ : stepIsNext r = true ∧ k ≤ r.k := by simpa [lands, hs] using hl
      have h3 := hc.counts r hs
      have h4 := hc.atMost
      have hk : r.k = k := by omega
      obtain ⟨es, h5⟩ := Runs.trace hall
      refine ⟨a, m + 1, Nat.le_refl _, hall, hin, rfl, hi, runLines_pauses ?_ n, .inr ⟨⟨r, hs, hk⟩, hl, ?_, ?_⟩⟩
      · simp only [pauses, lands, hs] at hl ⊢; exact hl
      · rw [h5, List.take_append_of_le_length (by omega), List.take_of_length_le (by omega)]
      · have := Runs.trace_lt hall hs h1 hb; omega
    · obtain ⟨n, rfl⟩ : ∃ n', n = n' + 1 := ⟨n - 1, by omega⟩
      have hp' : pauses { a with inputs := [⟨k, x⟩] } = false := by
        simp only [pauses, lands, hs] at hl ⊢; simpa using hl
      obtain ⟨c, j, h1, h2, h3, hc', h4, h5, h6⟩ := ih (n := n) h hb (by omega) ((seqStep_inputs a).trans hin)
        (seqStep_runningIs hi) (hc.step hl)
      refine ⟨c, j, by omega, h2, h3, hc'.trans (seqStep_cfg a), h4, ?_, h6⟩
      rw [runLines, if_neg (by simp [hp']), (unseen_inputs [⟨k, x⟩]).step]
      exact h5

end Sys2Proof.Machine
end

