-- ==== Sys2Proof/Laws/PerInstr.lean ====
section
/-! SUPPORT. One lemma per constructor of `Instr`: the fields that the encoder gives a well-formed command decode to
that command (spec/30_encoding.md R71, R73). -/

namespace Sys2Proof.Laws.FieldsDecode

/-- The fields of R71 for the command are the fields from which the decoder reads it. -/
def Statement (i : Instr) : Prop :=
  i.wellFormed = true → decodeFields i.opcode i.operandA i.operandB = .ok i

theorem lowc : Statement .lowc := fun _ => rfl
theorem relc : Statement .relc := fun _ => rfl
theorem lowd : Statement .lowd := fun _ => rfl
theorem reld : Statement .reld := fun _ => rfl
theorem readd : Statement .readd := fun _ => rfl
theorem delayUnit : Statement .delayUnit := fun _ => rfl
theorem delayGap : Statement .delayGap := fun _ => rfl
theorem delayPush : Statement .delayPush := fun _ => rfl
theorem start : Statement .start := fun _ => rfl
theorem stop : Statement .stop := fun _ => rfl
theorem wrbyte (value : Byte) : Statement (.wrbyte value) := fun _ => rfl
theorem wrtxn1 (addrByte data : Byte) : Statement (.wrtxn1 addrByte data) := fun _ => rfl
theorem wrtxnf (addrByte : Byte) : Statement (.wrtxnf addrByte) := fun _ => rfl
theorem sendf : Statement .sendf := fun _ => rfl
theorem pushf (n : Nat) : Statement (.pushf n) := fun h => by
  have hn := toNat_operand (n := n) h
  show withFixed 0x0D _ (.pushf (BitVec.ofNat 8 n).toNat) = _
  rw [hn]; rfl
theorem fbclr : Statement .fbclr := fun _ => rfl
theorem fbwr (index : Nat) (value : Byte) : Statement (.fbwr index value) := fun h => by
  have hn := toNat_operand (n := index) h
  show Except.ok (Instr.fbwr (BitVec.ofNat 8 index).toNat value) = _
  rw [hn]

end Sys2Proof.Laws.FieldsDecode
end

