-- ==== Sys2Proof/Tests/Slice0.lean ====
section
/-! SUPPORT. The model's own tests. Their expected results are those of spec/95_test_vectors.md (V1 to V9), which are
stated under EXACT_TIMING, and of the examples of spec/40 to 43. After them, a witness for the hypotheses of each
statement. -/

namespace Sys2Proof.Tests

open Sys2Proof.Machine

/-! ### Well-formedness -/

theorem test_wellFormed_refuses_pushf_256 : (Instr.pushf 256).wellFormed = false := by decide
theorem test_wellFormed_refuses_fbwr_256 : (Instr.fbwr 256 0x00).wellFormed = false := by decide
theorem test_wellFormed_accepts_pushf_255 : (Instr.pushf 255).wellFormed = true := by decide
theorem test_wellFormed_accepts_fbwr_255 : (Instr.fbwr 255 0xFF).wellFormed = true := by decide

/-! ### Decoding, words written out from R71 (V1) -/

theorem test_decode_lowc : decode 0x010000 = .ok .lowc := by decide
theorem test_decode_relc : decode 0x020000 = .ok .relc := by decide
theorem test_decode_lowd : decode 0x030000 = .ok .lowd := by decide
theorem test_decode_reld : decode 0x040000 = .ok .reld := by decide
theorem test_decode_readd : decode 0x050000 = .ok .readd := by decide
theorem test_decode_delayUnit : decode 0x060000 = .ok .delayUnit := by decide
theorem test_decode_delayGap : decode 0x060100 = .ok .delayGap := by decide
theorem test_decode_delayPush : decode 0x060200 = .ok .delayPush := by decide
theorem test_decode_start : decode 0x070000 = .ok .start := by decide
theorem test_decode_stop : decode 0x080000 = .ok .stop := by decide
theorem test_decode_wrbyte : decode 0x0900FF = .ok (.wrbyte 0xFF) := by decide
theorem test_decode_wrtxn1 : decode 0x0A793F = .ok (.wrtxn1 0x79 0x3F) := by decide
theorem test_decode_wrtxnf : decode 0x0B7800 = .ok (.wrtxnf 0x78) := by decide
theorem test_decode_sendf : decode 0x0C0000 = .ok .sendf := by decide
theorem test_decode_pushf : decode 0x0D0008 = .ok (.pushf 8) := by decide
theorem test_decode_fbclr : decode 0x0E0000 = .ok .fbclr := by decide
theorem test_decode_fbwr : decode 0x0F9109 = .ok (.fbwr 145 9) := by decide

theorem test_illegal_all_zero : decode 0x000000 = .error (.reservedOpcode 0x00) := by decide
theorem test_illegal_lowc_b : decode 0x010001 = .error (.fixedField 0x01) := by decide
theorem test_illegal_readd_a : decode 0x050100 = .error (.fixedField 0x05) := by decide
theorem test_illegal_delay_selector_3 : decode 0x060300 = .error (.delaySelector 0x03) := by decide
theorem test_illegal_delay_b : decode 0x060001 = .error (.fixedField 0x06) := by decide
theorem test_illegal_wrbyte_a : decode 0x0901FF = .error (.fixedField 0x09) := by decide
theorem test_illegal_wrtxnf_b : decode 0x0B7801 = .error (.fixedField 0x0B) := by decide
theorem test_illegal_pushf_a : decode 0x0D0108 = .error (.fixedField 0x0D) := by decide
theorem test_illegal_opcode_10 : decode 0x100000 = .error (.reservedOpcode 0x10) := by decide
theorem test_illegal_all_ones : decode 0xFFFFFF = .error (.reservedOpcode 0xFF) := by decide

/-- The rows of the opcode table are apart, and each covers its pattern. -/
theorem test_rows_apart : opcodeTable.Pairwise (fun r t => r.apart t = true) := by decide
theorem test_decodeTableWord_short : decodeTableWord 24 0x0D0008 = some (.pushf 8) := by decide

/-! ### The assembler (R74, R75) -/

theorem test_assemble_wrtxn1_pseudo :
    assembleLine Cfg.thisHardware ['W', 'R', 'T', 'X', 'N', '1', ' ', '0', 'x', '3', 'F'] =
      some (.wrtxn1 0x78 0x3F) := by decide
theorem test_assemble_delay_gap :
    assembleLine Cfg.thisHardware ['D', 'E', 'L', 'A', 'Y', ' ', 'G', 'A', 'P'] = some .delayGap := by decide
theorem test_assemble_fbwr :
    assembleLine Cfg.thisHardware ['F', 'B', 'W', 'R', ' ', '5', ',', ' ', '2', '0', '0'] =
      some (.fbwr 5 200) := by decide
theorem test_assemble_setd_2 :
    assembleLine Cfg.thisHardware ['S', 'E', 'T', 'D', ' ', '2'] = none := by decide
theorem test_assemble_operand_256 :
    assembleLine Cfg.thisHardware ['W', 'R', 'B', 'Y', 'T', 'E', ' ', '2', '5', '6'] = none := by decide

theorem test_assemble_blank_in_number :
    assembleLine Cfg.thisHardware ['P', 'U', 'S', 'H', 'F', ' ', '1', ' ', '2'] = none := by decide

/-! ### One command -/

/-- Reset under EXACT_TIMING, with these answers of the peripheral and these host inputs. -/
def bench (answers : List Driver) (inputs : List HostInput) : State :=
  { State.reset with cfg := { Cfg.thisHardware with exactTiming := true }, peripheral := answers, inputs := inputs }

/-- What `f` says of the next state, if there is one. -/
def see {α : Type} (o : Host.Outcome State Fault Refusal) (f : State → α) : Option α :=
  match o with
  | .next t => some (f t)
  | .fault _ => none
  | .refused _ => none

/-- The step after this one. -/
def thenStep (o : Host.Outcome State Fault Refusal) : Host.Outcome State Fault Refusal :=
  match o with
  | .next t => step t
  | .fault r => .fault r
  | .refused r => .refused r

theorem test_lowc : see (exec .lowc (bench [] [])) (fun t => (t.drvC, t.drvD, t.now, t.trace)) =
    some (.low, .rel, 0, [.drive 0 .clock .low]) := by decide +kernel
theorem test_relc_redundant : see (exec .relc (bench [] [])) (fun t => (t.drvC, t.trace)) =
    some (.rel, [.drive 0 .clock .rel]) := by decide +kernel
theorem test_lowd : see (exec .lowd (bench [] [])) (fun t => (t.drvC, t.drvD, t.trace)) =
    some (.rel, .low, [.drive 0 .data .low]) := by decide +kernel
theorem test_reld : see (exec .reld { bench [] [] with drvD := .low }) (fun t => (t.drvD, t.trace)) =
    some (.rel, [.drive 0 .data .rel]) := by decide +kernel
theorem test_readd_high : see (exec .readd (bench [.rel] [])) (fun t => (t.status, t.trace)) =
    some (0x08, [.sample 0 true]) := by decide +kernel
theorem test_readd_low_releases_data :
    see (exec .readd { bench [.low] [] with drvD := .low, status := 0x08 }) (fun t => (t.drvD, t.status, t.trace)) =
      some (.rel, 0x00, [.sample 0 false]) := by decide +kernel
theorem test_delay_unit : see (exec .delayUnit (bench [] [])) (fun t => (t.now, t.trace)) =
    some (20, [.wait 0 20 20]) := by decide +kernel
theorem test_delay_gap : see (exec .delayGap (bench [] [])) (fun t => (t.now, t.trace)) =
    some (33, [.wait 0 33 33]) := by decide +kernel
theorem test_delay_push : see (exec .delayPush (bench [] [])) (fun t => (t.now, t.trace)) =
    some (2000, [.wait 0 2000 2000]) := by decide +kernel
theorem test_start : see (exec .start (bench [] [])) (fun t => (t.drvC, t.drvD, t.trace)) =
    some (.low, .low, [.drive 0 .data .rel, .drive 0 .clock .rel, .wait 0 20 20, .drive 20 .data .low,
      .wait 20 40 20, .drive 40 .clock .low, .wait 40 60 20]) := by decide +kernel
theorem test_start_from_low_data_shows_stop :
    see (exec .start { bench [] [] with drvD := .low }) (fun t => wireSymbols { idleBus with d := .low } t.trace) =
      some [(0, .stop), (20, .start)] := by decide +kernel
theorem test_stop : see (exec .stop (bench [] [])) (fun t => (t.drvC, t.drvD, t.trace)) =
    some (.rel, .rel, [.drive 0 .data .low, .wait 0 20 20, .drive 20 .clock .rel, .wait 20 40 20,
      .drive 40 .data .rel, .wait 40 60 20]) := by decide +kernel

/-- The events of `Drive` and `Sample`, as V3 lists them. -/
def edges (es : List Event) : List Event :=
  es.filter (fun e => match e with
    | .wait _ _ _ => false
    | .drive _ _ _ => true
    | .sample _ _ => true)

/-- A frame sequence with every byte acknowledged (V5 #1), and one whose preamble byte 2 is refused (V5 #6). -/
theorem test_attemptTime :
    attemptTime Cfg.thisHardware 8 (List.replicate 8 (List.replicate 2 (0x00, false)) ++
      [List.replicate 146 (0x00, false)]) = 88753 ∧
    attemptTime Cfg.thisHardware 8 (List.replicate 3 (List.replicate 2 (0x00, false))) = 3640 := by decide +kernel

/-- The exit state of `START` at time 60 (V3). -/
def afterStart (answers : List Driver) : State := { bench answers [] with drvC := .low, drvD := .low, now := 60 }

theorem test_wrbyte_A5 : see (exec (.wrbyte 0xA5) (afterStart [.low])) (fun t => edges t.trace) =
    some ([.drive 60 .data .rel, .drive 80 .clock .rel, .drive 100 .clock .low, .drive 120 .data .low,
      .drive 140 .clock .rel, .drive 160 .clock .low, .drive 180 .data .rel, .drive 200 .clock .rel,
      .drive 220 .clock .low, .drive 240 .data .low, .drive 260 .clock .rel, .drive 280 .clock .low,
      .drive 300 .data .low, .drive 320 .clock .rel, .drive 340 .clock .low, .drive 360 .data .rel] ++
      [.drive 380 .clock .rel, .drive 400 .clock .low, .drive 420 .data .low, .drive 440 .clock .rel,
      .drive 460 .clock .low, .drive 480 .data .rel, .drive 500 .clock .rel, .drive 520 .clock .low,
      .drive 540 .data .rel, .drive 560 .clock .rel, .sample 580 false, .drive 580 .clock .low]) := by
  decide +kernel
theorem test_wrbyte_absent : see (exec (.wrbyte 0x00) (afterStart [.rel]))
    (fun t => (t.now, t.trace.length, t.status, t.shift, t.bitcnt)) = some (600, 55, 0x00, 0x00, 8) := by
  decide +kernel
theorem test_wrtxn1_all_ack : see (exec (.wrtxn1 0x78 0x3F) (bench [.low, .low] []))
    (fun t => (t.now, t.trace.length, t.samples, t.status, t.drvC, t.drvD)) =
      some (1200, 123, 2, 0x06, .rel, .rel) := by decide +kernel
theorem test_wrtxn1_nack_data : see (exec (.wrtxn1 0x78 0x3F) (bench [.low, .rel] []))
    (fun t => (t.now, t.trace.length, t.samples, t.status, t.drvC, t.drvD)) =
      some (1200, 123, 2, 0x00, .rel, .rel) := by decide +kernel
theorem test_wrtxnf_nack_address : see (exec (.wrtxnf 0x78) (bench [.rel] []))
    (fun t => (t.now, t.trace.length, t.samples, t.status)) = some (660, 68, 1, 0x00) := by decide +kernel
theorem test_wrtxnf_nack_first_byte :
    see (exec (.wrtxnf 0x78) { bench [.low, .rel] [] with fb := [(0, 0xC8)] })
      (fun t => (t.now, t.trace.length, t.status, symbols idleBus t.trace)) =
      some (1200, 123, 0x00, transactionSymbols [(0x78, false), (0xC8, true)]) := by decide +kernel
theorem test_sendf_absent : see (exec .sendf (bench [.rel] []))
    (fun t => (t.now, t.trace.length, t.samples, t.status)) = some (660, 68, 1, 0x00) := by decide +kernel
theorem test_sendf_nack_4 : see (exec .sendf (bench [.low, .low, .low, .low, .rel] []))
    (fun t => (t.now, t.trace.length, t.samples, t.status)) = some (3100, 316, 5, 0x00) := by decide +kernel
theorem test_pushf_0 : see (exec (.pushf 0) (bench [] [])) (fun t => (t.now, t.trace, t.samples, t.seq)) =
    some (0, [], 0, .idle) := by decide +kernel
theorem test_pushf_3_absent : see (exec (.pushf 3) (bench [.rel, .rel, .rel] []))
    (fun t => (t.now, t.trace.length, t.samples, t.seq)) = some (5980, 206, 3, .idle) := by decide +kernel
theorem test_fbclr : see (exec .fbclr { bench [] [] with fb := [(5, 200)] }) (fun t => (t.fb, t.now, t.trace)) =
    some ([], 0, []) := by decide +kernel
theorem test_fbwr_5 : see (exec (.fbwr 5 200) (bench [] [])) (fun t => (t.fb, t.now, t.trace, t.status)) =
    some ([(5, 200)], 0, [], 0x00) := by decide +kernel
theorem test_fbwr_145_ignored : see (exec (.fbwr 145 7) (bench [] [])) (fun t => t.fb) = some [] := by decide +kernel

/-! ### The host, faults and reset (V8, V9, P5) -/

theorem test_illegal_word : see (step (bench [] [⟨0, .write 0x000000⟩])) (fun t => (t.status, t.trace, t.inputs)) =
    some (0x10, [], []) := by decide +kernel

/-- `SENDF` from reset at time 1000, where the input lands (V8 #3). -/
def at1000 (a : HostAct) : Host.Outcome State Fault Refusal := exec .sendf (bench [.low, .low] [⟨102, a⟩])

theorem test_sendf_at_1000 : see (at1000 .readStatus) (fun t => (t.now, t.status, t.trace.length, t.inputs.length)) =
    some (1000, 0x03, 102, 1) := by decide +kernel
theorem test_read_status_while_busy : see (thenStep (at1000 .readStatus)) (fun t => (t.hostReads, t.inputs)) =
    some ([0x03], []) := by decide +kernel
theorem test_fbwr_while_busy : see (thenStep (at1000 (.write 0x0F0105))) (fun t => (t.status, t.fb, t.now)) =
    some (0x23, [], 1000) := by decide +kernel
theorem test_illegal_while_busy : see (thenStep (at1000 (.write 0xFFFFFF))) (fun t => t.status) = some 0x23 := by
  decide +kernel
theorem test_reset_mid_byte : see (thenStep (at1000 .reset)) (fun t => (t.drvC, t.drvD, t.now, t.trace, t.status)) =
    some (.rel, .rel, 0, [], 0x00) := by decide +kernel
theorem test_reset_mid_byte_idle : see (thenStep (at1000 .reset)) (fun t => (t.fb, t.seq)) = some ([], .idle) := by
  decide +kernel

/-- A command that a refused write interrupts ends as it ends without (V3 #1, R204). -/
theorem test_interrupted_byte_runs_on :
    see (thenStep (thenStep (exec (.wrbyte 0x78) { afterStart [.low] with inputs := [⟨30, .write 0x010000⟩] })))
      (fun t => (t.now, t.trace.length, t.status, t.seq)) = some (600, 55, 0x22, .idle) := by decide +kernel

theorem test_withFetchWord_runs :
    see (step (State.reset.withFetchWord 24 0x0F01C8)) (fun t => (t.fb, t.inputs)) = some ([(1, 200)], []) := by
  decide +kernel

/-- Nothing of a `PUSHF` that is sent rests on the draws: its ACK and OK are free values, its fault bits are 0. -/
theorem test_pushf_fault_bits : see (exec (.pushf 0) (bench [] [])) (fun t => (t.status.getLsbD 4, t.status.getLsbD 5)) =
    some (false, false) := by
  rw [exec_ready (readyFor_of_noInputs _ ⟨rfl, rfl⟩ rfl)]
  simp only [see, effect]
  rw [pushAttempts]
  have h := fun f => drawResults_flag (bench [] []) f
  have h1 := h .fIllegal
  have h2 := h .fBusy
  simp only [State.flag, statusGet, statusPos] at h1 h2
  rw [h1, h2]
  rfl

/-! ### Witnesses: for each statement with hypotheses, a state and operands that meet them together -/

/-- The peripheral answers each of `n` samples with an acknowledge. -/
def acking (n : Nat) : State := bench (List.replicate n .low) []

/-- The first `k` samples are acknowledged and the next is not. -/
def nackAt (k : Nat) : State := bench (List.replicate k .low ++ [.rel]) []

theorem idle_bench (ds : List Driver) (xs : List HostInput) : Idle (bench ds xs) :=
  ⟨rfl, show statusGet 0x00#8 .busy = false by decide⟩

theorem readyFor_bench (i : Instr) (ds : List Driver) : ReadyFor i (bench ds []) :=
  readyFor_of_noInputs i (idle_bench ds []) rfl

theorem peripheralAt_acking {n i : Nat} (hi : i < n) : peripheralAt (acking n) i = .low := by
  simp [peripheralAt, acking, bench, hi]

theorem allAck_acking (n : Nat) : AllAck (acking n) n := fun i hi => by
  rw [sampledAt, peripheralAt_acking hi]; rfl

theorem firstNack_nackAt (k : Nat) : FirstNack (nackAt k) k := by
  constructor
  · intro i hi
    simp [sampledAt, peripheralAt, nackAt, bench, List.getElem?_append, hi, level]
  · simp [sampledAt, peripheralAt, nackAt, bench, level]

/-- A busy state in the middle of a delay, with these host inputs. -/
def busyBench (xs : List HostInput) : State :=
  { bench [] xs with status := 0x01, seq := .running ⟨.delayUnit, 0, false, [.wait .unit]⟩ }

theorem witness_DecodeOfEncode : (Instr.fbwr 255 0xFF).wellFormed = true ∧ (Instr.pushf 255).wellFormed = true := by
  decide
theorem witness_EncodeOfDecode : decode 0x0FFFFF = .ok (.fbwr 255 0xFF) ∧ decode 0x060200 = .ok .delayPush := by decide
/-- A word of each kind of illegal word, at the edges of the ranges: opcodes 0x00 and 0x10, selector 3, each field. -/
theorem witness_IllegalWordsOnlySetFIllegal :
    Idle (bench [] [⟨0, .write 0x060300⟩]) ∧ decode 0x060300 = .error (.delaySelector 3) ∧
    decode 0x00FFFF = .error (.reservedOpcode 0x00) ∧ decode 0x100000 = .error (.reservedOpcode 0x10) ∧
    decode 0x0E0001 = .error (.fixedField 0x0E) ∧ decode 0x060201 = .error (.fixedField 0x06) ∧
    decode 0x0D0100 = .error (.fixedField 0x0D) ∧ decode 0x0B00FF = .error (.fixedField 0x0B) :=
  ⟨idle_bench _ _, by decide⟩
theorem witness_OpcodeTableIsExact : ∃ r ∈ opcodeTable, r.covers 0x0A793F = true := by decide
theorem witness_PseudoInstructionsExpand : (2 : Nat) ≠ 0 ∧ (2 : Nat) ≠ 1 := by decide
/-- Operand 256 is out, 255 is in; a name of `DELAY`'s is read as a number below 256. -/
theorem witness_AssembledCommands_operands :
    ['2', '5', '6'] ∈ operandTexts (['W', 'R', 'B', 'Y', 'T', 'E', ' ', '2', '5', '6'].dropWhile (· != ' ')) ∧
    literalValue ['2', '5', '6'] = some 256 ∧
    assembleLine Cfg.thisHardware ['W', 'R', 'B', 'Y', 'T', 'E', ' ', '2', '5', '5'] = some (.wrbyte 0xFF) ∧
    assembleLine Cfg.thisHardware ['D', 'E', 'L', 'A', 'Y', ' ', 'P', 'U', 'S', 'H'] = some .delayPush := by decide
theorem witness_AssembledCommandsAreWellFormed : Cfg.thisHardware.repeatDefault < 256 ∧
    assembleLine Cfg.thisHardware ['P', 'U', 'S', 'H', 'F', ' ', '2', '5', '5'] = some (.pushf 255) := by decide
theorem witness_StepRunsDecodedCommand : Idle (bench [] [⟨0, .write 0x0C0000⟩]) ∧ decode 0x0C0000 = .ok .sendf :=
  ⟨idle_bench _ _, by decide⟩
theorem witness_PresentedWordRuns : decodeTableWord 24 0x0F9109 = some (.fbwr 145 9) := by decide
theorem witness_IdleBlockWaits : (bench [] []).seq = .idle ∧ (bench [] []).inputs = [] := ⟨rfl, rfl⟩
theorem witness_StatusReadChangesNothing : lands (busyBench [⟨0, .readStatus⟩]) ⟨0, .readStatus⟩ = true := by decide
theorem witness_StatusRead_idle : lands { State.reset with inputs := [⟨0, .readStatus⟩] } ⟨0, .readStatus⟩ = true ∧
    Inv { resetBlock State.reset with inputs := [⟨0, .readStatus⟩] } :=
  ⟨by decide, inv_inputs (inv_resetBlock State.reset) _⟩
theorem witness_BusyWriteOnlySetsFBusy : (busyBench [⟨0, .write 0x0E0000⟩]).flag .busy = true ∧
    lands (busyBench [⟨0, .write 0x0E0000⟩]) ⟨0, .write 0x0E0000⟩ = true := by decide
theorem witness_CommandRefusedWhileBusy : (busyBench []).flag .busy = true := by decide
theorem witness_ResetInputLeaves : lands (busyBench [⟨0, .reset⟩]) ⟨0, .reset⟩ = true ∧
    (∃ t, step { bench [] [] with status := 0x20 } = .next t) ∧
    State.flag { bench [] [] with status := 0x20 } (faultBit .busy) = true := ⟨by decide, ⟨_, rfl⟩, by decide⟩
/-- Every command is ready on the reset state itself, whose lines are released: the hypotheses of the statements of a
command's result (ReaddSamplesData, StartMakesStartCondition, StopMakesStopCondition, WrbyteSendsByte, SendfResults,
PushfResults, FrameOnTheWire, PushOnTheWire, FbclrClearsBuffer, NoAnswerLengthensCommand). -/
theorem witness_ReadyFor (i : Instr) : ReadyFor i State.reset ∧ State.reset.drvC = .rel ∧ State.reset.drvD = .rel :=
  ⟨readyFor_of_noInputs i ⟨rfl, rfl⟩ rfl, rfl, rfl⟩
/-- So it is before an input that lands late enough, and not before one that lands sooner. -/
theorem witness_ReadyFor_edge :
    ReadyFor .start (bench [] [⟨7, .reset⟩]) ∧ ¬ ReadyFor .start (bench [] [⟨6, .reset⟩]) := by
  refine ⟨⟨idle_bench _ _, ?_⟩, fun h => ?_⟩
  · intro x hx; simp [bench] at hx; subst hx; exact Nat.le_refl 7
  · exact absurd (h.2 ⟨6, .reset⟩ rfl) (by decide)
theorem witness_ClockCommandsDriveClock :
    (Instr.relc, Driver.rel, (0x020000 : CmdWord)) ∈
      [(Instr.lowc, Driver.low, (0x010000 : CmdWord)), (.relc, .rel, 0x020000)] := by decide
theorem witness_DataCommandsDriveData :
    (Instr.reld, Driver.rel, (0x040000 : CmdWord), 1) ∈
      [(Instr.lowd, Driver.low, (0x030000 : CmdWord), 0), (.reld, .rel, 0x040000, 1)] := by decide
theorem witness_DelaysAdvanceTime :
    (Instr.delayPush, DelaySel.push, (0x060200 : CmdWord)) ∈ [(Instr.delayUnit, DelaySel.unit, (0x060000 : CmdWord)),
      (.delayGap, .gap, 0x060100), (.delayPush, .push, 0x060200)] := by decide
/-- For the frames: every command answers a next state from the reset state, which is not busy. -/
theorem witness_frames (i : Instr) : State.reset.flag .busy = false ∧ ∃ t, exec i State.reset = .next t :=
  ⟨rfl, _, exec_eq i _⟩
theorem witness_PortFrame : Memory.wf (bench [] []).cfg.frameLen (bench [] []).fb = true ∧
    ¬(144 = 145 ∧ 145 < (bench [] []).cfg.frameLen) ∧ ¬(145 = 145 ∧ 145 < (bench [] []).cfg.frameLen) := by decide
theorem witness_StartFromPrimitives : Idle (bench [] []) ∧ (bench [] []).cfg.exactTiming = true ∧
    ∃ s1 s2 s3 s4 s5 s6 s7, exec .reld (bench [] []) = .next s1 ∧ exec .relc s1 = .next s2 ∧
      exec .delayUnit s2 = .next s3 ∧ exec .lowd s3 = .next s4 ∧ exec .delayUnit s4 = .next s5 ∧
      exec .lowc s5 = .next s6 ∧ exec .delayUnit s6 = .next s7 :=
  ⟨idle_bench _ _, rfl, _, _, _, _, _, _, _, exec_eq _ _, exec_eq _ _, exec_eq _ _, exec_eq _ _, exec_eq _ _,
    exec_eq _ _, exec_eq _ _⟩
theorem witness_WrbyteExactTrace : ReadyFor (.wrbyte 0xA5) (acking 1) ∧ (acking 1).cfg.exactTiming = true :=
  ⟨readyFor_bench _ _, rfl⟩
theorem witness_ByteOnTheWire : ReadyFor (.wrbyte 0x3F) (acking 1) ∧ ({ idleBus with c := .low }).c = .low :=
  ⟨readyFor_bench _ _, rfl⟩
theorem witness_TransactionResults : ((∃ d, Instr.wrtxn1 0x78 0x3F = .wrtxn1 0x78 d ∧ [(0x3F : Byte)] = [d]) ∨
    (Instr.wrtxn1 0x78 0x3F = .wrtxnf 0x78 ∧ [(0x3F : Byte)] = [])) ∧ ReadyFor (.wrtxn1 0x78 0x3F) (acking 2) :=
  ⟨.inl ⟨0x3F, rfl, rfl⟩, readyFor_bench _ _⟩
theorem witness_TransactionOnTheWire : ReadyFor (.wrtxnf 0x78) (acking 146) ∧ (acking 146).drvC = .rel ∧
    (acking 146).drvD = .rel := ⟨readyFor_bench _ _, rfl, rfl⟩
/-- All acknowledged; the first refused byte the address (0) and the last one of a frame (145). -/
theorem witness_TransactionTiming : AllAck (acking 146) (1 + (acking 146).cfg.frameLen) ∧ FirstNack (nackAt 0) 0 ∧
    FirstNack (nackAt 145) 145 ∧ 145 ≤ (nackAt 145).cfg.frameLen :=
  ⟨allAck_acking 146, firstNack_nackAt 0, firstNack_nackAt 145, Nat.le_refl 145⟩
theorem witness_HostBuiltTransaction : Idle (acking 2) ∧ (acking 2).inputs = [] ∧ (acking 2).cfg.exactTiming = true ∧
    AllAck (acking 2) 2 ∧ ∃ s1 s2 s3 s4, exec .start (acking 2) = .next s1 ∧ exec (.wrbyte 0x78) s1 = .next s2 ∧
      exec (.wrbyte 0x3F) s2 = .next s3 ∧ exec .stop s3 = .next s4 :=
  ⟨idle_bench _ _, rfl, rfl, allAck_acking 2, _, _, _, _, exec_eq _ _, exec_eq _ _, exec_eq _ _, exec_eq _ _⟩
theorem witness_AcknowledgedFrameOnTheWire : ReadyFor .sendf (acking 162) ∧ (acking 162).drvC = .rel ∧
    (acking 162).drvD = .rel ∧ AllAck (acking 162) (frameSamples (acking 162).cfg (acking 162).cfg.preamble.length) :=
  ⟨readyFor_bench _ _, rfl, rfl, allAck_acking 162⟩
/-- Preamble transactions 0 and 7, their address and their byte; the payload's address and its last byte. -/
theorem witness_SendfFailures : FirstNack (nackAt 0) (2 * 0 + 0) ∧ FirstNack (nackAt 15) (2 * 7 + 1) ∧
    7 < (nackAt 15).cfg.preamble.length ∧ FirstNack (nackAt 16) (2 * (nackAt 16).cfg.preamble.length + 0) ∧
    FirstNack (nackAt 161) (2 * (nackAt 161).cfg.preamble.length + 145) :=
  ⟨firstNack_nackAt 0, firstNack_nackAt 15, by decide, firstNack_nackAt 16, firstNack_nackAt 161⟩
theorem witness_BusFreeTimes : ReadyFor (.pushf 0) (acking 324) ∧ ReadyFor (.pushf 8) (acking 324) ∧ ReadyFor .sendf (acking 324) ∧
    (acking 324).drvC = .rel ∧ (acking 324).drvD = .rel ∧ (acking 324).cfg.exactTiming = true ∧
    (acking 324).cfg.preamble ≠ [] :=
  ⟨readyFor_bench _ _, readyFor_bench _ _, readyFor_bench _ _, rfl, rfl, rfl, by decide⟩
theorem witness_StuckLowLineReportsSuccess : ReadyFor .sendf (acking 162) ∧
    ∀ j, j < sampleCount (acking 162).cfg .sendf → peripheralAt (acking 162) j = .low :=
  ⟨readyFor_bench _ _, fun _ hj => peripheralAt_acking hj⟩
theorem witness_AbsentPeripheral : ReadyFor (.pushf 3) (bench [.rel, .rel, .rel] []) ∧
    (bench [.rel, .rel, .rel] []).cfg.preamble ≠ [] ∧ (bench [.rel, .rel, .rel] []).cfg.exactTiming = true ∧
    (bench [.rel, .rel, .rel] []).drvC = .rel ∧ (bench [.rel, .rel, .rel] []).drvD = .rel ∧
    ∀ j, j < 3 → peripheralAt (bench [.rel, .rel, .rel] []) j = .rel := by
  exact ⟨readyFor_bench _ _, by decide, rfl, rfl, rfl, by decide⟩
theorem witness_FbwrWritesElement : ReadyFor (.fbwr 144 7) (bench [] []) ∧ ReadyFor (.fbwr 145 7) (bench [] []) ∧
    Memory.wf (bench [] []).cfg.frameLen (bench [] []).fb = true ∧ 144 < (bench [] []).cfg.frameLen ∧
    (bench [] []).cfg.frameLen ≤ 145 := ⟨readyFor_bench _ _, readyFor_bench _ _, by decide⟩
theorem witness_PortCommandsAreIdempotent : Idle (bench [] []) ∧ (bench [] []).inputs = [] ∧
    Memory.wf (bench [] []).cfg.frameLen (bench [] []).fb = true ∧
    ∃ t, exec (.fbwr 1 9) (bench [] []) = .next t := ⟨idle_bench _ _, rfl, by decide, _, exec_eq _ _⟩
theorem witness_StepKeepsInvariant : Inv (resetBlock State.reset) ∧ ∃ t, step (resetBlock State.reset) = .next t :=
  ⟨inv_resetBlock _, _, rfl⟩
theorem witness_BufferFrozenWhileBusy : RunningLeavesBuffer (busyBench []) ∧ (busyBench []).flag .busy = true ∧
    ∃ t, step (busyBench []) = .next t := by
  refine ⟨fun r hr => ?_, rfl, _, rfl⟩
  injection hr with hr
  rw [← hr]
  rfl
theorem witness_CommandDurations : ReadyFor (.pushf 2) (acking 324) ∧
    AllAck (acking 324) (sampleCount (acking 324).cfg (.pushf 2)) := ⟨readyFor_bench _ _, allAck_acking 324⟩
theorem witness_StepKeepsHistory : ∃ t, step State.reset = .next t := ⟨_, rfl⟩
/-- For InterruptedCommandRunsOn and PolledCommandRunsOn. `DELAY UNIT` has one step: an input before step 1 lands after
its end, one before step 0 lands within it. -/
theorem witness_InterruptedCommandRunsOn : Idle (acking 162) ∧ (acking 162).inputs = [] ∧
    see (exec .delayUnit (acking 162)) (fun t => decide (t.trace.length ≤ (acking 162).trace.length + 1)) = some true ∧
    see (exec .delayUnit (acking 162)) (fun t => decide ((acking 162).trace.length + 0 < t.trace.length)) = some true :=
  ⟨idle_bench _ _, rfl, by decide +kernel, by decide +kernel⟩

end Sys2Proof.Tests
end

/-! The scope's parameters (spec/00_scope.md). -/

section
namespace Sys2Proof.Machine

@[simp] theorem reset_cfg : State.reset.cfg = Cfg.thisHardware := rfl

/-- R76: the left shift puts the write direction bit 0 below the address. A 7-bit address leaves room for it, so
nothing is shifted out of the byte. -/
@[simp] theorem addrByte_toNat (c : Cfg) : (addrByte c).toNat = 2 * c.addr7.toNat := by
  have hlt : c.addr7.toNat < 2 ^ 7 := c.addr7.isLt
  simp only [addrByte, BitVec.toNat_shiftLeft, BitVec.truncate_eq_setWidth, BitVec.toNat_setWidth,
    Nat.shiftLeft_eq]
  omega

theorem addrByte_thisHardware : addrByte Cfg.thisHardware = 0x78 :=
  BitVec.eq_of_toNat_eq (addrByte_toNat Cfg.thisHardware)

/-- Settles O17: the reset state carries the table of R8, and `addrByte_toNat` doubles its address. -/
theorem hardwareParameters : Obligations.HardwareParameters := by
  unfold Obligations.HardwareParameters
  rw [reset_cfg]
  exact ⟨rfl, rfl, rfl, rfl, rfl, addrByte_thisHardware, rfl, rfl, rfl, addrByte_toNat⟩

end Sys2Proof.Machine
end

/-! The state after reset (spec/10_state.md R33), and what no step undoes (R20, R24, R26). -/

section
namespace Sys2Proof.Machine

/-! ### The state after reset -/

@[simp] theorem reset_drvC : State.reset.drvC = .rel := rfl
@[simp] theorem reset_drvD : State.reset.drvD = .rel := rfl
@[simp] theorem reset_now : State.reset.now = 0 := rfl
@[simp] theorem reset_trace : State.reset.trace = [] := rfl
@[simp] theorem reset_status : State.reset.status = 0x00 := rfl
@[simp] theorem reset_fb : State.reset.fb = [] := rfl
@[simp] theorem reset_seq : State.reset.seq = .idle := rfl
@[simp] theorem reset_flag (f : StatusBit) : State.reset.flag f = false := by
  rw [State.flag, reset_status]
  cases f <;> decide

/-- R25: a line that the master releases is at level 1 unless the peripheral drives it low. -/
theorem level_rel_iff (p : Driver) : level .rel p = true ↔ p ≠ .low := by simp [level]

/-- R50, R51: the empty listing reads as 0 everywhere. -/
@[simp] theorem Memory.read_nil (a : Nat) : Memory.read [] a = 0x00 := rfl

/-- Settles O16: the rows of R33's table; the drivers are released, so `level_rel_iff` gives the level of both lines. -/
theorem resetStateValues : Obligations.ResetStateValues := by
  unfold Obligations.ResetStateValues
  rw [reset_drvC, reset_drvD, reset_fb]
  exact ⟨rfl, rfl, fun p => ⟨level_rel_iff p, level_rel_iff p⟩, reset_now, reset_trace, reset_status,
    Memory.read_nil, reset_seq⟩

/-- An idle block has no line to do. -/
theorem runningLeavesBuffer_of_idle {s : State} (h : s.seq = .idle) : RunningLeavesBuffer s := by
  intro r hr
  rw [h] at hr
  cases hr

/-- A reset input leaves what `State.reset` holds, but for the serializer's registers and the draw counter, which the
invariant does not read. -/
theorem bodyInv_reset : BodyInv State.reset :=
  (bodyInv_resetBlock State.reset).congr rfl rfl rfl rfl rfl rfl rfl

theorem inv_reset : Inv State.reset := .of_body bodyInv_reset (by simp [BusyTellsRunning])

/-- Settles O50: `inv_reset`, and an idle sequencer. -/
theorem resetMeetsInvariant : Obligations.ResetMeetsInvariant :=
  ⟨inv_reset, runningLeavesBuffer_of_idle reset_seq⟩

/-! ### The history -/

/-- From `s` to `t` the parameters are the same, the trace only grew (R24) and the time did not decrease (R26). -/
structure KeepsHistory (s t : State) : Prop where
  cfg : t.cfg = s.cfg
  trace : ∃ es, t.trace = s.trace ++ es
  now : s.now ≤ t.now

/-- An update that touches none of the three. -/
theorem KeepsHistory.of_same {s t : State} (hcfg : t.cfg = s.cfg) (htrace : t.trace = s.trace) (hnow : t.now = s.now) :
    KeepsHistory s t :=
  ⟨hcfg, ⟨[], by rw [htrace, List.append_nil]⟩, hnow.ge⟩

theorem keepsHistory_resume (s : State) : KeepsHistory s (resume s) := by
  obtain ⟨hcfg, htrace, hnow⟩ := resume_history s
  exact ⟨hcfg, htrace, hnow⟩

/-- Taking an input and accepting a command touch none of the three, so the command's run says it all. -/
theorem keepsHistory_accepted (i : Instr) (s : State) (rest : List HostInput) :
    KeepsHistory s (resume (accept i (program i) { s with inputs := rest })) := by
  obtain ⟨hcfg, htrace, hnow⟩ := keepsHistory_resume (accept i (program i) { s with inputs := rest })
  exact ⟨hcfg, htrace, hnow⟩

/-- A step keeps the history, unless it is the reset input that lands. -/
theorem step_keepsHistory_or_resets {s t : State} (h : step s = .next t) :
    KeepsHistory s t ∨
      ∃ k rest, s.inputs = ⟨k, .reset⟩ :: rest ∧ lands s ⟨k, .reset⟩ = true ∧
        t = resetBlock { s with inputs := rest } := by
  rcases step_cases h with ⟨rfl, -⟩ | ⟨⟨k, act⟩, rest, hin, hl, hact⟩
  · exact .inl (keepsHistory_resume s)
  · rcases hact with ⟨rfl, ht⟩ | ⟨-, rfl⟩ | ⟨w, -, hwrite⟩
    · exact .inr ⟨k, rest, hin, hl, ht⟩
    · exact .inl (.of_same rfl rfl rfl)
    · rcases hwrite with ⟨-, rfl⟩ | ⟨-, -, rfl⟩ | ⟨-, i, -, rfl⟩
      · exact .inl (.of_same rfl rfl rfl)
      · exact .inl (.of_same rfl rfl rfl)
      · exact .inl (keepsHistory_accepted i s rest)

/-- Settles O51: `step_keepsHistory_or_resets`; the reset input leaves the configuration too (`resetBlock_cfg`). -/
theorem stepKeepsHistory : Obligations.StepKeepsHistory := by
  unfold Obligations.StepKeepsHistory
  intro s t h
  rcases step_keepsHistory_or_resets h with ⟨hcfg, htrace, hnow⟩ | ⟨k, rest, hin, hl, rfl⟩
  · exact ⟨hcfg, .inl ⟨htrace, hnow⟩⟩
  · exact ⟨resetBlock_cfg _, .inr ⟨k, rest, hin, hl⟩⟩

end Sys2Proof.Machine
end

/-! The frame buffer (spec/20_memory.md), and the invariant of the machine. -/

section
namespace Sys2Proof.Machine

/-! ### The invariant of the machine -/

/-- Settles O49: each thing that a step can do keeps the invariant. Acceptance, like the reset input, writes BUSY and
the sequencer together, so it needs the body of the invariant only. -/
theorem stepKeepsInvariant : Obligations.StepKeepsInvariant := by
  unfold Obligations.StepKeepsInvariant
  intro s t hinv hstep
  exact step_keeps (P := Inv) (hline := fun _ => inv_seqStep)
    (hacc := fun i _ _ h => inv_accept h.body i (program i))
    (hfault := fun kind _ h => inv_raiseFault h kind)
    (hreset := fun u _ => inv_resetBlock u)
    (hread := fun _ => inv_hostReadStatus)
    (hin := fun _ xs h => inv_inputs h xs) hinv hstep

/-! ### Repeated port commands (R62) -/

theorem clearFb_clearFb (s : State) : clearFb (clearFb s) = clearFb s := rfl

/-- Below the frame length this is `Memory.write_write`; above it neither write has an effect (R55). -/
theorem writeFb_writeFb {s : State} (hwf : Memory.wf s.cfg.frameLen s.fb = true) (index : Nat) (v : Byte) :
    writeFb index v (writeFb index v s) = writeFb index v s := by
  by_cases hlt : index < s.cfg.frameLen
  · simp [writeFb, hlt, Memory.write_write hwf hlt v]
  · simp [writeFb, hlt]

theorem effect_effect_of_port {i : Instr} {s : State} (hport : i = .fbclr ∨ ∃ index v, i = .fbwr index v)
    (hwf : Memory.wf s.cfg.frameLen s.fb = true) : effect i (effect i s) = effect i s := by
  rcases hport with rfl | ⟨index, v, rfl⟩
  · exact clearFb_clearFb s
  · exact writeFb_writeFb hwf index v

/-- Settles O48: the first run leaves an idle block with nothing at its inputs, so the second run has its effect too
(`exec_ready`), and the effect repeated is the effect. -/
theorem portCommandsAreIdempotent : Obligations.PortCommandsAreIdempotent := by
  unfold Obligations.PortCommandsAreIdempotent
  intro i s t hport hidle hin hwf hfirst
  rw [exec_ready (readyFor_of_noInputs i hidle hin)] at hfirst
  injection hfirst with ht
  subst ht
  have hin' : (effect i s).inputs = [] := (effect_inputs i s).trans hin
  rw [exec_ready (readyFor_of_noInputs i (idle_effect i hidle) hin'), effect_effect_of_port hport hwf]

/-! ### The frame buffer while BUSY (R64) -/

theorem RunningLeavesBuffer.of_seq {s t : State} (h : RunningLeavesBuffer s) (hseq : t.seq = s.seq) :
    RunningLeavesBuffer t := fun r hr => h r (hseq ▸ hr)

/-- The port's commands, the only ones with a line that writes the buffer, end at once (`accept_leavesBuffer`). -/
theorem step_runningLeavesBuffer {s t : State} (h : RunningLeavesBuffer s) (hstep : step s = .next t) :
    RunningLeavesBuffer t := by
  rcases step_cases hstep with ⟨rfl, -⟩ | ⟨x, rest, -, -, hact⟩
  · exact (runningLeavesBuffer_iff _).2 (resume_leavesBuffer ((runningLeavesBuffer_iff s).1 h)).1
  · rcases hact with ⟨-, rfl⟩ | ⟨-, rfl⟩ | ⟨w, -, hwrite⟩
    · exact runningLeavesBuffer_of_idle (resetBlock_seq _)
    · exact h.of_seq rfl
    · rcases hwrite with ⟨-, rfl⟩ | ⟨-, -, rfl⟩ | ⟨-, i, -, rfl⟩
      · exact h.of_seq rfl
      · exact h.of_seq rfl
      · exact (runningLeavesBuffer_iff _).2 (accept_leavesBuffer i _)

/-- A step of a busy block goes on with the running command, or refuses or reads, or resets. -/
theorem step_busy_fb_or_resets {s t : State} (h : RunningLeavesBuffer s) (hbusy : s.flag .busy = true)
    (hstep : step s = .next t) :
    t.fb = s.fb ∨ ∃ k rest, s.inputs = ⟨k, .reset⟩ :: rest ∧ lands s ⟨k, .reset⟩ = true := by
  rcases step_cases hstep with ⟨rfl, -⟩ | ⟨⟨k, act⟩, rest, hin, hl, hact⟩
  · exact .inl (resume_leavesBuffer ((runningLeavesBuffer_iff s).1 h)).2
  · rcases hact with ⟨rfl, -⟩ | ⟨-, rfl⟩ | ⟨w, -, hwrite⟩
    · exact .inr ⟨k, rest, hin, hl⟩
    · exact .inl rfl
    · rcases hwrite with ⟨-, rfl⟩ | ⟨hidle, -⟩ | ⟨hidle, -⟩
      · exact .inl rfl
      · exact absurd hbusy (by simp [hidle])
      · exact absurd hbusy (by simp [hidle])

/-- Settles O52: `step_runningLeavesBuffer` and `step_busy_fb_or_resets`; an equal listing reads the same everywhere. -/
theorem bufferFrozenWhileBusy : Obligations.BufferFrozenWhileBusy := by
  unfold Obligations.BufferFrozenWhileBusy
  intro s t h hstep
  refine ⟨step_runningLeavesBuffer h hstep, fun hbusy => ?_⟩
  exact (step_busy_fb_or_resets h hbusy hstep).imp_left fun hfb a => by rw [hfb]

end Sys2Proof.Machine
end

/-! The command word (spec/30_encoding.md R70 to R73): decoder, encoder and opcode table agree. -/

section
namespace Sys2Proof

/-! ### Decoder and encoder -/

/-- The fields that R71 gives a well-formed command decode to it, whatever the command. -/
theorem decodeFields_of_wellFormed (i : Instr) : Laws.FieldsDecode.Statement i := by
  cases i with
  | lowc => exact Laws.FieldsDecode.lowc
  | relc => exact Laws.FieldsDecode.relc
  | lowd => exact Laws.FieldsDecode.lowd
  | reld => exact Laws.FieldsDecode.reld
  | readd => exact Laws.FieldsDecode.readd
  | delayUnit => exact Laws.FieldsDecode.delayUnit
  | delayGap => exact Laws.FieldsDecode.delayGap
  | delayPush => exact Laws.FieldsDecode.delayPush
  | start => exact Laws.FieldsDecode.start
  | stop => exact Laws.FieldsDecode.stop
  | wrbyte value => exact Laws.FieldsDecode.wrbyte value
  | wrtxn1 addrByte data => exact Laws.FieldsDecode.wrtxn1 addrByte data
  | wrtxnf addrByte => exact Laws.FieldsDecode.wrtxnf addrByte
  | sendf => exact Laws.FieldsDecode.sendf
  | pushf n => exact Laws.FieldsDecode.pushf n
  | fbclr => exact Laws.FieldsDecode.fbclr
  | fbwr index value => exact Laws.FieldsDecode.fbwr index value

theorem decode_encode {i : Instr} (h : i.wellFormed = true) : decode (encode i) = .ok i := by
  rw [encode, decode_mkWord]
  exact decodeFields_of_wellFormed i h

/-- Settles O1: the decoder reads back the three fields that the encoder joins (`decode_mkWord`), and those of a
well-formed command decode to it. -/
theorem decodeOfEncode : Obligations.DecodeOfEncode := fun _ => decode_encode

/-- A legal word is the word of the command that it decodes to. -/
theorem encode_of_decode_ok {w : CmdWord} {i : Instr} (h : decode w = .ok i) : encode i = w := by
  obtain ⟨hop, ha, hb, -⟩ := decodeFields_ok h
  rw [encode, ← hop, ← ha, ← hb, mkWord_fields]

theorem wellFormed_of_decode_ok {w : CmdWord} {i : Instr} (h : decode w = .ok i) : i.wellFormed = true := by
  obtain ⟨-, -, -, hwf⟩ := decodeFields_ok h
  exact hwf

/-- Settles O2: `decodeFields_ok` says that a legal word has its command's fields, and a word is its fields. -/
theorem encodeOfDecode : Obligations.EncodeOfDecode :=
  fun _ _ h => ⟨wellFormed_of_decode_ok h, encode_of_decode_ok h⟩

/-- Settles O5: each word computes to its command. -/
theorem sampleWordsDecode : Obligations.SampleWordsDecode := by
  unfold Obligations.SampleWordsDecode
  decide

/-! ### The illegal words (R72) -/

/-- R72 in the numbers of the three fields: a reserved opcode, a field fixed to 0 that is not 0, or a selector of 3 or
more. -/
theorem decodeFields_error_iff (op a b : Byte) :
    (∃ e, decodeFields op a b = .error e) ↔
      (op.toNat = 0x00 ∨ 0x10 ≤ op.toNat ∨
        (op.toNat ∈ [0x01, 0x02, 0x03, 0x04, 0x05, 0x07, 0x08, 0x0C, 0x0E] ∧ (a.toNat ≠ 0 ∨ b.toNat ≠ 0)) ∨
        (op.toNat = 0x06 ∧ (3 ≤ a.toNat ∨ b.toNat ≠ 0)) ∨ (op.toNat ∈ [0x09, 0x0D] ∧ a.toNat ≠ 0) ∨
        (op.toNat = 0x0B ∧ b.toNat ≠ 0)) := by
  unfold decodeFields
  split
  case h_6 hop =>
    rw [hop]
    by_cases hb : b = 0#8 <;> simp [hb, decodeDelay_error, ← byte_eq_zero]
  case h_16 =>
    have hreserved : op.toNat = 0 ∨ 16 ≤ op.toNat := by simp only [imp_false] at *; omega
    simp [hreserved, ← or_assoc]
  all_goals
    rename_i hop
    rw [hop]
    simp [withFixed_error, ← byte_eq_zero, imp_iff_not_or]

namespace Machine

/-- While the block is idle, a word written to CMD lands at once. -/
theorem step_write_of_idle {s : State} {k : Nat} {w : CmdWord} {rest : List HostInput}
    (hseq : s.seq = .idle) (hin : s.inputs = ⟨k, .write w⟩ :: rest) :
    step s = writeCmd w { s with inputs := rest } := by
  simp [step, lands, deliver, hseq, hin]

/-- R203: an illegal word written while the block is not BUSY raises the fault. -/
theorem writeCmd_of_illegal {w : CmdWord} {e : DecodeError} {s : State} (hbusy : s.flag .busy = false)
    (hw : decode w = .error e) : writeCmd w s = .next (raiseFault .illegal s) := by
  simp [writeCmd, hbusy, hw]

end Machine

/-- Settles O3: `decodeFields_error_iff` with the fields as numbers of the word, and a CMD write that lands at once and
is not decoded to a command. -/
theorem illegalWordsOnlySetFIllegal : Obligations.IllegalWordsOnlySetFIllegal := by
  unfold Obligations.IllegalWordsOnlySetFIllegal
  refine ⟨rfl, rfl, rfl, ?_, ?_⟩
  · rintro w _ _ _ rfl rfl rfl
    rw [← toNat_opField, ← toNat_aField, ← toNat_bField]
    exact decodeFields_error_iff _ _ _
  · intro s k w rest e ⟨hseq, hbusy⟩ hin hw
    rw [Machine.step_write_of_idle hseq hin]
    exact Machine.writeCmd_of_illegal hbusy hw

/-! ### The opcode table (R71) -/

/-- The bits of the `a` field that the row of a command fixes: none where the field is an operand. -/
def Instr.fixedA : Instr → Byte
  | .wrtxn1 _ _ => 0x00
  | .wrtxnf _ => 0x00
  | .fbwr _ _ => 0x00
  | _ => 0xFF

/-- The bits of the `b` field that the row of a command fixes. -/
def Instr.fixedB : Instr → Byte
  | .wrbyte _ => 0x00
  | .wrtxn1 _ _ => 0x00
  | .pushf _ => 0x00
  | .fbwr _ _ => 0x00
  | _ => 0xFF

/-- The row of R71 that stands for a command: it fixes the opcode, and the fields that hold no operand. -/
def Instr.row (i : Instr) : OpcodeRow where
  mask := mkWord 0xFF i.fixedA i.fixedB
  pattern := mkWord i.opcode (i.operandA &&& i.fixedA) (i.operandB &&& i.fixedB)

theorem row_mem_opcodeTable (i : Instr) : i.row ∈ opcodeTable := by
  cases i <;> simp only [Instr.row, Instr.fixedA, Instr.fixedB, Instr.opcode, Instr.operandA, Instr.operandB,
    BitVec.ofNat_eq_ofNat, BitVec.and_zero] <;> decide

theorem row_covers_encode (i : Instr) : i.row.covers (encode i) = true := by
  simp [covers_iff, encode, Instr.row]

/-- The fields that a row fixes leave the decoder no error. -/
theorem decode_of_covers {r : OpcodeRow} (hr : r ∈ opcodeTable) {w : CmdWord} (hw : r.covers w = true) :
    ∃ i, decode w = .ok i := by
  rw [covers_iff] at hw
  rw [decode]
  generalize opField w = op, aField w = a, bField w = b at hw ⊢
  simp only [opcodeTable, List.cons_append, List.nil_append, List.mem_cons, List.not_mem_nil, or_false] at hr
  rcases hr with rfl | rfl | rfl | rfl | rfl | rfl | rfl | rfl | rfl | rfl | rfl | rfl | rfl | rfl | rfl | rfl | rfl
  -- A row's mask makes an equation of each field that it fixes, and those pick the arm of the decoder.
  all_goals
    simp [opField, aField, bField] at hw
    simp [hw, decodeFields, withFixed, decodeDelay]

/-- Of any two rows of the table, some bit that both fix has different values. -/
theorem opcodeTable_apart : ∀ r ∈ opcodeTable, ∀ t ∈ opcodeTable, r ≠ t → r.apart t = true := by decide

/-- Settles O4: a legal word is the word of its command, whose row covers it; a covered word is legal; and rows that
are apart cover no word together. -/
theorem opcodeTableIsExact : Obligations.OpcodeTableIsExact := by
  unfold Obligations.OpcodeTableIsExact
  intro w
  refine ⟨⟨?_, ?_⟩, ?_⟩
  · rintro ⟨i, hi⟩
    rw [← encode_of_decode_ok hi]
    exact ⟨i.row, row_mem_opcodeTable i, row_covers_encode i⟩
  · rintro ⟨r, hr, hcov⟩
    exact decode_of_covers hr hcov
  · intro r hr t ht hrw htw
    by_contra hne
    exact not_covers_of_apart (opcodeTable_apart r hr t ht hne) hrw htw

end Sys2Proof
end

/-! The assembler (spec/30_encoding.md R74, R75). -/

section
namespace Sys2Proof.Machine

/-- Settles O6: each clause is a row of `assemble`; `SETD` has rows for the operands 0 and 1 only. -/
theorem pseudoInstructionsExpand : Obligations.PseudoInstructionsExpand := by
  unfold Obligations.PseudoInstructionsExpand
  refine fun c => ⟨rfl, rfl, fun _ => rfl, rfl, rfl, ?_, rfl⟩
  intro x h0 h1
  simp [assemble, h0, h1]

/-! ### Operands -/

/-- What an operand of a mnemonic spells: a name of `DELAY`'s selectors, or a number of any size (R74). -/
def spelled (m : Mnemonic) (x : List Char) : Option Nat :=
  if m = .delay then (lookUp x selectorTable).or (literalValue x) else literalValue x

/-- The names of `DELAY`'s selectors spell no number. -/
theorem lookUp_selector_of_literal {x : List Char} {v : Nat} (h : literalValue x = some v) :
    lookUp x selectorTable = none := by
  simp only [selectorTable, lookUp]
  split_ifs with hunit hgap hpush
  · subst hunit; cases h
  · subst hgap; cases h
  · subst hpush; cases h
  · rfl

/-- An operand that assembles has the value that it spells. -/
theorem spelled_of_operandValue {m : Mnemonic} {x : List Char} {v : Nat}
    (h : operandValue (m == .delay) x = some v) : spelled m x = some v := by
  unfold operandValue at h
  unfold spelled
  by_cases hm : m = .delay
  · cases hs : lookUp x selectorTable <;> cases hl : literalValue x <;> simp_all
  · cases hl : literalValue x <;> simp_all

/-- R74: a number of 256 or more is no operand, whether names are read or not. -/
theorem operandValue_of_large {x : List Char} {v : Nat} (h : literalValue x = some v) (hv : 256 ≤ v) (named : Bool) :
    operandValue named x = none := by
  have hlt : ¬ v < 256 := Nat.not_lt.2 hv
  cases named <;> simp [operandValue, lookUp_selector_of_literal h, h, hlt]

theorem operandValues_cons {named : Bool} {x : List Char} {l : List (List Char)} {vs : List Nat}
    (h : operandValues named (x :: l) = some vs) :
    ∃ v us, vs = v :: us ∧ operandValue named x = some v ∧ operandValues named l = some us := by
  rw [operandValues] at h
  split at h
  · rename_i v us hx hl
    injection h with h
    exact ⟨v, us, h.symm, hx, hl⟩
  · cases h

/-- One operand in error is an error of the line. -/
theorem operandValue_ne_none_of_mem {named : Bool} {l : List (List Char)} {vs : List Nat}
    (h : operandValues named l = some vs) : ∀ x ∈ l, operandValue named x ≠ none := by
  induction l generalizing vs with
  | nil => simp
  | cons x l ih =>
    obtain ⟨v, us, -, hx, hl⟩ := operandValues_cons h
    simpa [hx] using ih hl

/-- Operands that all assemble have the values that they spell. -/
theorem map_spelled_of_operandValues {m : Mnemonic} {l : List (List Char)} {vs : List Nat}
    (h : operandValues (m == .delay) l = some vs) : l.map (spelled m) = vs.map some := by
  induction l generalizing vs with
  | nil => cases h; rfl
  | cons x l ih =>
    obtain ⟨v, us, rfl, hx, hl⟩ := operandValues_cons h
    rw [List.map_cons, List.map_cons, spelled_of_operandValue hx, ih hl]

/-! ### Lines -/

/-- WHAT A LINE THAT ASSEMBLES IS: a mnemonic, and operands that it takes. -/
theorem assembleLine_some {c : Cfg} {line : List Char} {i : Instr} (h : assembleLine c line = some i) :
    ∃ m vs, lookUp (line.takeWhile (· != ' ')) mnemonicTable = some m ∧
      operandValues (m == .delay) (operandTexts (line.dropWhile (· != ' '))) = some vs ∧
      assemble c m vs = some i := by
  unfold assembleLine at h
  split at h
  · cases h
  · rename_i m hm
    split at h
    · cases h
    · rename_i vs hvs
      exact ⟨m, vs, hm, hvs, h⟩

/-- The numbers that a command holds unbounded are operands, or the configured count of `PUSHF`. -/
theorem wellFormed_of_assemble {c : Cfg} {m : Mnemonic} {vs : List Nat} {i : Instr} (hc : c.repeatDefault < 256)
    (hvs : ∀ v ∈ vs, v < 256) (h : assemble c m vs = some i) : i.wellFormed = true := by
  unfold assemble at h
  split at h
  all_goals cases h
  all_goals simp_all [Instr.wellFormed, operandFits]

/-- Settles O7: a line that assembles has operands that all do (`assembleLine_some`), which no number of 256 or more
does; they are what the line spells and below 256, so they fit the fields of the command. -/
theorem assembledCommandsAreWellFormed : Obligations.AssembledCommandsAreWellFormed := by
  unfold Obligations.AssembledCommandsAreWellFormed
  refine ⟨?_, ?_, ?_⟩
  · intro c line x v hx hlit hv
    by_contra hne
    obtain ⟨i, hi⟩ := Option.ne_none_iff_exists'.1 hne
    obtain ⟨m, vs, -, hvs, -⟩ := assembleLine_some hi
    exact operandValue_ne_none_of_mem hvs x hx (operandValue_of_large hlit hv _)
  · intro c line i hi
    obtain ⟨m, vs, hm, hvs, hasm⟩ := assembleLine_some hi
    exact ⟨m, vs, hm, map_spelled_of_operandValues hvs, operandValues_lt hvs, hasm⟩
  · intro c line i hc hi
    obtain ⟨m, vs, -, hvs, hasm⟩ := assembleLine_some hi
    exact wellFormed_of_assemble hc (operandValues_lt hvs) hasm

end Sys2Proof.Machine
end

/-! What the transfers put on the wire (spec/30_encoding.md R77 to R80). -/

section
namespace Sys2Proof.Machine

/-! ### What a command's effect shows -/

@[simp] theorem storeOk_trace (r : Bool × State) : (storeOk r).trace = r.2.trace := rfl

/-- `STATUS.OK` is no event, so a function's result stored shows what the function shows. -/
theorem Shows.storeOk {w w' : WireState} {xs : List Symbol} {zs : List (Nat × Symbol)} {s : State} {r : Bool × State}
    (h : Shows w xs zs w' s r.2) : Shows w xs zs w' s (storeOk r) := h

/-- A command that completes undisturbed shows on the wire what its effect shows. -/
theorem exec_symbols {i : Instr} {s : State} (h : ReadyFor i s) {w w' : WireState} {xs : List Symbol}
    {zs : List (Nat × Symbol)} (hw : Shows w xs zs w' s (effect i s)) :
    ∃ t es, exec i s = .next t ∧ t.trace = s.trace ++ es ∧ symbols w es = xs := by
  obtain ⟨es, htrace, hsym⟩ := hw.symbols
  exact ⟨effect i s, es, exec_ready h, htrace, hsym⟩

/-- Settles O28: the eight data slots and the acknowledge slot of `shows_writeByte`. -/
theorem byteOnTheWire : Obligations.ByteOnTheWire := by
  unfold Obligations.ByteOnTheWire
  intro v s w hready hc
  exact exec_symbols hready (shows_writeByte w hc v s)

/-- Settles O30: `shows_writeTransaction`, from the bus with both lines released. -/
theorem transactionOnTheWire : Obligations.TransactionOnTheWire := by
  unfold Obligations.TransactionOnTheWire
  intro i s a p hi hready _ _
  obtain ⟨_, hshows, -⟩ := shows_writeTransaction a p true s
  rcases hi with ⟨d, rfl, rfl⟩ | ⟨rfl, rfl⟩
  · exact exec_symbols hready hshows.storeOk
  · exact exec_symbols hready hshows.storeOk

/-- R80: `SENDF` shows its transactions, whatever the acknowledges. -/
theorem shows_effect_sendf (s : State) : ∃ zs,
    Shows idleBus ((frameTransactions s 0 s.cfg.preamble).flatMap transactionSymbols) zs idleBus s
      (effect .sendf s) := by
  obtain ⟨zs, hshows, -⟩ := showsTransactions_sendFrame s true
  exact ⟨zs, hshows.storeOk⟩

/-- Settles O36: `shows_effect_sendf`, for the command that completes. -/
theorem frameOnTheWire : Obligations.FrameOnTheWire := by
  unfold Obligations.FrameOnTheWire
  intro s hready _ _
  obtain ⟨_, hshows⟩ := shows_effect_sendf s
  exact exec_symbols hready hshows

/-! ### Every byte acknowledged -/

/-- R160: `OK` is 1 if every transaction succeeded. -/
theorem effect_sendf_flag_ok (s : State) :
    (effect .sendf s).flag .ok = (frameTransactions s 0 s.cfg.preamble).all allTaken := by
  obtain ⟨hok, -, -⟩ := sendFrame_results s
  simp [effect, storeOk, hok]

theorem frameTransactions_of_allAck {s : State} (h : AllAck s (frameSamples s.cfg s.cfg.preamble.length)) :
    frameTransactions s 0 s.cfg.preamble =
      s.cfg.preamble.map (fun b => [(addrByte s.cfg, false), (b, false)]) ++
        [(addrByte s.cfg, false) :: (List.range s.cfg.frameLen).map (fun j => (Memory.read s.fb j, false))] := by
  rw [frameTransactions_allAck _ (by rwa [Nat.zero_add])]
  simp [frameBytes]

theorem allTaken_of_allAck {s : State} (h : AllAck s (frameSamples s.cfg s.cfg.preamble.length)) :
    (frameTransactions s 0 s.cfg.preamble).all allTaken = true := by
  simp [frameTransactions_of_allAck h, allTaken]

/-- Settles O37: the frame sequence of `shows_effect_sendf`, whose transactions are whole and all succeed. -/
theorem acknowledgedFrameOnTheWire : Obligations.AcknowledgedFrameOnTheWire := by
  unfold Obligations.AcknowledgedFrameOnTheWire
  intro s hready _ _ hack
  obtain ⟨_, hshows⟩ := shows_effect_sendf s
  obtain ⟨es, htrace, hsym⟩ := hshows.symbols
  refine ⟨effect .sendf s, es, exec_ready hready, htrace, ?_, ?_⟩
  · rw [effect_sendf_flag_ok, allTaken_of_allAck hack]
  · rw [hsym, frameTransactions_of_allAck hack]
    simp [List.flatMap_append, List.flatMap_map]

end Sys2Proof.Machine
end

/-! The bus primitives (spec/40_bus_primitives.md), and the step that begins a command (R112). -/

section
namespace Sys2Proof.Machine

/-! ### The next command (R112) -/

/-- R112: a legal word written while the block is not BUSY runs its command. -/
theorem writeCmd_of_legal {w : CmdWord} {i : Instr} {s : State} (hbusy : s.flag .busy = false)
    (hw : decode w = .ok i) : writeCmd w s = exec i s := by
  simp [writeCmd, hbusy, hw]

/-- Settles O8: an idle block takes the word at once (`step_write_of_idle`), and it is legal. -/
theorem stepRunsDecodedCommand : Obligations.StepRunsDecodedCommand := by
  unfold Obligations.StepRunsDecodedCommand
  intro s k w rest i ⟨hseq, hbusy⟩ hin hw
  rw [step_write_of_idle hseq hin]
  exact writeCmd_of_legal hbusy hw

theorem idle_complete (s : State) : Idle (complete s) := ⟨complete_seq s, by simp⟩

theorem decode_of_decodeTableWord {nbits w : Nat} {i : Instr} (h : decodeTableWord nbits w = some i) :
    decode (BitVec.ofNat 24 (w % 2 ^ nbits)) = .ok i := by
  unfold decodeTableWord at h
  split at h
  · rename_i j hj
    injection h with hji
    rw [hj, hji]
  · cases h

/-- Settles O9: `withFetchWord` is the case of `stepRunsDecodedCommand` with the word at the head of the inputs of the
completed block. -/
theorem presentedWordRuns : Obligations.PresentedWordRuns := by
  unfold Obligations.PresentedWordRuns
  intro s nbits w i h
  have hidle : Idle (s.withFetchWord nbits w) := idle_complete s
  exact stepRunsDecodedCommand _ 0 _ s.inputs i hidle rfl (decode_of_decodeTableWord h)

/-- R204: a command issued while BUSY sets F_BUSY and does nothing else. -/
theorem exec_of_busy (i : Instr) {s : State} (hbusy : s.flag .busy = true) :
    exec i s = .next (s.setFlag .fBusy true) := by
  rw [exec_eq, if_pos hbusy]
  rfl

/-! ### The primitives as one update (R100, R105, R107) -/

/-- R108: zero or more microseconds, and none under `EXACT_TIMING`. -/
theorem latency_eq (s : State) : ∃ e, (s.cfg.exactTiming = true → e = 0) ∧
    latency s = { s with now := s.now + e, draws := s.draws + 1 } :=
  ⟨if s.cfg.exactTiming then 0 else Config.lineLatency s.draws, fun hexact => if_pos hexact, rfl⟩

/-- The state at the time `t`, with the events `es` appended and `n` draws taken. -/
def elapse (t : Nat) (es : List Event) (n : Nat) (s : State) : State :=
  { s with now := t, trace := s.trace ++ es, draws := s.draws + n }

section
variable (t : Nat) (es : List Event) (n : Nat) (s : State)

@[simp] theorem elapse_cfg : (elapse t es n s).cfg = s.cfg := rfl
@[simp] theorem elapse_now : (elapse t es n s).now = t := rfl

@[simp] theorem elapse_elapse (t' : Nat) (es' : List Event) (n' : Nat) :
    elapse t' es' n' (elapse t es n s) = elapse t' (es ++ es') (n + n') s := by
  simp [elapse, Nat.add_assoc]

/-- A driver is none of the time, the trace and the draws. -/
@[simp] theorem setDriver_elapse (l : Line) (v : Driver) :
    setDriver l v (elapse t es n s) = elapse t es n (setDriver l v s) := by cases l <;> rfl

end

theorem drive_eq (l : Line) (v : Driver) (s : State) : ∃ e, (s.cfg.exactTiming = true → e = 0) ∧
    drive l v s = elapse (s.now + e) [.drive (s.now + e) l v] 1 (setDriver l v s) := by
  obtain ⟨e, hexact, hlat⟩ := latency_eq s
  refine ⟨e, hexact, ?_⟩
  rw [drive, hlat]
  cases l <;> rfl

theorem sample_eq (s : State) : ∃ e, (s.cfg.exactTiming = true → e = 0) ∧
    sample s =
      takeAnswer (elapse (s.now + e) [.sample (s.now + e) (sampledAt s 0)] 1 (setDriver .data .rel s)) := by
  obtain ⟨e, hexact, hlat⟩ := latency_eq s
  refine ⟨e, hexact, ?_⟩
  rw [sample, hlat]
  rfl

theorem waitFor_eq (d : DelaySel) (s : State) : ∃ u, s.now + delayLength s.cfg d ≤ u ∧
    (s.cfg.exactTiming = true → u = s.now + delayLength s.cfg d) ∧
    waitFor d s = elapse u [.wait s.now u (delayLength s.cfg d)] 1 s :=
  ⟨waitEnd d s, waitEnd_ge d s, waitEnd_exact d s, rfl⟩

/-- R25, R105: the level of the released line is 0 exactly when the peripheral drives it low. -/
theorem sampledAt_eq_false_iff (s : State) (i : Nat) : sampledAt s i = false ↔ peripheralAt s i = .low := by
  rw [← Bool.not_eq_true, sampledAt, level_rel_iff, not_not]

/-! ### The commands of one step -/

/-- A command that is one `drive` and completes. -/
theorem exec_of_effect_drive {i : Instr} {l : Line} {v : Driver} {s : State} (heff : effect i s = drive l v s)
    (hready : ReadyFor i s) : ∃ e, (s.cfg.exactTiming = true → e = 0) ∧
      exec i s = .next (elapse (s.now + e) [.drive (s.now + e) l v] 1 (setDriver l v s)) := by
  obtain ⟨e, hexact, hdrive⟩ := drive_eq l v s
  exact ⟨e, hexact, by rw [exec_ready hready, heff, hdrive]⟩

/-- A command that is one `wait` and completes. -/
theorem exec_of_effect_waitFor {i : Instr} {d : DelaySel} {s : State} (heff : effect i s = waitFor d s)
    (hready : ReadyFor i s) : ∃ u, s.now + delayLength s.cfg d ≤ u ∧
      (s.cfg.exactTiming = true → u = s.now + delayLength s.cfg d) ∧
      exec i s = .next (elapse u [.wait s.now u (delayLength s.cfg d)] 1 s) := by
  obtain ⟨u, hle, hexact, hwait⟩ := waitFor_eq d s
  exact ⟨u, hle, hexact, by rw [exec_ready hready, heff, hwait]⟩

/-- Settles O18: each of the two commands is one `drive` of CLOCK. -/
theorem clockCommandsDriveClock : Obligations.ClockCommandsDriveClock := by
  unfold Obligations.ClockCommandsDriveClock
  intro i v w hrow
  simp only [List.mem_cons, List.not_mem_nil, or_false, Prod.mk.injEq] at hrow
  obtain ⟨rfl, rfl, rfl⟩ | ⟨rfl, rfl, rfl⟩ := hrow
  · exact ⟨rfl, fun _ => exec_of_effect_drive (l := .clock) (v := .low) rfl, fun _ => exec_of_busy .lowc⟩
  · exact ⟨rfl, fun _ => exec_of_effect_drive (l := .clock) (v := .rel) rfl, fun _ => exec_of_busy .relc⟩

/-- Settles O19: each of the two commands is one `drive` of DATA, and `assemble` has a row of `SETD` for it. -/
theorem dataCommandsDriveData : Obligations.DataCommandsDriveData := by
  unfold Obligations.DataCommandsDriveData
  intro i v w x hrow
  simp only [List.mem_cons, List.not_mem_nil, or_false, Prod.mk.injEq] at hrow
  obtain ⟨rfl, rfl, rfl, rfl⟩ | ⟨rfl, rfl, rfl, rfl⟩ := hrow
  · exact ⟨rfl, fun _ => rfl, fun _ => exec_of_effect_drive (l := .data) (v := .low) rfl, fun _ => exec_of_busy .lowd⟩
  · exact ⟨rfl, fun _ => rfl, fun _ => exec_of_effect_drive (l := .data) (v := .rel) rfl, fun _ => exec_of_busy .reld⟩

/-- Settles O20: the bit is the sample's (`sampledAt_eq_false_iff`), and `sample_eq` gives the rest of the state. -/
theorem readdSamplesData : Obligations.ReaddSamplesData := by
  unfold Obligations.ReaddSamplesData
  refine ⟨rfl, fun s hready => ?_, fun _ => exec_of_busy .readd⟩
  obtain ⟨e, hexact, hsample⟩ := sample_eq s
  refine ⟨sampledAt s 0, e, sampledAt_eq_false_iff s 0, hexact, ?_⟩
  rw [exec_ready hready, effect, hsample]
  rfl

/-- Settles O21: each of the three commands is one `wait`. -/
theorem delaysAdvanceTime : Obligations.DelaysAdvanceTime := by
  unfold Obligations.DelaysAdvanceTime
  intro i d w hrow
  simp only [List.mem_cons, List.not_mem_nil, or_false, Prod.mk.injEq] at hrow
  obtain ⟨rfl, rfl, rfl⟩ | ⟨rfl, rfl, rfl⟩ | ⟨rfl, rfl, rfl⟩ := hrow
  · exact ⟨rfl, fun _ => exec_of_effect_waitFor rfl, fun _ => exec_of_busy .delayUnit⟩
  · exact ⟨rfl, fun _ => exec_of_effect_waitFor rfl, fun _ => exec_of_busy .delayGap⟩
  · exact ⟨rfl, fun _ => exec_of_effect_waitFor rfl, fun _ => exec_of_busy .delayPush⟩

/-! ### START and STOP -/

/-- `driveWait_eq` as an update that the next one composes with. -/
theorem driveWait_elapse (l : Line) (v : Driver) (s : State) : ∃ a b, s.now ≤ a ∧ a + s.cfg.tUnit ≤ b ∧
    (s.cfg.exactTiming = true → a = s.now ∧ b = s.now + s.cfg.tUnit) ∧
    waitFor .unit (drive l v s) = elapse b [.drive a l v, .wait a b s.cfg.tUnit] 2 (setDriver l v s) := by
  obtain ⟨a, b, ha, hb, hexact, heq⟩ := driveWait_eq l v s
  exact ⟨a, b, ha, hb, hexact, by rw [heq]; cases l <;> rfl⟩

/-- Three driver changes with a unit delay after each, the shape of `STOP` and of `START` after its first line. The
changes begin at `a`, `c` and `e`. -/
theorem driveWaits_eq (l₁ l₂ l₃ : Line) (v₁ v₂ v₃ : Driver) (s : State) : ∃ a b c d e f,
    (s.now ≤ a ∧ a + s.cfg.tUnit ≤ b ∧ b ≤ c ∧ c + s.cfg.tUnit ≤ d ∧ d ≤ e ∧ e + s.cfg.tUnit ≤ f) ∧
    (s.cfg.exactTiming = true → a = s.now ∧ c = s.now + s.cfg.tUnit ∧ e = s.now + 2 * s.cfg.tUnit ∧
      f = s.now + 3 * s.cfg.tUnit) ∧
    waitFor .unit (drive l₃ v₃ (waitFor .unit (drive l₂ v₂ (waitFor .unit (drive l₁ v₁ s))))) =
      elapse f [.drive a l₁ v₁, .wait a b s.cfg.tUnit, .drive c l₂ v₂, .wait c d s.cfg.tUnit,
        .drive e l₃ v₃, .wait e f s.cfg.tUnit] 6 (setDriver l₃ v₃ (setDriver l₂ v₂ (setDriver l₁ v₁ s))) := by
  obtain ⟨a, b, ha, hb, hab, h₁⟩ := driveWait_elapse l₁ v₁ s
  rw [h₁]
  obtain ⟨c, d, hc, hd, hcd, h₂⟩ := driveWait_elapse l₂ v₂ (elapse b _ 2 (setDriver l₁ v₁ s))
  rw [h₂]
  obtain ⟨e, f, he, hf, hef, h₃⟩ := driveWait_elapse l₃ v₃
    (elapse d _ 2 (setDriver l₂ v₂ (elapse b _ 2 (setDriver l₁ v₁ s))))
  rw [h₃]
  simp only [elapse_cfg, elapse_now, setDriver_cfg] at hc hd hcd he hf hef ⊢
  refine ⟨a, b, c, d, e, f, ⟨ha, hb, hc, hd, he, hf⟩, ?_, ?_⟩
  · intro hexact
    have := hab hexact
    have := hcd hexact
    have := hef hexact
    omega
  · simp

theorem startCond_eq (s : State) : ∃ a b c d e f g,
    (s.now ≤ a ∧ a ≤ b ∧ b + s.cfg.tUnit ≤ c ∧ c ≤ d ∧ d + s.cfg.tUnit ≤ e ∧ e ≤ f ∧ f + s.cfg.tUnit ≤ g) ∧
    (s.cfg.exactTiming = true → a = s.now ∧ b = s.now ∧ d = s.now + s.cfg.tUnit ∧
      f = s.now + 2 * s.cfg.tUnit ∧ g = s.now + 3 * s.cfg.tUnit) ∧
    startCond s = { s with
      drvC := .low, drvD := .low, now := g, draws := s.draws + 7
      trace := s.trace ++ [.drive a .data .rel, .drive b .clock .rel, .wait b c s.cfg.tUnit,
        .drive d .data .low, .wait d e s.cfg.tUnit, .drive f .clock .low, .wait f g s.cfg.tUnit] } := by
  rw [startCond]
  obtain ⟨x, hx, hdrive⟩ := drive_eq .data .rel s
  rw [hdrive]
  obtain ⟨b, c, d, e, f, g, ⟨hb, hrest⟩, hexact, hwaits⟩ :=
    driveWaits_eq .clock .data .clock .rel .low .low
      (elapse (s.now + x) [.drive (s.now + x) .data .rel] 1 (setDriver .data .rel s))
  refine ⟨s.now + x, b, c, d, e, f, g, ⟨Nat.le_add_right _ _, hb, hrest⟩, ?_, ?_⟩
  · intro he
    obtain rfl := hx he
    exact ⟨rfl, hexact he⟩
  · refine hwaits.trans ?_
    simp only [setDriver_elapse, elapse_elapse]
    rfl

/-- Settles O22: `startCond_eq` for the command that completes. -/
theorem startMakesStartCondition : Obligations.StartMakesStartCondition := by
  unfold Obligations.StartMakesStartCondition
  refine ⟨rfl, fun s hready => ?_, fun _ => exec_of_busy .start⟩
  obtain ⟨a, b, c, d, e, f, g, hle, hexact, hstart⟩ := startCond_eq s
  exact ⟨a, b, c, d, e, f, g, hle, hexact, by rw [exec_ready hready, effect, hstart]⟩

/-- Settles O23: `STOP` is three driver changes with a unit delay after each (`driveWaits_eq`). -/
theorem stopMakesStopCondition : Obligations.StopMakesStopCondition := by
  unfold Obligations.StopMakesStopCondition
  refine ⟨rfl, fun s hready => ?_, fun _ => exec_of_busy .stop⟩
  obtain ⟨a, b, c, d, e, f, hle, hexact, hstop⟩ := driveWaits_eq .data .clock .data .low .rel .rel s
  refine ⟨a, b, c, d, e, f, hle, hexact, ?_⟩
  rw [exec_ready hready, effect, stopCond]
  exact congrArg _ hstop

/-- On an idle block with nothing at its inputs a command has its effect, and leaves the block so again. -/
theorem effect_of_exec {i : Instr} {s t : State} (hidle : Idle s) (hin : s.inputs = []) (h : exec i s = .next t) :
    t = effect i s ∧ Idle t ∧ t.inputs = [] := by
  rw [exec_ready (readyFor_of_noInputs i hidle hin)] at h
  injection h with ht
  subst ht
  exact ⟨rfl, idle_effect i hidle, (effect_inputs i s).trans hin⟩

/-- Settles O25: each of the seven commands has its effect (`effect_of_exec`), and those are the lines of
`startCond`. The free values are drawn in the same order, so EXACT_TIMING is not needed. -/
theorem startFromPrimitives : Obligations.StartFromPrimitives := by
  unfold Obligations.StartFromPrimitives
  intro s0 s1 s2 s3 s4 s5 s6 s7 hidle hin _ h1 h2 h3 h4 h5 h6 h7
  obtain ⟨e1, hidle1, hin1⟩ := effect_of_exec hidle hin h1
  obtain ⟨e2, hidle2, hin2⟩ := effect_of_exec hidle1 hin1 h2
  obtain ⟨e3, hidle3, hin3⟩ := effect_of_exec hidle2 hin2 h3
  obtain ⟨e4, hidle4, hin4⟩ := effect_of_exec hidle3 hin3 h4
  obtain ⟨e5, hidle5, hin5⟩ := effect_of_exec hidle4 hin4 h5
  obtain ⟨e6, hidle6, hin6⟩ := effect_of_exec hidle5 hin5 h6
  obtain ⟨e7, -, -⟩ := effect_of_exec hidle6 hin6 h7
  rw [exec_ready (readyFor_of_noInputs .start hidle hin), e7, e6, e5, e4, e3, e2, e1]
  simp only [effect, startCond]

/-! ### Frames -/

/-- The frame of a command that is one line without calls: it writes what the line writes, and BUSY. -/
theorem exec_onlyChanges_of_line {i : Instr} {u : Task} {ps : List Part} {s t : State} (hprog : program i = [u])
    (hline : ∀ ret s, expand u ret s = []) (hw : writes u ⊆ ps) (hbusy : .bit .busy ∈ ps)
    (hidle : s.flag .busy = false) (h : exec i s = .next t) : OnlyChanges ps s t :=
  exec_onlyChanges (closed_eq hline) (fun _ hu => hu ▸ hw) hbusy (by simp [hprog]) hidle h

/-- The lines of `START` and `STOP` drive and wait only. -/
theorem writes_of_isCondition {t : Task} (ht : IsCondition t) :
    writes t ⊆ [.clockDriver, .dataDriver, .time, .history, .bit .busy] := by
  cases t with
  | drive l v => cases l <;> simp [writes, driverPart]
  | wait d => simp [writes]
  | start => simp [writes]
  | stop => simp [writes]
  | _ => exact ht.elim

/-- Settles O24: what a command's lines write. `START` and `STOP` have several lines, every other command has one. -/
theorem primitiveFrame : Obligations.PrimitiveFrame := by
  unfold Obligations.PrimitiveFrame
  intro i s t hidle h
  refine ⟨?_, ?_, ?_, ?_, ?_⟩
  · intro hi
    simp only [List.mem_cons, List.not_mem_nil, or_false] at hi
    rcases hi with rfl | rfl <;>
      exact exec_onlyChanges_of_line rfl (fun _ _ => rfl) (by decide) (by decide) hidle h
  · intro hi
    simp only [List.mem_cons, List.not_mem_nil, or_false] at hi
    rcases hi with rfl | rfl <;>
      exact exec_onlyChanges_of_line rfl (fun _ _ => rfl) (by decide) (by decide) hidle h
  · rintro rfl
    exact exec_onlyChanges_of_line rfl (fun _ _ => rfl) (by decide) (by decide) hidle h
  · intro hi
    simp only [List.mem_cons, List.not_mem_nil, or_false] at hi
    rcases hi with rfl | rfl | rfl <;>
      exact exec_onlyChanges_of_line rfl (fun _ _ => rfl) (by decide) (by decide) hidle h
  · intro hi
    have hprog : ∀ u ∈ program i, IsCondition u := by
      simp only [List.mem_cons, List.not_mem_nil, or_false] at hi
      rcases hi with rfl | rfl <;> simp [program, IsCondition]
    exact exec_onlyChanges closed_isCondition (fun _ => writes_of_isCondition) (by decide) hprog hidle h

end Sys2Proof.Machine
end

/-! The byte transfer layer (spec/41_byte_transfer.md): one byte, transactions, and what they leave unchanged. -/

section
namespace Sys2Proof.Machine

/-! ### One byte (R130 to R133) -/

theorem AfterByte.flag {ack : Bool} {s t : State} (h : AfterByte ack s t) (f : StatusBit) :
    t.flag f = if f = .ack then ack else s.flag f := by
  rw [State.flag, h.status, statusGet_put]
  rfl

theorem toNat_encode_wrbyte (v : Byte) : (encode (.wrbyte v)).toNat = 0x090000 + v.toNat := by
  simp [toNat_encode, Instr.opcode, Instr.operandA, Instr.operandB]

/-- R131: a byte is acknowledged exactly when the peripheral drives DATA low at its sample. -/
theorem not_sampledAt_iff (s : State) (i : Nat) : (!sampledAt s i) = true ↔ peripheralAt s i = .low := by
  rw [Bool.not_eq_true', sampledAt_eq_false_iff]

/-- Settles O26: what a byte leaves (`afterByte_writeByte`) and how long it takes (`span_writeByte`). -/
theorem wrbyteSendsByte : Obligations.WrbyteSendsByte := by
  unfold Obligations.WrbyteSendsByte
  refine ⟨toNat_encode_wrbyte, fun v s hready => ?_, fun v _ => exec_of_busy (.wrbyte v)⟩
  have hafter := afterByte_writeByte v s
  have hspan := span_writeByte v s
  have hack : (writeByte v s).2.flag .ack = true ↔ peripheralAt s 0 = .low := by
    rw [hafter.flag, if_pos rfl, not_sampledAt_iff]
  obtain ⟨hseq, hbusy⟩ := idle_effect (.wrbyte v) hready.1
  exact ⟨_, exec_ready hready, hack, hafter.drvC, hafter.drvD, hafter.shift, hafter.bitcnt, hseq, hbusy,
    hspan.events, hspan.atLeast, hspan.exactly⟩

/-- The six events of each bit cycle, bit `j` in beats `3 * j` to `3 * j + 2` (R130). -/
theorem beatEvents_bitChanges (T : Nat) (d w : Nat → Nat) (x : Nat → Bool) (n : Nat) :
    beatEvents T d w 0 ((List.range n).flatMap (fun j => bitChanges (x j))) =
      (List.range n).flatMap (fun j =>
        [.drive (d (3 * j)) .data (driverOfBit (x j)), .wait (d (3 * j)) (w (3 * j + 1)) T,
         .drive (d (3 * j + 1)) .clock .rel, .wait (d (3 * j + 1)) (w (3 * j + 2)) T,
         .drive (d (3 * j + 2)) .clock .low, .wait (d (3 * j + 2)) (w (3 * j + 3)) T]) := by
  induction n with
  | zero => rfl
  | succ n ih =>
    have hlen : 0 + ((List.range n).flatMap (fun j => bitChanges (x j))).length = 3 * n := by
      simp [bitChanges, List.length_flatMap, Nat.mul_comm]
    rw [List.range_succ, List.flatMap_append, List.flatMap_append, beatEvents_append, ih, hlen]
    rfl

/-- Settles O27: the beats of `ticks_writeByte`, with their times (`Beats.times`) under EXACT_TIMING. -/
theorem wrbyteExactTrace : Obligations.WrbyteExactTrace := by
  unfold Obligations.WrbyteExactTrace
  rintro v s T hready rfl
  obtain ⟨d, w, m, hbeats, hfirst, hlast, hlo, hhi, hsample, htrace⟩ := ticks_writeByte v s
  refine ⟨_, d, w, m, exec_ready hready, ⟨hfirst, hbeats.order, hlo, hhi, hlast.symm⟩, fun hexact => ?_, ?_⟩
  · have htimes : ∀ h ≤ 27, w h = s.now + h * s.cfg.tUnit := hfirst ▸ hbeats.times hexact
    refine ⟨fun h hh => ⟨?_, htimes (h + 1) hh⟩, ?_⟩
    · rw [(hbeats.exactly hexact h hh).1, htimes h hh.le]
    · rw [hsample hexact, htimes 26 (by decide)]
  · have hlen : 0 + ((List.range 8).flatMap (fun j => bitChanges (v.getLsbD (7 - j)))).length = 24 := rfl
    refine htrace.trans ?_
    rw [beatEvents_append, beatEvents_bitChanges, hlen]
    simp only [beatEvents, driverOfBit, List.append_assoc, List.cons_append, List.nil_append]

/-! ### Transactions (R134 to R136, R139) -/

theorem toNat_encode_wrtxn1 (a d : Byte) : (encode (.wrtxn1 a d)).toNat = 0x0A0000 + a.toNat * 256 + d.toNat := by
  simp [toNat_encode, Instr.opcode, Instr.operandA, Instr.operandB]

theorem toNat_encode_wrtxnf (a : Byte) : (encode (.wrtxnf a)).toNat = 0x0B0000 + a.toNat * 256 := by
  simp [toNat_encode, Instr.opcode, Instr.operandA, Instr.operandB]

/-- `STATUS.OK` takes no time, no event and no sample. -/
theorem Span.storeOk {T N m : Nat} {s : State} {r : Bool × State} (h : Span T N m s r.2) : Span T N m s (storeOk r) :=
  h.trans (span_setFlag .ok r.1 r.2)

theorem storeOk_flag (r : Bool × State) (f : StatusBit) :
    (storeOk r).flag f = if f = .ok then r.1 else r.2.flag f := flag_setFlag _ _ _ _

/-- R135, R136: the two commands store the result of a transaction, of their byte or of the frame buffer. -/
theorem effect_transaction {i : Instr} {s : State} {a : Byte} {p : List Byte}
    (hi : (∃ d, i = .wrtxn1 a d ∧ p = [d]) ∨ (i = .wrtxnf a ∧ p = frameBytes s)) :
    effect i s = storeOk (writeTransaction a p s) := by
  obtain ⟨d, rfl, rfl⟩ | ⟨rfl, rfl⟩ := hi <;> rfl

/-- Settles O29: a transaction's result and what it leaves, for every pattern of acknowledges
(`writeTransaction_results`). -/
theorem transactionResults : Obligations.TransactionResults := by
  unfold Obligations.TransactionResults
  refine ⟨toNat_encode_wrtxn1, toNat_encode_wrtxnf, fun i _ hbusy _ => exec_of_busy i hbusy, ?_⟩
  intro i s a p hi hready
  obtain ⟨hok, hafter, hspan⟩ := writeTransaction_results a p s
  obtain ⟨hseq, hbusy⟩ := idle_effect i hready.1
  have heff := effect_transaction hi
  rw [heff] at hseq hbusy
  refine ⟨_, (exec_ready hready).trans (congrArg _ heff), ?_, fun x hx => ?_, hspan.storeOk.samples,
    hafter.drvC, hafter.drvD, hafter.shift, hafter.bitcnt, hseq, hbusy⟩
  · rw [storeOk_flag, if_pos rfl, hok]
  · rw [storeOk_flag, if_neg (by decide), hafter.flag, if_pos rfl, lastAck_getLast false x hx]

/-- How long a command takes that completes undisturbed, and how many events it appends. -/
theorem exec_span {i : Instr} {s : State} {T N m : Nat} (hready : ReadyFor i s) (h : Span T N m s (effect i s)) :
    ∃ t, exec i s = .next t ∧ t.trace.length = s.trace.length + N ∧ s.now + T ≤ t.now ∧
      (s.cfg.exactTiming = true → t.now = s.now + T) :=
  ⟨effect i s, exec_ready hready, h.events, h.atLeast, h.exactly⟩

/-- A transaction command with `n` payload bytes. -/
theorem exists_effect_transaction {i : Instr} {s : State} {n : Nat}
    (hi : (∃ a d, i = .wrtxn1 a d ∧ n = 1) ∨ (∃ a, i = .wrtxnf a ∧ n = s.cfg.frameLen)) :
    ∃ a p, p.length = n ∧ effect i s = storeOk (writeTransaction a p s) := by
  obtain ⟨a, d, rfl, rfl⟩ | ⟨a, rfl, rfl⟩ := hi
  · exact ⟨a, [d], rfl, rfl⟩
  · exact ⟨a, frameBytes s, length_frameBytes s, rfl⟩

/-- Settles O31: `writeTransaction_allAck`, and `writeTransaction_firstNack` for a refused byte. -/
theorem transactionTiming : Obligations.TransactionTiming := by
  unfold Obligations.TransactionTiming
  refine ⟨fun i s n hi hready => ?_, by decide, by decide⟩
  obtain ⟨a, p, rfl, heff⟩ := exists_effect_transaction hi
  refine ⟨fun hack => ?_, fun k hk hnack => ?_⟩
  · have hspan := (writeTransaction_allAck a p hack).2.storeOk
    exact exec_span hready (heff ▸ hspan)
  · have hspan := (writeTransaction_firstNack a p hk hnack).2.storeOk
    rw [← heff, transactionSteps, Nat.add_comm 1 k] at hspan
    exact exec_span hready hspan

/-- R134: after an acknowledged byte the transaction goes on. -/
theorem sendBytes_cons_of_ack {v : Byte} {vs : List Byte} {s : State} (h : sampledAt s 0 = false) :
    sendBytes (v :: vs) s = sendBytes vs (writeByte v s).2 := by
  rw [sendBytes, if_pos (by rw [fst_writeByte, h]; rfl)]

/-- A transaction of two acknowledged bytes: its four parts, and success (R134). -/
theorem writeTransaction_pair_of_allAck {a d : Byte} {s : State} (h : AllAck s 2) :
    writeTransaction a [d] s = (true, stopCond (writeByte d (writeByte a (startCond s)).2).2) := by
  have hstart := span_startCond s
  have hfirst : sampledAt (startCond s) 0 = false := (sampledAt_span hstart 0).trans (h 0 (by decide))
  have hsecond : sampledAt (writeByte a (startCond s)).2 0 = false :=
    (sampledAt_span (hstart.trans (span_writeByte a _)) 0).trans (h 1 (by decide))
  rw [writeTransaction, sendBytes_cons_of_ack hfirst, sendBytes_cons_of_ack hsecond, sendBytes]

/-- Settles O34: each of the four commands has its effect (`effect_of_exec`), and those are the parts of the
transaction. The free values are drawn in the same order, so EXACT_TIMING is not needed. -/
theorem hostBuiltTransaction : Obligations.HostBuiltTransaction := by
  unfold Obligations.HostBuiltTransaction
  intro a d s0 s1 s2 s3 s4 hidle hin _ hack h1 h2 h3 h4
  obtain ⟨rfl, hidle1, hin1⟩ := effect_of_exec hidle hin h1
  obtain ⟨rfl, hidle2, hin2⟩ := effect_of_exec hidle1 hin1 h2
  obtain ⟨rfl, hidle3, hin3⟩ := effect_of_exec hidle2 hin2 h3
  obtain ⟨rfl, -, -⟩ := effect_of_exec hidle3 hin3 h4
  rw [exec_ready (readyFor_of_noInputs (.wrtxn1 a d) hidle hin), effect_transaction (.inl ⟨d, rfl, rfl⟩),
    writeTransaction_pair_of_allAck hack]
  rfl

/-! ### Frames -/

/-- The lines of a byte write no STATUS bit but ACK. -/
theorem writes_of_isByte {t : Task} (ht : IsByte t) :
    writes t ⊆ [.clockDriver, .dataDriver, .time, .history, .bit .busy, .bit .ack, .shifter, .bitCounter,
      .answers] := by
  cases t with
  | drive l v => cases l <;> simp [writes, driverPart]
  | driveBit | wait | sampleAck | load | bits | shiftLeft | bitCycle | ackCycle | writeByte => simp [writes]
  | _ => exact ht.elim

/-- Settles O32: what the lines of a byte write. -/
theorem byteFrame : Obligations.ByteFrame := by
  unfold Obligations.ByteFrame
  intro v s t hidle h
  exact exec_onlyChanges closed_isByte (fun _ => writes_of_isByte) (by decide) (by simp [program, IsByte]) hidle h

/-- The lines of a transfer write no STATUS bit but ACK and OK. -/
theorem writes_of_isTransfer {t : Task} (ht : IsTransfer t) :
    writes t ⊆ [.clockDriver, .dataDriver, .time, .history, .bit .busy, .bit .ack, .bit .ok, .shifter, .bitCounter,
      .answers] := by
  cases t with
  | drive l v => cases l <;> simp [writes, driverPart]
  | sampleRdata | clearFb | writeFb => exact ht.elim
  | _ => simp [writes]

/-- Settles O33: what the lines of a transfer write. -/
theorem transferFrame : Obligations.TransferFrame := by
  unfold Obligations.TransferFrame
  intro i s t hi hidle h
  have hprog : ∀ u ∈ program i, IsTransfer u := by
    obtain ⟨a, d, rfl⟩ | ⟨a, rfl⟩ | rfl | ⟨n, rfl⟩ := hi <;> simp [program, IsTransfer]
  exact exec_onlyChanges closed_isTransfer (fun _ => writes_of_isTransfer) (by decide) hprog hidle h

end Sys2Proof.Machine
end

/-! The frame protocol (spec/42_frame_protocol.md): what `SENDF` and `PUSHF` leave, how long they take, and the bus-free
times of their transactions. -/

section
namespace Sys2Proof.Machine

/-! ### SENDF: results and failures (R160 to R162) -/

/-- R162: a frame sequence ends at the first refused byte, so the acknowledge that it leaves is its success. -/
theorem sendFrame_flag_ack (s : State) : (sendFrame s).2.flag .ack = (sendFrame s).1 := by
  obtain ⟨hok, hafter, -⟩ := sendFrame_results s
  rw [hafter.flag, if_pos rfl, lastAck_frameTransactions, hok]

/-- Settles O35: a frame sequence's result, what it leaves and how long it takes, for every pattern of acknowledges
(`sendFrame_results`). -/
theorem sendfResults : Obligations.SendfResults := by
  unfold Obligations.SendfResults
  refine ⟨by decide, fun _ => exec_of_busy .sendf, ?_⟩
  rintro s xs rfl hready
  obtain ⟨-, hafter, hspan⟩ := sendFrame_results s
  obtain ⟨hseq, hbusy⟩ := idle_effect .sendf hready.1
  have hsendf := hspan.storeOk
  refine ⟨_, exec_ready hready, effect_sendf_flag_ok s, fun x hx => ?_, hsendf.samples, hsendf.events, hsendf.atLeast,
    hsendf.exactly, hafter.drvC, hafter.drvD, hafter.shift, hafter.bitcnt, hseq, hbusy⟩
  rw [effect, storeOk_flag, if_neg (by decide), hafter.flag, if_pos rfl, lastAck_getLast false x hx]

/-- R162: a frame sequence that fails leaves OK and ACK 0. -/
theorem exec_sendf_of_failure {s : State} {T N m : Nat} (hready : ReadyFor .sendf s) (hfail : (sendFrame s).1 = false)
    (hspan : Span T N m s (sendFrame s).2) : ∃ t, exec .sendf s = .next t ∧ t.flag .ok = false ∧ t.flag .ack = false ∧
      t.trace.length = s.trace.length + N ∧ s.now + T ≤ t.now ∧ (s.cfg.exactTiming = true → t.now = s.now + T) := by
  have hsendf := hspan.storeOk
  refine ⟨_, exec_ready hready, ?_, ?_, hsendf.events, hsendf.atLeast, hsendf.exactly⟩
  · rw [effect, storeOk_flag, if_pos rfl, hfail]
  · rw [effect, storeOk_flag, if_neg (by decide), sendFrame_flag_ack, hfail]

/-- Settles O38: `sendPreamble_nackPreamble` and `sendPreamble_nackPayload`, for the command that completes. -/
theorem sendfFailures : Obligations.SendfFailures := by
  unfold Obligations.SendfFailures
  rintro s P hready rfl
  have hframe : sendPreamble s.cfg.preamble s = sendFrame s := by rw [sendFrame]
  refine ⟨fun i k hi hk hnack => ?_, fun k hk hnack => ?_⟩
  · obtain ⟨hfail, hspan⟩ := sendPreamble_nackPreamble s.cfg.preamble hi hk hnack
    rw [hframe] at hfail hspan
    exact exec_sendf_of_failure hready hfail (hspan.cast rfl (by simp only [transactionSteps]; omega) rfl)
  · obtain ⟨hfail, hspan⟩ := sendPreamble_nackPayload s.cfg.preamble hk hnack
    rw [hframe] at hfail hspan
    exact exec_sendf_of_failure hready hfail (hspan.cast rfl (by simp only [transactionSteps]; omega) rfl)

/-! ### PUSHF: results (R163 to R166) -/

theorem toNat_encode_pushf {n : Nat} (hn : n < 256) : (encode (.pushf n)).toNat = 0x0D0000 + n := by
  simp [toNat_encode, Instr.opcode, Instr.operandA, Instr.operandB, Nat.mod_eq_of_lt hn]

/-- `PUSHF 0` makes no attempt (R163). -/
theorem effect_pushf_zero (s : State) : effect (.pushf 0) s = drawResults s := by
  rw [effect, pushAttempts]

/-- Settles O39: the attempts, whose samples, times and events add up (`pushAttempts_results`), and the two draws after
them. -/
theorem pushfResults : Obligations.PushfResults := by
  unfold Obligations.PushfResults
  refine ⟨fun n => toNat_encode_pushf, fun n _ => exec_of_busy (.pushf n), fun n s hready => ?_⟩
  obtain ⟨hafter, hattempts⟩ := pushAttempts_results n s
  obtain ⟨hseq, hbusy⟩ := idle_effect (.pushf n) hready.1
  have hspan := hattempts.trans (span_drawResults _)
  refine ⟨_, exec_ready hready, hseq, hbusy, hspan.samples, length_attemptList s n 0, hspan.events, hspan.atLeast,
    hspan.exactly, ?_, fun hn => ?_⟩
  · rintro rfl
    rw [effect_pushf_zero]
    exact onlyChanges_drawResults s
  · obtain ⟨_, hlast⟩ := hafter hn
    exact ⟨hlast.drvC, hlast.drvD, hlast.shift, hlast.bitcnt⟩

/-! ### PUSHF on the wire (R80, R163, R164) -/

/-- The draws of ACK and OK are no event. -/
theorem Shows.drawResults {w w' : WireState} {xs : List Symbol} {zs : List (Nat × Symbol)} {s t : State}
    (h : Shows w xs zs w' s t) : Shows w xs zs w' s (drawResults t) := h

/-- Settles O40: `shows_pushAttempts`, from the bus with both lines released. -/
theorem pushOnTheWire : Obligations.PushOnTheWire := by
  unfold Obligations.PushOnTheWire
  intro n s hready _ _
  obtain ⟨_, _, hshows⟩ := shows_pushAttempts n s true
  exact exec_symbols hready hshows.drawResults

/-! ### Bus-free times (R168) -/

/-- `STATUS.OK` is no event and takes no time. -/
theorem ShowsTransactions.storeOk {xs : List (List (Byte × Bool))} {d : Nat} {L : List Nat} {s : State}
    {r : Bool × State} (h : ShowsTransactions xs d L s r.2) : ShowsTransactions xs d L s (storeOk r) := h

/-- Nor are the draws of ACK and OK. -/
theorem ShowsTransactions.drawResults {xs : List (List (Byte × Bool))} {d : Nat} {L : List Nat} {s t : State}
    (h : ShowsTransactions xs d L s t) : ShowsTransactions xs d L s (drawResults t) := h

/-- Under `EXACT_TIMING` a command that completes undisturbed has the bus-free times of the transactions that its effect
shows. -/
theorem exec_busFreeTimes {i : Instr} {s : State} (hready : ReadyFor i s) (hexact : s.cfg.exactTiming = true)
    {xs : List (List (Byte × Bool))} {d : Nat} {L : List Nat} (h : ShowsTransactions xs d L s (effect i s)) :
    ∃ t es, exec i s = .next t ∧ t.trace = s.trace ++ es ∧ busFreeTimes none (wireSymbols idleBus es) = L := by
  obtain ⟨zs, ⟨es, htrace, -, -, hconditions⟩, hapart⟩ := h true
  obtain ⟨T, hL, -⟩ := hapart hexact
  refine ⟨_, es, exec_ready hready, htrace, ?_⟩
  calc busFreeTimes none (wireSymbols idleBus es)
      = busFreeTimes none (conditions (wireSymbols idleBus es)) := (busFreeTimes_conditions none _).symm
    _ = busFreeTimes none zs := congrArg _ (hconditions hexact)
    _ = L := hL.busFreeTimes

theorem freeTimes_of_ne_zero {c : Cfg} {n m : Nat} (hn : n ≠ 0) : freeTimes c n m = frameFreeTimes c n m := if_neg hn

/-- Settles O41: the bus-free times of `showsTransactions_sendFrame`. -/
theorem sendfBusFreeTimes : Obligations.SendfBusFreeTimes := by
  unfold Obligations.SendfBusFreeTimes
  intro s hready _ _ hexact hpreamble
  have hshows := showsTransactions_sendFrame s
  rw [freeTimes_of_ne_zero (mt List.length_eq_zero_iff.1 hpreamble)] at hshows
  exact exec_busFreeTimes hready hexact hshows.storeOk

/-- Settles O42: with no attempt there is no event; otherwise the bus-free times of
`showsTransactions_pushAttempts`. -/
theorem pushBusFreeTimes : Obligations.PushBusFreeTimes := by
  unfold Obligations.PushBusFreeTimes
  intro n s hready _ _ hexact hpreamble
  cases n with
  | zero =>
    refine ⟨_, [], exec_ready hready, ?_, rfl, rfl⟩
    rw [effect_pushf_zero, drawResults_trace, List.append_nil]
  | succ n =>
    have hshows := showsTransactions_pushAttempts n s hpreamble
    obtain ⟨t, es, hexec, htrace, hfree⟩ := exec_busFreeTimes hready hexact hshows.drawResults
    exact ⟨t, es, hexec, htrace, length_attemptList s (n + 1) 0, hfree⟩

end Sys2Proof.Machine
end

/-! The frame buffer port (spec/43_frame_buffer_port.md): what `FBCLR` and `FBWR` store, and what they leave unchanged. -/

section
namespace Sys2Proof.Machine

/-! ### Stores (R55, R180, R181) -/

theorem toNat_encode_fbwr {index : Nat} (hindex : index < 256) (v : Byte) :
    (encode (.fbwr index v)).toNat = 0x0F0000 + index * 256 + v.toNat := by
  simp [toNat_encode, Instr.opcode, Instr.operandA, Instr.operandB, Nat.mod_eq_of_lt hindex]

theorem writeFb_of_lt {index : Nat} {s : State} (h : index < s.cfg.frameLen) (v : Byte) :
    writeFb index v s = { s with fb := Memory.write s.fb index v } := if_pos h

theorem writeFb_of_ge {index : Nat} {s : State} (h : s.cfg.frameLen ≤ index) (v : Byte) : writeFb index v s = s :=
  if_neg (Nat.not_lt.2 h)

/-- R55: the store reaches its index only, and only below the frame length. -/
theorem read_writeFb {s : State} (hwf : Memory.wf s.cfg.frameLen s.fb = true) (index a : Nat) (v : Byte) :
    Memory.read (writeFb index v s).fb a =
      if a = index ∧ index < s.cfg.frameLen then v else Memory.read s.fb a := by
  by_cases hlt : index < s.cfg.frameLen
  · simp [hlt, Memory.read_write hwf]
  · simp [hlt]

/-- Settles O45: the effect of `FBCLR` is the empty listing, which reads as 0 everywhere (`Memory.read_nil`). -/
theorem fbclrClearsBuffer : Obligations.FbclrClearsBuffer := by
  unfold Obligations.FbclrClearsBuffer
  exact ⟨by decide, fun s hready => ⟨[], exec_ready hready, Memory.read_nil⟩, fun _ => exec_of_busy .fbclr⟩

/-- Settles O46: the effect of `FBWR` is `writeFb`, on the two sides of the frame length. -/
theorem fbwrWritesElement : Obligations.FbwrWritesElement := by
  unfold Obligations.FbwrWritesElement
  refine ⟨fun _ v hindex => toNat_encode_fbwr hindex v, fun index v s hready hge => ?_,
    fun index v s hready hwf hlt => ⟨Memory.write s.fb index v, ?_, fun a => Memory.read_write hwf index a v⟩,
    fun index v _ => exec_of_busy (.fbwr index v)⟩
  · rw [exec_ready hready, effect, writeFb_of_ge hge]
  · rw [exec_ready hready, effect, writeFb_of_lt hlt]

/-! ### The frame -/

/-- A command of one line that is no step gives a host input no place to land: from every state that is not BUSY it runs
to its end. -/
theorem exec_of_line {i : Instr} {u : Task} {s : State} (hprog : program i = [u]) (hstep : u.isStep = false)
    (hline : ∀ ret s, expand u ret s = []) (hidle : s.flag .busy = false) :
    exec i s = .next (complete (act u false (s.setFlag .busy true))) := by
  have hreach := reach_line (cmd := i) (k := 0) (ret := false) (rest := []) (s := s.setFlag .busy true) hstep
  rw [hline] at hreach
  have hbound := lineBound_ge s.cfg i
  obtain ⟨m, hm, hruns⟩ := runs_of_reach (todo := [u]) hreach (by omega)
  have hresume := resume_of_runs (r := ⟨i, 0, false, [u]⟩) (accept_seq s i [u]) hm hruns (by simp [pauses])
  rw [exec_eq, if_neg (by simp [hidle]), hprog, hresume]

/-- Acceptance and completion leave the buffer alone, so what `FBWR` leaves there is its store. -/
theorem exec_fbwr_fb {index : Nat} {v : Byte} {s t : State} (hidle : s.flag .busy = false)
    (h : exec (.fbwr index v) s = .next t) : t.fb = (writeFb index v s).fb := by
  rw [exec_of_line rfl rfl (fun _ _ => rfl) hidle] at h
  injection h with h
  rw [← h, complete_fb, act, writeFb_fb, writeFb_fb, setFlag_cfg, setFlag_fb]

/-- Settles O47: both commands are one line, which writes the buffer only; where `FBWR` stores is `read_writeFb`. -/
theorem portFrame : Obligations.PortFrame := by
  unfold Obligations.PortFrame
  intro i s t hidle h
  refine ⟨?_, ?_⟩
  · rintro rfl
    exact exec_onlyChanges_of_line rfl (fun _ _ => rfl) (by decide) (by decide) hidle h
  · rintro index v rfl
    refine ⟨exec_onlyChanges_of_line rfl (fun _ _ => rfl) (by simp [writes]) (by decide) hidle h,
      fun hwf a houtside => ?_⟩
    rw [exec_fbwr_fb hidle h, read_writeFb hwf, if_neg houtside]

end Sys2Proof.Machine
end

/-! Faults and the host port (spec/60_exceptions.md): what a host input does where it lands, that no answer of the
peripheral lengthens a command, and that a command runs on after a write or a read. -/

section
namespace Sys2Proof.Machine

/-! ### The end of every command (R213) -/

/-- From `s` to `t`, at most `T` microseconds pass under `EXACT_TIMING`, and at most `N` events are appended. -/
def AtMost (T N : Nat) (s t : State) : Prop := ∃ T' N' m, T' ≤ T ∧ N' ≤ N ∧ Span T' N' m s t

theorem Span.atMost {T N m : Nat} {s t : State} (h : Span T N m s t) : AtMost T N s t :=
  ⟨T, N, m, Nat.le_refl T, Nat.le_refl N, h⟩

theorem AtMost.trans_still {T N : Nat} {s t u : State} (h : AtMost T N s t) (g : Span 0 0 0 t u) : AtMost T N s u := by
  obtain ⟨T', N', m, hT, hN, hspan⟩ := h
  exact ⟨T', N', m, hT, hN, hspan.trans g⟩

/-- Whatever the peripheral answers, a command's effect takes at most what it takes with every byte acknowledged. -/
theorem effect_atMost (i : Instr) (s : State) : AtMost (nominalTime s.cfg i) (maxSteps s.cfg i) s (effect i s) := by
  cases i with
  | readd => exact ((span_sample s).trans (span_setFlag .rdata _ _)).atMost
  | wrbyte v => exact (span_writeByte v s).atMost
  | wrtxn1 a d =>
    have h : AtMost (60 * s.cfg.tUnit) (transactionSteps 1) s _ := writeTransaction_atMost a [d] s
    exact h.trans_still (span_setFlag .ok _ _)
  | wrtxnf a =>
    have h := writeTransaction_atMost a (frameBytes s) s
    rw [length_frameBytes] at h
    exact AtMost.trans_still h (span_setFlag .ok _ _)
  | sendf =>
    have h := sendPreamble_atMost s.cfg.preamble s
    rw [← sendFrame] at h
    exact AtMost.trans_still h (span_setFlag .ok _ _)
  | pushf n => exact AtMost.trans_still (pushAttempts_atMost n s) (span_drawResults _)
  | _ => exact (span_effect _ fun _ h => absurd h (Nat.not_lt_zero _)).atMost

/-- Settles O54: a ready command has its whole effect (`exec_ready`), which is bounded by `effect_atMost`. -/
theorem noAnswerLengthensCommand : Obligations.NoAnswerLengthensCommand := by
  unfold Obligations.NoAnswerLengthensCommand
  intro i s hready
  obtain ⟨T, N, m, hT, hN, hspan⟩ := effect_atMost i s
  obtain ⟨hseq, hbusy⟩ := idle_effect i hready.1
  obtain ⟨t, hexec, hevents, hle, hexact⟩ := exec_span hready hspan
  obtain rfl : effect i s = t := by simpa [exec_ready hready] using hexec
  exact ⟨_, hexec, hseq, hbusy, by omega, by omega, fun h => by have := hexact h; omega⟩

/-! ### Where a host input lands (R200, R204, R214) -/

theorem step_of_lands {s : State} {x : HostInput} {rest : List HostInput} (hin : s.inputs = x :: rest)
    (hlands : lands s x = true) : step s = deliver x.act { s with inputs := rest } := by
  simp [step, hin, hlands]

theorem step_of_noInputs {s : State} (hin : s.inputs = []) : step s = .next (resume s) := by simp [step, hin]

theorem exec_next (i : Instr) (s : State) : ∃ t, exec i s = .next t := ⟨_, exec_eq i s⟩

theorem deliver_next (a : HostAct) (s : State) : ∃ t, deliver a s = .next t := by
  cases a with
  | reset => exact ⟨_, rfl⟩
  | readStatus => exact ⟨_, rfl⟩
  | write w =>
    cases hbusy : s.flag .busy with
    | true => exact ⟨raiseFault .busy s, by simp [deliver, writeCmd, hbusy]⟩
    | false =>
      rcases hw : decode w with e | i
      · exact ⟨_, writeCmd_of_illegal hbusy hw⟩
      · rw [deliver, writeCmd_of_legal hbusy hw]
        exact exec_next i s

/-- Settles O10: a step delivers an input (`deliver_next`) or resumes the sequencer. -/
theorem stepNeverStops : Obligations.StepNeverStops := by
  unfold Obligations.StepNeverStops
  refine ⟨fun s => ?_, exec_next⟩
  unfold step
  split
  · exact ⟨_, rfl⟩
  · split
    · exact deliver_next _ _
    · exact ⟨_, rfl⟩

theorem step_readStatus {s : State} {k : Nat} {rest : List HostInput} (hin : s.inputs = ⟨k, .readStatus⟩ :: rest)
    (hlands : lands s ⟨k, .readStatus⟩ = true) :
    step s = .next { s with inputs := rest, hostReads := s.hostReads ++ [s.status] } := step_of_lands hin hlands

/-- Settles O12: the byte is STATUS itself (`step_readStatus`), so each of its bits is a flag by `statusPos`. -/
theorem statusReadChangesNothing : Obligations.StatusReadChangesNothing := by
  unfold Obligations.StatusReadChangesNothing
  intro s k rest hin hlands
  exact ⟨s.status, step_readStatus hin hlands, rfl, rfl, rfl, rfl, rfl, rfl, rfl, Inv.reservedBitsZero⟩

/-- R206: the BUSY check comes before the decoder, so the word does not matter. -/
theorem step_write_of_busy {s : State} {k : Nat} {w : CmdWord} {rest : List HostInput} (hbusy : s.flag .busy = true)
    (hin : s.inputs = ⟨k, .write w⟩ :: rest) (hlands : lands s ⟨k, .write w⟩ = true) :
    step s = .next (State.setFlag { s with inputs := rest } .fBusy true) :=
  (step_of_lands hin hlands).trans (if_pos hbusy)

/-- Settles O13: `step_write_of_busy`, with the places of the bit and of the cause code. -/
theorem busyWriteOnlySetsFBusy : Obligations.BusyWriteOnlySetsFBusy := by
  unfold Obligations.BusyWriteOnlySetsFBusy
  exact ⟨rfl, rfl, rfl, fun _ _ _ _ => step_write_of_busy⟩

/-- Settles O14: `exec_of_busy`. -/
theorem commandRefusedWhileBusy : Obligations.CommandRefusedWhileBusy := fun i _ => exec_of_busy i

/-! ### A command that an input interrupts (R204, R214, R247) -/

/-- On the way from `s` to `t`, the command `i` stands at `c` before its step `k`, where the act `a` lands. -/
structure StandsBefore (i : Instr) (k : Nat) (a : HostAct) (s c t : State) : Prop where
  position : ∃ r, c.seq = .running r ∧ r.cmd = i ∧ r.k = k
  busy : c.flag .busy = true
  lands : lands c ⟨k, a⟩ = true
  inputs : c.inputs = []
  hostReads : c.hostReads = s.hostReads
  trace : c.trace = t.trace.take (s.trace.length + k)
  goesOn : ∃ j ≤ lineBound c.cfg i, Runs j c t

theorem withInputs_self {s : State} {xs : List HostInput} (h : s.inputs = xs) : { s with inputs := xs } = s := by
  rw [← h]

/-- `runs_interrupted` for a whole command, from its acceptance on: a command without a step `k` ends first. -/
theorem exec_interrupted (i : Instr) {s : State} (k : Nat) (a : HostAct) (hidle : Idle s) (hin : s.inputs = []) :
    ∃ c, exec i { s with inputs := [⟨k, a⟩] } = .next { c with inputs := [⟨k, a⟩] } ∧
      ((effect i s).trace.length ≤ s.trace.length + k → c = effect i s) ∧
      (s.trace.length + k < (effect i s).trace.length → StandsBefore i k a s c (effect i s)) := by
  obtain ⟨m, hm, hruns⟩ := runs_ready (readyFor_of_noInputs i hidle hin)
  obtain ⟨c, j, hj, hgoes, hcin, hcfg, hcmd, hstop, hwhere⟩ := runs_interrupted (x := a) hruns (idle_effect i hidle).1 hm
    hin (accept_runningIs i _ s) (accept_countsSteps i _ s k)
  have hexec : exec i { s with inputs := [⟨k, a⟩] } = .next { c with inputs := [⟨k, a⟩] } := by
    have hfree : State.flag { s with inputs := [⟨k, a⟩] } .busy = false := hidle.2
    rw [exec_eq, if_neg (by simp [hfree])]
    exact congrArg _ hstop
  refine ⟨c, hexec, ?_⟩
  obtain ⟨hc, hle⟩ | ⟨⟨r, hr, hk⟩, hlands, htrace, hlt⟩ := hwhere
  · exact ⟨fun _ => hc, fun hlt => absurd hle (Nat.not_le.2 hlt)⟩
  · refine ⟨fun hle => absurd hle (Nat.not_le.2 hlt), fun _ => ?_⟩
    obtain ⟨hi, hbusy⟩ := hcmd r hr
    exact ⟨⟨r, hr, hi, hk⟩, hbusy, hlands, hcin, hgoes.hostReads.symm.trans hruns.hostReads, htrace,
      j, by rw [hcfg]; exact hj.trans hm, hgoes⟩

/-- Nothing that the sequencer does not see keeps the command from its end. -/
theorem StandsBefore.step_unseen {i : Instr} {k : Nat} {a : HostAct} {s c t : State} (h : StandsBefore i k a s c t)
    (ht : t.seq = .idle) {g : State → State} (hg : Unseen g) (hpauses : ∀ s, pauses (g s) = pauses s)
    (hin : (g c).inputs = []) : step (g c) = .next (g t) := by
  obtain ⟨r, hr, rfl, -⟩ := h.position
  obtain ⟨j, hj, hruns⟩ := h.goesOn
  have hend : pauses (g t) = true := (hpauses t).trans (by simp [pauses, ht])
  have hresume : resume (g c) = g t :=
    resume_of_runs ((hg.seq c).trans hr) (by rw [hg.cfg]; exact hj) (hruns.unseen hg hpauses) hend
  rw [step_of_noInputs hin, hresume]

/-- Settles O55: the command stands before its step `k` (`exec_interrupted`), the write is refused
(`step_write_of_busy`), and the sequencer does not see F_BUSY (`unseen_fBusy`). -/
theorem interruptedCommandRunsOn : Obligations.InterruptedCommandRunsOn := by
  unfold Obligations.InterruptedCommandRunsOn
  intro i s k w hidle hin
  have hend : (effect i s).seq = .idle := (idle_effect i hidle).1
  obtain ⟨c, hexec, hends, hstands⟩ := exec_interrupted i k (.write w) hidle hin
  refine ⟨effect i s, _, exec_ready (readyFor_of_noInputs i hidle hin), hexec, hend, fun hle => by rw [hends hle],
    fun hlt => ?_⟩
  have h := hstands hlt
  refine ⟨h.position, h.busy, h.trace, step_write_of_busy h.busy rfl h.lands, ?_⟩
  rw [withInputs_self h.inputs]
  exact h.step_unseen hend unseen_fBusy pauses_fBusy h.inputs

/-- Settles O56: as O55, with a read (`step_readStatus`) and the host's list of values read (`unseen_hostReads`). -/
theorem polledCommandRunsOn : Obligations.PolledCommandRunsOn := by
  unfold Obligations.PolledCommandRunsOn
  intro i s k hidle hin
  have hend : (effect i s).seq = .idle := (idle_effect i hidle).1
  obtain ⟨c, hexec, hends, hstands⟩ := exec_interrupted i k .readStatus hidle hin
  refine ⟨effect i s, _, exec_ready (readyFor_of_noInputs i hidle hin), hexec, hend, fun hle => by rw [hends hle],
    fun hlt => ?_⟩
  have h := hstands hlt
  refine ⟨h.position, h.busy, h.trace, h.hostReads ▸ step_readStatus rfl h.lands, ?_⟩
  have hread := h.step_unseen hend (unseen_hostReads (s.hostReads ++ [c.status])) (fun _ => rfl) h.inputs
  rwa [← withInputs_self h.inputs] at hread

end Sys2Proof.Machine
end

/-! Reset, a line that is stuck or has nothing on it, and how long a command lasts
(spec/70_reset_and_hazards.md). -/

section
namespace Sys2Proof.Machine

/-! ### A step of an idle block, and the reset input (R230, R231) -/

theorem resume_of_idle {s : State} (h : s.seq = .idle) : resume s = s := by
  rw [resume, h]

/-- Settles O11: with nothing at its inputs a step resumes the sequencer (`step_of_noInputs`), which has nothing to
do. -/
theorem idleBlockWaits : Obligations.IdleBlockWaits := by
  unfold Obligations.IdleBlockWaits
  intro s hidle hin
  rw [step_of_noInputs hin, resume_of_idle hidle]

theorem step_reset {s : State} {k : Nat} {rest : List HostInput} (hin : s.inputs = ⟨k, .reset⟩ :: rest)
    (hlands : lands s ⟨k, .reset⟩ = true) : step s = .next (resetBlock { s with inputs := rest }) :=
  step_of_lands hin hlands

/-- R202: another fault raised leaves a fault bit set. -/
theorem raiseFault_flag_of_set {f : StatusBit} {s : State} (h : s.flag f = true) (kind : FaultKind) :
    (raiseFault kind s).flag f = true := by
  rw [raiseFault_flag, h, ite_self]

/-- R230: a fault bit stays set in every step but a reset. -/
theorem step_flag_fault_or_resets {kind : FaultKind} {s t : State} (hset : s.flag (faultBit kind) = true)
    (hstep : step s = .next t) :
    t.flag (faultBit kind) = true ∨ ∃ k rest, s.inputs = ⟨k, .reset⟩ :: rest ∧ lands s ⟨k, .reset⟩ = true := by
  rcases step_cases hstep with ⟨rfl, -⟩ | ⟨⟨k, act⟩, rest, hin, hlands, hact⟩
  · exact .inl (resume_flag_fault kind hset)
  · have htaken : State.flag { s with inputs := rest } (faultBit kind) = true := hset
    rcases hact with ⟨rfl, -⟩ | ⟨-, rfl⟩ | ⟨w, -, hwrite⟩
    · exact .inr ⟨k, rest, hin, hlands⟩
    · exact .inl htaken
    · rcases hwrite with ⟨-, rfl⟩ | ⟨-, -, rfl⟩ | ⟨-, i, -, rfl⟩
      · exact .inl (raiseFault_flag_of_set htaken .busy)
      · exact .inl (raiseFault_flag_of_set htaken .illegal)
      · refine .inl (resume_flag_fault kind ?_)
        rw [accept_flag, htaken, ite_self]

/-- Settles O15: the reset input that lands leaves `resetBlock` (`step_reset`), whose empty listing reads as 0
everywhere, and every other step keeps a fault bit (`step_flag_fault_or_resets`). -/
theorem resetInputLeaves : Obligations.ResetInputLeaves := by
  unfold Obligations.ResetInputLeaves
  refine ⟨fun s k rest hin hlands => ?_, fun s t kind hstep hset => step_flag_fault_or_resets hset hstep⟩
  exact ⟨_, step_reset hin hlands, resetBlock_drvC _, resetBlock_drvD _, resetBlock_now _, resetBlock_trace _,
    resetBlock_status _, Memory.read_nil, resetBlock_seq _, resetBlock_cfg _, resetBlock_inputs _⟩

/-! ### DATA stuck low (R244) -/

/-- R134: a transaction ends at the first refused byte, so the acknowledge that it leaves is its success. -/
theorem writeTransaction_flag_ack (a : Byte) (p : List Byte) (s : State) :
    (writeTransaction a p s).2.flag .ack = (writeTransaction a p s).1 := by
  obtain ⟨hok, hafter, -⟩ := writeTransaction_results a p s
  rw [hafter.flag, if_pos rfl, lastAck_sentBytes, hok]

/-- A transfer whose bytes are all acknowledged stores a success, and its acknowledge is that success. -/
theorem effect_transfer_of_allAck {i : Instr} {s : State}
    (hi : (∃ a d, i = .wrtxn1 a d) ∨ (∃ a, i = .wrtxnf a) ∨ i = .sendf) (hack : AllAck s (sampleCount s.cfg i)) :
    ∃ r : Bool × State, effect i s = storeOk r ∧ r.1 = true ∧ r.2.flag .ack = r.1 := by
  obtain ⟨a, d, rfl⟩ | ⟨a, rfl⟩ | rfl := hi
  · exact ⟨_, rfl, (writeTransaction_allAck a [d] hack).1, writeTransaction_flag_ack a [d] s⟩
  · have hbytes : AllAck s (1 + (frameBytes s).length) := by rw [length_frameBytes]; exact hack
    exact ⟨_, rfl, (writeTransaction_allAck a (frameBytes s) hbytes).1, writeTransaction_flag_ack a (frameBytes s) s⟩
  · refine ⟨_, rfl, ?_, sendFrame_flag_ack s⟩
    rw [sendFrame]
    exact (sendPreamble_allAck s.cfg.preamble hack).1

/-- Settles O43: a line stuck low acknowledges every byte (`effect_transfer_of_allAck`). -/
theorem stuckLowLineReportsSuccess : Obligations.StuckLowLineReportsSuccess := by
  unfold Obligations.StuckLowLineReportsSuccess
  intro i s hi hready hlow
  have hack : AllAck s (sampleCount s.cfg i) := fun j hj => (sampledAt_eq_false_iff s j).2 (hlow j hj)
  obtain ⟨r, heff, hok, hlast⟩ := effect_transfer_of_allAck hi hack
  refine ⟨_, exec_ready hready, ?_, ?_⟩
  · rw [heff, storeOk_flag, if_pos rfl, hok]
  · rw [heff, storeOk_flag, if_neg (by decide), hlast, hok]

/-! ### No peripheral (R244, R162, R166) -/

theorem sampledAt_of_rel {s : State} {i : Nat} (h : peripheralAt s i = .rel) : sampledAt s i = true := by
  rw [sampledAt, h]
  rfl

/-- R162: a frame sequence whose address byte is refused sends that byte only. -/
theorem frameTransactions_of_nack {s : State} {i : Nat} (hp : s.cfg.preamble ≠ []) (h : sampledAt s i = true) :
    frameTransactions s i s.cfg.preamble = [[(addrByte s.cfg, true)]] := by
  obtain ⟨v, vs, hv⟩ := List.exists_cons_of_ne_nil hp
  rw [hv]
  simp [frameTransactions, sentBytes, allTaken, h]

/-- R164, R166: so does every attempt of `PUSHF`, each refused at the next sample. -/
theorem pushTransactions_of_nack {s : State} (hp : s.cfg.preamble ≠ []) (n : Nat) {i : Nat}
    (h : ∀ j, i ≤ j → j < i + n → sampledAt s j = true) :
    pushTransactions s n i = List.replicate n [(addrByte s.cfg, true)] := by
  induction n generalizing i with
  | zero => rfl
  | succ n ih =>
    have hfirst := frameTransactions_of_nack hp (h i (Nat.le_refl i) (by omega))
    have hrest : pushTransactions s n (i + 1) = List.replicate n [(addrByte s.cfg, true)] :=
      ih fun j hij hj => h j (by omega) (by omega)
    rw [pushTransactions, hfirst, List.replicate_succ]
    exact congrArg _ hrest

/-- R162: how long a frame sequence takes whose address byte is refused, which is the one attempt of `PUSHF 1`. -/
theorem span_sendFrame_of_nack {s : State} (hp : s.cfg.preamble ≠ []) (h : sampledAt s 0 = true) :
    Span (33 * s.cfg.tUnit) 68 1 s (sendFrame s).2 := by
  simpa [pushAttempts] using pushAttempts_absent 1 (by simpa using h) hp

/-- What the wire shows, with the number of its events. -/
theorem Shows.symbols_length {w w' : WireState} {xs : List Symbol} {zs : List (Nat × Symbol)} {T N m : Nat}
    {s t : State} (h : Shows w xs zs w' s t) (hspan : Span T N m s t) :
    ∃ es, t.trace = s.trace ++ es ∧ Machine.symbols w es = xs ∧ es.length = N := by
  obtain ⟨es, htrace, hsym⟩ := h.symbols
  have hlen := hspan.events
  rw [htrace, List.length_append] at hlen
  exact ⟨es, htrace, hsym, Nat.add_left_cancel hlen⟩

/-- Settles O44: the transactions of `SENDF` and `PUSHF` are single refused address bytes (`frameTransactions_of_nack`,
`pushTransactions_of_nack`), which the wire shows (`shows_effect_sendf`, `shows_pushAttempts`) in the time of
`pushAttempts_absent`. -/
theorem absentPeripheral : Obligations.AbsentPeripheral := by
  unfold Obligations.AbsentPeripheral
  intro s hp _ _
  refine ⟨fun hready hrel => ?_, fun n hready hrel => ?_⟩
  · have hnack := sampledAt_of_rel hrel
    have hsent := frameTransactions_of_nack hp hnack
    have hspan : Span _ _ _ s (effect .sendf s) := (span_sendFrame_of_nack hp hnack).storeOk
    obtain ⟨_, hshows⟩ := shows_effect_sendf s
    obtain ⟨es, htrace, hsym, hlen⟩ := hshows.symbols_length hspan
    have hfail : (effect .sendf s).flag .ok = false := by rw [effect_sendf_flag_ok, hsent]; rfl
    rw [hsent, List.flatMap_singleton] at hsym
    exact ⟨_, es, exec_ready hready, htrace, hfail, hsym, hlen, hspan.atLeast, hspan.exactly⟩
  · have hnack : ∀ j < n, sampledAt s j = true := fun j hj => sampledAt_of_rel (hrel j hj)
    have hsent := pushTransactions_of_nack hp n (i := 0) fun j _ hj => hnack j (by omega)
    have hattempts := (pushAttempts_absent n hnack hp).trans (span_drawResults _)
    have hspan : Span (33 * n * s.cfg.tUnit + (n - 1) * s.cfg.tPush) (68 * n + (n - 1)) n s (effect (.pushf n) s) :=
      hattempts.cast (by ring) rfl rfl
    obtain ⟨_, _, hshows⟩ := shows_pushAttempts n s true
    obtain ⟨es, htrace, hsym, hlen⟩ := hshows.drawResults.symbols_length hspan
    rw [hsent] at hsym
    exact ⟨_, es, exec_ready hready, htrace, hsym, hlen, hspan.atLeast, hspan.exactly⟩

/-! ### How long a command lasts (R249) -/

theorem frameTime_thisHardware : frameTime Cfg.thisHardware Cfg.thisHardware.preamble.length = 88753 := by decide

theorem frameSteps_thisHardware : frameSteps Cfg.thisHardware = 9036 := by decide

theorem nominalTime_pushf_thisHardware (n : Nat) :
    nominalTime Cfg.thisHardware (.pushf n) = n * 88753 + (n - 1) * 2000 := by
  rw [nominalTime, frameTime_thisHardware]
  rfl

theorem maxSteps_pushf_thisHardware (n : Nat) : maxSteps Cfg.thisHardware (.pushf n) = 9036 * n + (n - 1) := by
  rw [maxSteps, frameSteps_thisHardware, Nat.mul_comm]

/-- Settles O53: a ready command has its whole effect (`exec_ready`), which takes the time and the events of the table
(`span_effect`); the figures are the table's with the parameters of R8. -/
theorem commandDurations : Obligations.CommandDurations := by
  unfold Obligations.CommandDurations
  refine ⟨fun i s hready hack => ?_, fun a d => ⟨rfl, rfl, rfl, rfl⟩, frameTime_thisHardware, frameSteps_thisHardware,
    fun n _ => ⟨nominalTime_pushf_thisHardware n, maxSteps_pushf_thisHardware n⟩, nominalTime_pushf_thisHardware 8,
    nominalTime_pushf_thisHardware 255⟩
  have hspan := span_effect i hack
  obtain ⟨hseq, hbusy⟩ := idle_effect i hready.1
  exact ⟨_, exec_ready hready, hseq, hbusy, hspan.events, hspan.atLeast, hspan.exactly⟩

end Sys2Proof.Machine
end
